-- ==== Sys2Proof/Word.lean ====
section
/-! DEFINITION. The word types of the SF1 portrait codec core: the 32-bit register and command word
(10_state.md R22, 30_encoding.md R80), the byte of the byte memories (R38, R39) and the 4-bit pixel (R40). -/

namespace Sys2Proof

/-- A register, a command word, a PALRAM entry or a WARNLOG entry (R22, R41, R44). -/
abbrev Word := BitVec 32

/-- An entry of SRC, DST, PALB, BLINK_TBL or TALK_TBL (R38, R39, R42, R43). -/
abbrev Byte := BitVec 8

/-- An entry of PIX: a palette index 0 to 15 (R40). -/
abbrev Pixel := BitVec 4

end Sys2Proof
end

