-- ==== Sys2Proof/Syntax.lean ====
section
/-! DEFINITION. The 18 commands of the opcode map (30_encoding.md R82), one constructor per row of
spec/opcode_table.json. Only RD_BITS and WR_BITS carry a field: the count N (R80); every other operand
is a register (R84). -/

namespace Sys2Proof

/-- A command of the core (30_encoding.md R82). `n` is the field N, bits 23:16 of the command word. -/
inductive Instr where
  /-- RD_START, 0x01: position the reader (R111). -/
  | rdStart
  /-- RD_BIT, 0x02: read one bit (R112). -/
  | rdBit
  /-- RD_BITS n, 0x03: read an n-bit field (R113). -/
  | rdBits (n : BitVec 8)
  /-- WR_START, 0x04: begin a new output (R114). -/
  | wrStart
  /-- WR_BITS n, 0x05: append the n low bits of ARG (R115). -/
  | wrBits (n : BitVec 8)
  /-- WR_FLUSH, 0x06: pad and emit the last partial word (R116). -/
  | wrFlush
  /-- LC_DEC, 0x08: decode one Length Code symbol (R137). -/
  | lcDec
  /-- LC_ENC, 0x09: encode ARG as a Length Code symbol (R138). -/
  | lcEnc
  /-- PAL_DEC_A, 0x10: decode PALB with convention A (R159). -/
  | palDecA
  /-- PAL_DEC_B, 0x11: decode PALB with convention B (R160). -/
  | palDecB
  /-- PAL_ENC_A, 0x12: encode PALRAM with convention A (R161). -/
  | palEncA
  /-- PAL_ENC_B, 0x13: encode PALRAM with convention B (R162). -/
  | palEncB
  /-- RENDER, 0x14: write the RGBA image of PIX to DST (R164). -/
  | render
  /-- DEC_A, 0x20: decode a Variant A stream (R184). -/
  | decA
  /-- DEC_B, 0x21: decode a Variant B stream (R195). -/
  | decB
  /-- ENC_B, 0x28: encode PIX as a Variant B stream (R222). -/
  | encB
  /-- PARSE, 0x30: parse the container in SRC (R243). -/
  | parse
  /-- SERIALIZE, 0x31: write the rebuilt container to DST (R256). -/
  | serialize
deriving DecidableEq, Repr

end Sys2Proof
end

