-- ==== Sys2Proof/WellFormed.lean ====
section
/-! DEFINITION. Which terms of `Instr` are commands: the one check on a field is that the count N of
RD_BITS and WR_BITS is at most 32 (30_encoding.md R81 check 4, R82). -/

namespace Sys2Proof

/-- The count N of RD_BITS and WR_BITS is 0 to 32 (30_encoding.md R82). -/
def countOk (n : BitVec 8) : Bool := decide (n.toNat ≤ 32)

/-- The term is a command the core performs (30_encoding.md R81). -/
def Instr.wellFormed : Instr → Bool
  | .rdBits n => countOk n
  | .wrBits n => countOk n
  | .rdStart => true
  | .rdBit => true
  | .wrStart => true
  | .wrFlush => true
  | .lcDec => true
  | .lcEnc => true
  | .palDecA => true
  | .palDecB => true
  | .palEncA => true
  | .palEncB => true
  | .render => true
  | .decA => true
  | .decB => true
  | .encB => true
  | .parse => true
  | .serialize => true

end Sys2Proof
end

