-- ==== Sys2Proof/Decode.lean ====
section
/-! DEFINITION. The command word (30_encoding.md R80): its decoder, total on every word and refusing by
name in the order of R81, the encoder written from the same table (R82), and the host's view of the
opcode table `decodeTableWord`. -/

namespace Sys2Proof

/-- The checks of 30_encoding.md R81, in its order. Each raises ILLEGAL_COMMAND (R281). -/
inductive DecodeError where
  /-- Check 1: RSV1 or RSV0 is not 0. -/
  | reservedField
  /-- Check 2: OPC is not an opcode of R82. -/
  | unknownOpcode
  /-- Check 3: N is not 0 for a command without N. -/
  | countNotZero
  /-- Check 4: N is above 32 for RD_BITS or WR_BITS. -/
  | countTooLarge
deriving DecidableEq, Repr

/-- Field RSV1, bits 31:24 (R80). -/
def wordRsv1 (w : Word) : BitVec 8 := w.extractLsb' 24 8

/-- Field N, bits 23:16 (R80). -/
def wordCount (w : Word) : BitVec 8 := w.extractLsb' 16 8

/-- Field RSV0, bits 15:8 (R80). -/
def wordRsv0 (w : Word) : BitVec 8 := w.extractLsb' 8 8

/-- Field OPC, bits 7:0 (R80). -/
def wordOpcode (w : Word) : BitVec 8 := w.extractLsb' 0 8

/-- The opcode map of 30_encoding.md R82; every other opcode is reserved (R83). -/
def instrOfOpcode (opc n : BitVec 8) : Option Instr :=
  match opc.toNat with
  | 0x01 => some .rdStart
  | 0x02 => some .rdBit
  | 0x03 => some (.rdBits n)
  | 0x04 => some .wrStart
  | 0x05 => some (.wrBits n)
  | 0x06 => some .wrFlush
  | 0x08 => some .lcDec
  | 0x09 => some .lcEnc
  | 0x10 => some .palDecA
  | 0x11 => some .palDecB
  | 0x12 => some .palEncA
  | 0x13 => some .palEncB
  | 0x14 => some .render
  | 0x20 => some .decA
  | 0x21 => some .decB
  | 0x28 => some .encB
  | 0x30 => some .parse
  | 0x31 => some .serialize
  | _ => none

/-- RD_BITS and WR_BITS, the two commands with a count (R80). -/
def Instr.takesCount : Instr → Bool
  | .rdBits _ => true
  | .wrBits _ => true
  | .rdStart => false
  | .rdBit => false
  | .wrStart => false
  | .wrFlush => false
  | .lcDec => false
  | .lcEnc => false
  | .palDecA => false
  | .palDecB => false
  | .palEncA => false
  | .palEncB => false
  | .render => false
  | .decA => false
  | .decB => false
  | .encB => false
  | .parse => false
  | .serialize => false

/-- Command decode: the checks of 30_encoding.md R81 in order, then the command of R82. -/
def decode (w : Word) : Except DecodeError Instr :=
  if wordRsv1 w ≠ 0#8 ∨ wordRsv0 w ≠ 0#8 then .error .reservedField
  else
    match instrOfOpcode (wordOpcode w) (wordCount w) with
    | none => .error .unknownOpcode
    | some i =>
      if i.takesCount then
        if countOk (wordCount w) then .ok i else .error .countTooLarge
      else if wordCount w = 0#8 then .ok i else .error .countNotZero

/-- The opcode of a command (30_encoding.md R82). -/
def Instr.opcode : Instr → BitVec 8
  | .rdStart => 0x01#8
  | .rdBit => 0x02#8
  | .rdBits _ => 0x03#8
  | .wrStart => 0x04#8
  | .wrBits _ => 0x05#8
  | .wrFlush => 0x06#8
  | .lcDec => 0x08#8
  | .lcEnc => 0x09#8
  | .palDecA => 0x10#8
  | .palDecB => 0x11#8
  | .palEncA => 0x12#8
  | .palEncB => 0x13#8
  | .render => 0x14#8
  | .decA => 0x20#8
  | .decB => 0x21#8
  | .encB => 0x28#8
  | .parse => 0x30#8
  | .serialize => 0x31#8

/-- The field N of a command: its count, or 0 (30_encoding.md R82). -/
def Instr.countField : Instr → BitVec 8
  | .rdBits n => n
  | .wrBits n => n
  | .rdStart => 0#8
  | .rdBit => 0#8
  | .wrStart => 0#8
  | .wrFlush => 0#8
  | .lcDec => 0#8
  | .lcEnc => 0#8
  | .palDecA => 0#8
  | .palDecB => 0#8
  | .palEncA => 0#8
  | .palEncB => 0#8
  | .render => 0#8
  | .decA => 0#8
  | .decB => 0#8
  | .encB => 0#8
  | .parse => 0#8
  | .serialize => 0#8

/-- The command word of a command: RSV1, N, RSV0 and OPC, from bit 31 down (30_encoding.md R80). -/
def encode (i : Instr) : Word := 0#8 ++ i.countField ++ 0#8 ++ i.opcode

/-- The command the decoder reads from an opcode-table word of `nbits` bits. A command is one 32-bit word
(30_encoding.md R80), so bits above `nbits` are 0 and a longer word is no command. -/
def decodeTableWord (nbits w : Nat) : Option Instr :=
  if w % 2 ^ nbits < 2 ^ 32 then (decode (BitVec.ofNat 32 (w % 2 ^ nbits))).toOption else none

end Sys2Proof
end

