-- ==== Sys2Proof/Config.lean ====
section
/-! DEFINITION. The implementation parameters of 00_scope.md R9 and the values that R10 and R36 fix.
The parameters are plain data that State carries (notes/assumptions/7.md), so a statement over all states
is a statement over all parameter values; `Config.default` holds the defaults of R9. The open parameter
REMAP is no field: the block never applies it (R7 item 2, 45_container.md R259). -/

namespace Sys2Proof

/-- `ODD_TAIL_MODE`: what a refill does with a single trailing byte (40_bit_cursor.md R103). -/
inductive OddTailMode where
  /-- The byte is never delivered. -/
  | drop
  /-- The byte is delivered as 8 bits. -/
  | use
deriving DecidableEq, Repr

/-- `PAL_B_ENC_MODE`: the quantized-palette encode rule (42_palette.md R155). -/
inductive PalBEncMode where
  /-- Round to the nearest level. -/
  | round
  /-- Take the top 3 bits of the channel. -/
  | top3
deriving DecidableEq, Repr

/-- The parameters of one block (00_scope.md R9) and its base address on the host bus (20_memory.md R66). -/
structure Config where
  /-- `SRC_CAP`: bytes of SRC. -/
  srcCap : Nat
  /-- `DST_CAP`: bytes of DST. -/
  dstCap : Nat
  /-- `PIX_CAP`: entries of PIX. -/
  pixCap : Nat
  /-- `WARN_CAP`: entries of WARNLOG. -/
  warnCap : Nat
  /-- `ITER_FACTOR`: the iteration-ceiling factor. -/
  iterFactor : Nat
  /-- `ODD_TAIL_MODE`. -/
  oddTail : OddTailMode
  /-- `PAL_B_ENC_MODE`. -/
  palBEnc : PalBEncMode
  /-- `SF1PC_BASE`: the address of the register CMD on the host bus. -/
  base : Nat
deriving DecidableEq, Repr

/-- The constraints column of 00_scope.md R9. -/
abbrev Config.Legal (c : Config) : Prop :=
  (2 ≤ c.srcCap ∧ c.srcCap ≤ 2 ^ 24) ∧ (16384 ≤ c.dstCap ∧ c.dstCap ≤ 2 ^ 24) ∧
  (4096 ≤ c.pixCap ∧ c.pixCap ≤ 2 ^ 22) ∧ (7 ≤ c.warnCap ∧ c.warnCap ≤ 64) ∧ 2 ≤ c.iterFactor

/-- The defaults of 00_scope.md R9. The base address has no default in the spec (OPEN): 0 is a
DESIGN CHOICE (notes/assumptions/8.md), unsafe only for a claim about State.reset's own bus addresses. -/
def Config.default : Config where
  srcCap := 65536
  dstCap := 65536
  pixCap := 4096
  warnCap := 16
  iterFactor := 16
  oddTail := .drop
  palBEnc := .round
  base := 0

/-- The constant register ID, "SF1P" (10_state.md R36). -/
def Config.idWord : Word := 0x53463150#32

/-- Side of the Variant B image in pixels (00_scope.md R10). -/
def Config.imgSide : Nat := 64

/-- Pixels of the Variant B image (00_scope.md R10). -/
def Config.imgSize : Nat := 4096

/-- Entries of PALRAM (10_state.md R41). -/
def Config.palramSize : Nat := 16

/-- Bytes of PALB (10_state.md R42). -/
def Config.palbSize : Nat := 32

/-- Bytes of BLINK_TBL and of TALK_TBL: 255 records of 4 (10_state.md R43). -/
def Config.tableSize : Nat := 1020

end Sys2Proof
end

