-- ==== Sys2Proof/Machine/State.lean ====
section
/-! DEFINITION. The state of the core as plain data: the registers of 10_state.md R22, the memories of
R38 to R44, the parameters of 00_scope.md R9, and two fields of the model's own: the host actions still to
come and the values host reads have returned. Also the reasons a step can stop, and the state after reset. -/

namespace Sys2Proof.Machine

/-- A memory of `w`-bit entries: (address, entry) pairs, addresses strictly rising, no entry equal to what
an unlisted address reads as. For `w = 8` it is a list of `Host.Cell`. -/
abbrev Memory (w : Nat) := List (Nat × BitVec w)

/-- What an address no entry lists reads as: 0. The spec leaves memory after reset unspecified
(10_state.md R50); DESIGN CHOICE, unsafe (notes/assumptions/5.md). -/
def Memory.unlisted (w : Nat) : BitVec w := 0#w

/-- The causes of a hard failure, with the codes of 10_state.md R25. -/
inductive Failure where
  /-- Code 1 (60_exceptions.md R277). -/
  | formatViolation
  /-- Code 2 (R278). -/
  | runtimeInvariantFailure
  /-- Code 3 (R279). -/
  | containerTruncated
  /-- Code 4 (R281). -/
  | illegalCommand
  /-- Code 5 (R280). -/
  | outputOverflow
  /-- Code 6 (R282). -/
  | capacityExceeded
deriving DecidableEq, Repr

/-- The reader of the Bit Cursor (10_state.md R29): registers RD_POS and RD_STATE. -/
structure Reader where
  /-- RD_OFF: the SRC offset of the next byte a refill takes. -/
  off : Word
  /-- RD_BUF: the residual bits, left-aligned. -/
  buf : BitVec 16
  /-- RD_CNT: how many bits RD_BUF holds, 0 to 16. -/
  cnt : BitVec 5
deriving DecidableEq, Repr

/-- The writer of the Bit Cursor (10_state.md R30): registers WR_LEN and WR_STATE. -/
structure Writer where
  /-- WR_LEN: bytes written so far, and the DST offset of the next word. -/
  len : Word
  /-- WR_BUF: the pending bits, right-aligned. -/
  buf : BitVec 16
  /-- WR_CNT: how many bits are pending, 0 to 15. -/
  cnt : BitVec 4
deriving DecidableEq, Repr

/-- The memories of the block (10_state.md R38 to R44). -/
structure Memories where
  /-- SRC, SRC_CAP bytes (R38). -/
  src : Memory 8
  /-- DST, DST_CAP bytes (R39). -/
  dst : Memory 8
  /-- PIX, PIX_CAP entries of 4 bits (R40). -/
  pix : Memory 4
  /-- PALRAM, 16 entries of 32 bits (R41). -/
  palram : Memory 32
  /-- PALB, 32 bytes (R42). -/
  palb : Memory 8
  /-- BLINK_TBL, 255 records of 4 bytes (R43). -/
  blinkTbl : Memory 8
  /-- TALK_TBL, 255 records of 4 bytes (R43). -/
  talkTbl : Memory 8
  /-- WARNLOG, WARN_CAP entries of 32 bits (R44). -/
  warnlog : Memory 32
deriving DecidableEq, Repr

/-- The contents a reset leaves in the memories, entry 0 first: the unconstrained draw of 10_state.md R50.
An entry a list does not reach reads as an unlisted entry. -/
structure Draw where
  src : List Byte
  dst : List Byte
  pix : List Pixel
  palram : List Word
  palb : List Byte
  blinkTbl : List Byte
  talkTbl : List Byte
  warnlog : List Word
deriving DecidableEq, Repr

/-- The value a host write sends (30_encoding.md R85, R86). -/
inductive HostValue where
  /-- A value written in the host program. -/
  | lit (v : Word)
  /-- The value the host's last read returned ("that byte" of COPYBACK, "GRAPHIC_OFF value" of OPEN, R86). -/
  | lastReply
deriving DecidableEq, Repr

/-- One action of the outside world: a host access (70_reset_and_hazards.md R307) or the platform's reset
(R300). `addr` is an address on the host bus, `size` the width of the access in bytes. -/
inductive HostAction where
  /-- The host reads `size` bytes at `addr`. -/
  | read (addr size : Nat)
  /-- The host writes `size` bytes at `addr`; a write of a word to CMD issues a command (R23). -/
  | write (addr size : Nat) (v : HostValue)
  /-- The platform resets the block; `d` is what the memories then hold. -/
  | reset (d : Draw)
deriving DecidableEq, Repr

/-- The state of the block. -/
structure State where
  /-- The implementation parameters (00_scope.md R9), read by PARAM, SRC_CAP_R, DST_CAP_R and PIX_CAP_R (R36). -/
  cfg : Config
  /-- STATUS.BUSY (R24). -/
  busy : Bool
  /-- STATUS.TRUNC (R24). -/
  trunc : Bool
  /-- STATUS.ERR (R24, R25); `none` is code 0. -/
  err : Option Failure
  /-- ARG (R26). -/
  arg : Word
  /-- RESULT (R27). -/
  result : Word
  /-- SRC_LEN (R28). -/
  srcLen : Word
  /-- RD_POS and RD_STATE (R29). -/
  rd : Reader
  /-- WR_LEN and WR_STATE (R30). -/
  wr : Writer
  /-- IMG_W (R31). -/
  imgW : BitVec 16
  /-- IMG_H (R31). -/
  imgH : BitVec 16
  /-- GRAPHIC_OFF (R32). -/
  graphicOff : Word
  /-- BLINK_N (R33). -/
  blinkN : Byte
  /-- TALK_N (R33). -/
  talkN : Byte
  /-- MARKER (R34). -/
  marker : BitVec 16
  /-- WARN_STAT.WARN_CNT (R35). -/
  warnCnt : BitVec 8
  /-- WARN_STAT.WARN_OVF (R35). -/
  warnOvf : Bool
  /-- The memories (R38 to R44). -/
  mem : Memories
  /-- The model's own: the host actions and resets still to come, in order (notes/assumptions/2.md). -/
  program : List HostAction
  /-- The model's own: the values host reads have returned, newest first (notes/assumptions/3.md). -/
  replies : List Word
deriving DecidableEq, Repr

/-- Why a step faults: nothing does. Every failure the spec describes is a next state with STATUS.ERR set
(60_exceptions.md R285), so no constructor stands here (notes/assumptions/10.md). -/
inductive Fault where
deriving DecidableEq, Repr

/-- Why a step is refused. Apart from `notModelled`, each is a broken host duty of
70_reset_and_hazards.md R306, for which the spec gives no transition. -/
inductive Refusal where
  /-- An instruction with no meaning yet, raised by exec's arm alone. Safe: the machine goes on, the model stops. -/
  | notModelled (mnemonic : String)
  /-- Duties 1 and 2: an access other than a read of STATUS while BUSY = 1. Raised by a host access. Safe. -/
  | hostBusy
  /-- Duty 3: an access of the wrong width or alignment for its window. Raised by a host access. Safe. -/
  | accessSize
  /-- Duty 4: an access to an unmapped offset. Raised by a host access. Safe. -/
  | unmapped
  /-- A host write of the last reply when no read has returned one: the host program has no value to send.
  Raised by a host write. Safe. -/
  | noReply
deriving DecidableEq, Repr

/-- The memories with no entry listed. -/
def Memories.empty : Memories where
  src := []
  dst := []
  pix := []
  palram := []
  palb := []
  blinkTbl := []
  talkTbl := []
  warnlog := []

/-- The state right after reset (10_state.md R49, R50; 70_reset_and_hazards.md R301), for the default
parameters: every register at the reset column of R22; no memory entry listed (DESIGN CHOICE, unsafe,
notes/assumptions/5.md); no host action waiting. -/
def State.reset : State where
  cfg := Config.default
  busy := false
  trunc := false
  err := none
  arg := 0#32
  result := 0#32
  srcLen := 0#32
  rd := { off := 0#32, buf := 0#16, cnt := 0#5 }
  wr := { len := 0#32, buf := 0#16, cnt := 0#4 }
  imgW := 0#16
  imgH := 0#16
  graphicOff := 0#32
  blinkN := 0#8
  talkN := 0#8
  marker := 0#16
  warnCnt := 0#8
  warnOvf := false
  mem := Memories.empty
  program := []
  replies := []

end Sys2Proof.Machine
end

