-- ==== Sys2Proof/Machine/Ops.lean ====
section
/-! DEFINITION. The operations every command shares: reading and writing a memory in its canonical form,
issuing and ending a command (with the one operation that a `raise` is, 60_exceptions.md R274, and the issue
that ends a failure, R286), the iteration ceiling (43_decoder.md R182), and the platform's reset. -/

namespace Sys2Proof.Machine

/-- The entry at address `a`; an unlisted address reads as `Memory.unlisted`. -/
def Memory.read {w : Nat} : Memory w → Nat → BitVec w
  | [], _ => Memory.unlisted w
  | (b, v) :: rest, a => if a = b then v else Memory.read rest a

/-- The `n` entries from address `base` on, lowest address first. -/
def Memory.readList {w : Nat} (m : Memory w) (base n : Nat) : List (BitVec w) :=
  (List.range n).map fun i => m.read (base + i)

/-- The listed entries of a block of consecutive entries from `base` on. -/
def Memory.cells {w : Nat} (base : Nat) : List (BitVec w) → Memory w
  | [] => []
  | v :: vs => if v = Memory.unlisted w then Memory.cells (base + 1) vs else (base, v) :: Memory.cells (base + 1) vs

/-- Store `vs` at the addresses `base`, `base + 1`, …, keeping the canonical form. -/
def Memory.writeList {w : Nat} (m : Memory w) (base : Nat) (vs : List (BitVec w)) : Memory w :=
  m.filter (fun c => decide (c.1 < base)) ++ Memory.cells base vs
    ++ m.filter (fun c => decide (base + vs.length ≤ c.1))

/-- Store one entry. -/
def Memory.write {w : Nat} (m : Memory w) (a : Nat) (v : BitVec w) : Memory w := m.writeList a [v]

/-- Set the first `n` entries to 0 (the clear of 43_decoder.md R181). -/
def Memory.clear {w : Nat} (m : Memory w) (n : Nat) : Memory w := m.writeList 0 (List.replicate n 0#w)

/-- The canonical form: addresses strictly rising, no entry equal to what an unlisted address reads as. -/
def Memory.wf {w : Nat} : Memory w → Bool
  | [] => true
  | (a, v) :: rest => decide (v ≠ Memory.unlisted w) && rest.all (fun c => decide (a < c.1)) && Memory.wf rest

/-- Every listed address is below `n`, the memory's capacity. -/
def Memory.within {w : Nat} (n : Nat) (m : Memory w) : Bool := m.all fun c => decide (c.1 < n)

/-- The memory of capacity `cap` whose entries from 0 on are `vs`, in canonical form. -/
def Memory.ofList {w : Nat} (cap : Nat) (vs : List (BitVec w)) : Memory w := Memory.cells 0 (vs.take cap)

/-- How the body of a command ends: the three endings of 60_exceptions.md R276. -/
inductive Ending where
  /-- Normal end. -/
  | normal
  /-- The reader was exhausted: TruncatedStream (R272). -/
  | truncated
  /-- `raise E(info)` (R274). -/
  | raised (e : Failure)
deriving DecidableEq, Repr

/-- Issue of a command: BUSY is set, TRUNC and ERR are cleared (10_state.md R24). It is also the only return
from a failure (60_exceptions.md R286). -/
def State.issue (s : State) : State := { s with busy := true, trunc := false, err := none }

/-- Completion of a command that ended normally: BUSY is cleared (R24). -/
def State.complete (s : State) : State := { s with busy := false }

/-- Completion of a command that ran out of bits: TRUNC = 1, ERR stays 0 (R272, 43_decoder.md R183). -/
def State.truncate (s : State) : State := { s with trunc := true, busy := false }

/-- `raise E(info)`: the command ends with ERR = E's code, TRUNC = 0 and BUSY = 0; all else stays as the
command left it, and nothing records `info` (60_exceptions.md R271, R274). -/
def State.raise (s : State) (e : Failure) : State := { s with trunc := false, err := some e, busy := false }

/-- The end of a command, by the way its body ended (R276). -/
def State.finish (s : State) : Ending → State
  | .normal => s.complete
  | .truncated => s.truncate
  | .raised e => s.raise e

/-- One command as one atomic step (70_reset_and_hazards.md R305): issue, body, completion
(notes/assumptions/1.md). -/
def State.run (s : State) (body : State → Ending × State) : Host.Outcome State Fault Refusal :=
  .next ((body s.issue).2.finish (body s.issue).1)

/-- A word that fails a check of 30_encoding.md R81: ILLEGAL_COMMAND, with no other effect
(60_exceptions.md R281). -/
def State.illegalCommand (s : State) : State := s.issue.raise .illegalCommand

/-- What one iteration of a decode or encode loop does: go on, or end the command. -/
inductive Turn (σ : Type) where
  | again (x : σ)
  | stop (e : Ending) (x : σ)

/-- A loop `while more x: Tick(); turn` under the iteration ceiling of 43_decoder.md R182. The first argument is
the number of Ticks that may still pass, L at the start: the Tick after the last of them raises
RUNTIME_INVARIANT_FAILURE before its iteration reads anything (60_exceptions.md R284). -/
def tickLoop {σ : Type} (more : σ → Bool) (turn : σ → Turn σ) : Nat → σ → Ending × σ
  | 0, x => if more x then (.raised .runtimeInvariantFailure, x) else (.normal, x)
  | n + 1, x =>
    if more x then
      match turn x with
      | .again y => tickLoop more turn n y
      | .stop e y => (e, y)
    else (.normal, x)

/-- The ceiling L = ITER_FACTOR · (size + 1) (43_decoder.md R182). -/
def tickLimit (c : Config) (size : Nat) : Nat := c.iterFactor * (size + 1)

/-- The memories a draw gives a block with parameters `c` (10_state.md R50): each cut at its capacity. -/
def Draw.load (d : Draw) (c : Config) : Memories where
  src := Memory.ofList c.srcCap d.src
  dst := Memory.ofList c.dstCap d.dst
  pix := Memory.ofList c.pixCap d.pix
  palram := Memory.ofList Config.palramSize d.palram
  palb := Memory.ofList Config.palbSize d.palb
  blinkTbl := Memory.ofList Config.tableSize d.blinkTbl
  talkTbl := Memory.ofList Config.tableSize d.talkTbl
  warnlog := Memory.ofList c.warnCap d.warnlog

/-- A block with parameters `c` right after reset, its memories as drawn (70_reset_and_hazards.md R301). -/
def State.afterReset (c : Config) (d : Draw) : State := { State.reset with cfg := c, mem := d.load c }

/-- The platform's reset between two steps (70_reset_and_hazards.md R300, R301): every register at its reset value,
the memories as drawn; the parameters, the outside world's plan and the values already read stay
(notes/assumptions/6.md). -/
def State.platformReset (s : State) (d : Draw) : State :=
  { State.afterReset s.cfg d with program := s.program, replies := s.replies }

end Sys2Proof.Machine
end

