-- ==== Sys2Proof/Machine/Operands.lean ====
section
/-! DEFINITION. The operand forms of 30_encoding.md R84: ARG as a byte offset, a value or a length, the count N,
and the image sizes that IMG_W and IMG_H give. No operand is sign-extended, scaled or shifted. -/

namespace Sys2Proof.Machine

/-- ARG as an unsigned value to write or length to encode (30_encoding.md R84, WR_BITS and LC_ENC). -/
def State.argValue (s : State) : Nat := s.arg.toNat

/-- ARG as an unsigned byte offset into SRC (R84, RD_START, DEC_A and DEC_B). -/
def State.argOffset (s : State) : Word := s.arg

/-- N as a zero-extended 8-bit count (R84). -/
def countOf (n : BitVec 8) : Nat := n.toNat

/-- A computed natural stored in a 32-bit register: its value mod 2^32 (00_scope.md R13). -/
def toWord (n : Nat) : Word := BitVec.ofNat 32 n

/-- Pixels of the image of IMG_W by IMG_H (42_palette.md R164). -/
def State.imageSize (s : State) : Nat := s.imgW.toNat * s.imgH.toNat

end Sys2Proof.Machine
end

