-- ==== Sys2Proof/Machine/BitCursor.lean ====
section
/-! DEFINITION. The Bit Cursor (40_bit_cursor.md): the reader primitives Refill, ReadBit, ReadBits and RdInit, the
writer primitives WrInit, WriteBit, WriteBits and Flush, and the six commands RD_START, RD_BIT, RD_BITS, WR_START,
WR_BITS and WR_FLUSH. -/

namespace Sys2Proof.Machine

/-! ## The reader -/

/-- What the reader reads from: SRC, SRC_LEN and ODD_TAIL_MODE. -/
structure Source where
  mem : Memory 8
  len : Word
  oddTail : OddTailMode
deriving DecidableEq, Repr

/-- The source of the block's reader. -/
def State.source (s : State) : Source := { mem := s.mem.src, len := s.srcLen, oddTail := s.cfg.oddTail }

/-- The result of a reader primitive: a value, or EXHAUSTED (00_scope.md R14); either way with the reader as the
primitive left it (40_bit_cursor.md R105: bits read before exhaustion stay consumed). -/
inductive Read (α : Type) where
  | got (v : α) (r : Reader)
  | exhausted (r : Reader)

/-- `x <- P() or-exhausted return EXHAUSTED` (00_scope.md R15). -/
def Read.andThen {α β : Type} (p : Read α) (f : α → Reader → Read β) : Read β :=
  match p with
  | .got v r => f v r
  | .exhausted r => .exhausted r

/-- `{SRC[a], b}` as one 16-bit word, the first byte high (R60, R102). -/
def pairWord (hi lo : Byte) : BitVec 16 := hi ++ lo

/-- Refill() (R102, R103): the next 16-bit word, or under USE a single trailing byte as 8 bits, or none. -/
def refill (q : Source) (r : Reader) : Option Reader :=
  if r.off.toNat + 2 ≤ q.len.toNat then
    some { off := r.off + 2#32,
           buf := pairWord (q.mem.read r.off.toNat) (q.mem.read (r.off.toNat + 1)),
           cnt := 16#5 }
  else if r.off.toNat + 1 = q.len.toNat ∧ q.oddTail = .use then
    some { off := r.off + 1#32, buf := pairWord (q.mem.read r.off.toNat) 0#8, cnt := 8#5 }
  else none

/-- Take the next bit of a residual buffer that holds one: bit 15 (R29, R104). -/
def Reader.shift (r : Reader) : Reader := { r with buf := r.buf <<< 1, cnt := r.cnt - 1#5 }

/-- ReadBit() (R104). -/
def readBit (q : Source) (r : Reader) : Read Bool :=
  if r.cnt = 0#5 then
    match refill q r with
    | some r' => .got r'.buf.msb r'.shift
    | none => .exhausted r
  else .got r.buf.msb r.shift

/-- ReadBits: fold `n` bits into `v`, the first bit read most significant (R105). -/
def readBitsFrom (q : Source) : Nat → Nat → Reader → Read Nat
  | 0, v, r => .got v r
  | n + 1, v, r => (readBit q r).andThen fun b r' => readBitsFrom q n (2 * v + b.toNat) r'

/-- ReadBits(n) (R105). -/
def readBits (q : Source) (n : Nat) (r : Reader) : Read Nat := readBitsFrom q n 0 r

/-- RdInit(o) (R106). -/
def Reader.init (o : Word) : Reader := { off := o, buf := 0#16, cnt := 0#5 }

/-- No more bits than this are left to read: those of RD_BUF and those of SRC from RD_OFF on. It bounds the one
reader loop that has no count of its own, LcDecode's (70_reset_and_hazards.md R309). -/
def bitsLeft (q : Source) (r : Reader) : Nat := r.cnt.toNat + 8 * (q.len.toNat - r.off.toNat)

/-! ## The writer -/

/-- What the writer primitives change: DST and the writer's registers. -/
structure Output where
  dst : Memory 8
  wr : Writer
deriving DecidableEq, Repr

/-- The output side of the block. -/
def State.output (s : State) : Output := { dst := s.mem.dst, wr := s.wr }

/-- The block with its output side replaced. -/
def State.setOutput (s : State) (o : Output) : State :=
  { s with mem := { s.mem with dst := o.dst }, wr := o.wr }

/-- The result of a writer primitive: done, or OUTPUT_OVERFLOW raised with what was written before it kept
(R108, R109; 60_exceptions.md R280). -/
inductive Write where
  | done (o : Output)
  | overflow (o : Output)
deriving DecidableEq, Repr

/-- Go on with the next writer primitive unless the last one raised. -/
def Write.andThen (p : Write) (f : Output → Write) : Write :=
  match p with
  | .done o => f o
  | .overflow o => .overflow o

/-- WrInit() (R107): DST is not cleared. -/
def Output.init (o : Output) : Output := { o with wr := { len := 0#32, buf := 0#16, cnt := 0#4 } }

/-- Store a completed 16-bit word at WR_LEN, high byte first, or raise OUTPUT_OVERFLOW with WR_* unchanged
(R60, R108, R110). -/
def Output.emit (cap : Nat) (o : Output) (word : BitVec 16) : Write :=
  if cap < o.wr.len.toNat + 2 then .overflow o
  else .done { dst := o.dst.writeList o.wr.len.toNat [word.extractLsb' 8 8, word.extractLsb' 0 8],
               wr := { len := o.wr.len + 2#32, buf := 0#16, cnt := 0#4 } }

/-- WR_BUF with one more bit at the right (R108). -/
def Writer.append (o : Writer) (b : Bool) : BitVec 16 := (o.buf <<< 1) ||| (BitVec.ofBool b).zeroExtend 16

/-- WriteBit(b) (R108). -/
def writeBit (cap : Nat) (b : Bool) (o : Output) : Write :=
  if o.wr.cnt = 15#4 then o.emit cap (o.wr.append b)
  else .done { o with wr := { o.wr with buf := o.wr.append b, cnt := o.wr.cnt + 1#4 } }

/-- WriteBits(v, n) (R109): the n low bits of v, most significant first. -/
def writeBits (cap v : Nat) : Nat → Output → Write
  | 0, o => .done o
  | n + 1, o => (writeBit cap (v.testBit n) o).andThen (writeBits cap v n)

/-- Flush() (R110). -/
def flush (cap : Nat) (o : Output) : Write :=
  if o.wr.cnt = 0#4 then .done o else o.emit cap (o.wr.buf <<< (16 - o.wr.cnt.toNat))

/-! ## The commands -/

/-- The end of a command that returns one value of a reader in RESULT: the value, or 0 with TRUNC
(R112, R113; 41_length_code.md R137). -/
def State.endRead (s : State) : Read Nat → Ending × State
  | .got v r => (.normal, { s with rd := r, result := toWord v })
  | .exhausted r => (.truncated, { s with rd := r, result := 0#32 })

/-- The end of a command whose last effect is a writer primitive. -/
def State.endWrite (s : State) : Write → Ending × State
  | .done o => (.normal, s.setOutput o)
  | .overflow o => (.raised .outputOverflow, s.setOutput o)

/-- RD_START (R111). -/
def execRdStart (s : State) : Host.Outcome State Fault Refusal :=
  s.run fun s => (.normal, { s with rd := Reader.init s.argOffset })

/-- RD_BIT (R112). -/
def execRdBit (s : State) : Host.Outcome State Fault Refusal :=
  s.run fun s => s.endRead ((readBit s.source s.rd).andThen fun b r => .got b.toNat r)

/-- RD_BITS n (R113); n > 32 is ILLEGAL_COMMAND (30_encoding.md R81). -/
def execRdBits (n : BitVec 8) (s : State) : Host.Outcome State Fault Refusal :=
  s.run fun s =>
    if 32 < countOf n then (.raised .illegalCommand, s)
    else s.endRead (readBits s.source (countOf n) s.rd)

/-- WR_START (R114). -/
def execWrStart (s : State) : Host.Outcome State Fault Refusal :=
  s.run fun s => (.normal, s.setOutput s.output.init)

/-- WR_BITS n (R115); n > 32 is ILLEGAL_COMMAND (30_encoding.md R81). -/
def execWrBits (n : BitVec 8) (s : State) : Host.Outcome State Fault Refusal :=
  s.run fun s =>
    if 32 < countOf n then (.raised .illegalCommand, s)
    else s.endWrite (writeBits s.cfg.dstCap s.argValue (countOf n) s.output)

/-- WR_FLUSH (R116). -/
def execWrFlush (s : State) : Host.Outcome State Fault Refusal :=
  s.run fun s => s.endWrite (flush s.cfg.dstCap s.output)

end Sys2Proof.Machine
end

