-- ==== Sys2Proof/Machine/Flags.lean ====
section
/-! DEFINITION. The packed registers of 10_state.md R22: STATUS with its ERR codes (R24, R25), RD_STATE (R29),
WR_STATE (R30), WARN_STAT (R35), PARAM (R36) and the WARNLOG entry (R44). Reserved bits read 0 (R37). -/

namespace Sys2Proof.Machine

/-- The code of a hard failure (10_state.md R25). -/
def Failure.code : Failure → BitVec 4
  | .formatViolation => 1#4
  | .runtimeInvariantFailure => 2#4
  | .containerTruncated => 3#4
  | .illegalCommand => 4#4
  | .outputOverflow => 5#4
  | .capacityExceeded => 6#4

/-- STATUS.ERR: 0 when there was no hard failure (R25). -/
def State.errCode (s : State) : BitVec 4 :=
  match s.err with
  | none => 0#4
  | some e => e.code

/-- STATUS: BUSY in bit 0, TRUNC in bit 1, ERR in bits 7:4 (R24). -/
def State.statusWord (s : State) : Word :=
  0#24 ++ s.errCode ++ 0#2 ++ BitVec.ofBool s.trunc ++ BitVec.ofBool s.busy

/-- RD_STATE: RD_BUF in bits 15:0, RD_CNT in bits 20:16 (R22, R29). -/
def Reader.stateWord (r : Reader) : Word := 0#11 ++ r.cnt ++ r.buf

/-- WR_STATE: WR_BUF in bits 15:0, WR_CNT in bits 19:16 (R22, R30). -/
def Writer.stateWord (o : Writer) : Word := 0#12 ++ o.cnt ++ o.buf

/-- WARN_STAT: WARN_CNT in bits 7:0, WARN_OVF in bit 8 (R35). -/
def State.warnStatWord (s : State) : Word := 0#23 ++ BitVec.ofBool s.warnOvf ++ s.warnCnt

/-- Bit 0 of PARAM (R22). -/
def oddTailBit : OddTailMode → BitVec 1
  | .drop => 0#1
  | .use => 1#1

/-- Bit 1 of PARAM (R22). -/
def palBEncBit : PalBEncMode → BitVec 1
  | .round => 0#1
  | .top3 => 1#1

/-- PARAM: ODD_TAIL_MODE, PAL_B_ENC_MODE, ITER_FACTOR mod 256 in bits 15:8, WARN_CAP in bits 23:16 (R22, R36). -/
def paramWord (c : Config) : Word :=
  0#8 ++ BitVec.ofNat 8 c.warnCap ++ BitVec.ofNat 8 c.iterFactor ++ 0#6 ++ palBEncBit c.palBEnc ++ oddTailBit c.oddTail

/-- A WARNLOG entry: the code in bits 31:24, the offset mod 2^24 in bits 23:0 (R44). -/
def warnEntry (code : BitVec 8) (off : Nat) : Word := code ++ BitVec.ofNat 24 off

end Sys2Proof.Machine
end

