-- ==== Sys2Proof/Machine/Palette.lean ====
section
/-! DEFINITION. The Palette Codec (42_palette.md): the pure functions DecA, DecB, EncA, EncB, LevelB and Color, and the
commands PAL_DEC_A, PAL_DEC_B, PAL_ENC_A, PAL_ENC_B and RENDER. -/

namespace Sys2Proof.Machine

/-- A PALRAM entry from its four channels (10_state.md R41). -/
def rgba (r g b a : Byte) : Word := r ++ g ++ b ++ a

/-- Channel R of a PALRAM entry, bits 31:24 (R41). -/
def redOf (e : Word) : Byte := e.extractLsb' 24 8

/-- Channel G, bits 23:16 (R41). -/
def greenOf (e : Word) : Byte := e.extractLsb' 16 8

/-- Channel B, bits 15:8 (R41). -/
def blueOf (e : Word) : Byte := e.extractLsb' 8 8

/-- Channel A, bits 7:0 (R41). -/
def alphaOf (e : Word) : Byte := e.extractLsb' 0 8

/-- Alpha on decode: 0 for entry 0, 255 for every other (R153). -/
def alphaOfEntry (i : Nat) : Byte := if i = 0 then 0x00#8 else 0xFF#8

/-- A 4-bit channel scaled by 255/15 = 17 (R150). -/
def levelA (n : BitVec 4) : Byte := BitVec.ofNat 8 (17 * n.toNat)

/-- DecA(b0, b1, i) (R150). -/
def decodeEntryA (b0 b1 : Byte) (i : Nat) : Word :=
  rgba (levelA (b1.extractLsb' 0 4)) (levelA (b1.extractLsb' 4 4)) (levelA (b0.extractLsb' 0 4)) (alphaOfEntry i)

/-- LevelB(f) = (255·f + 3) div 7 (R152). -/
def levelB (f : BitVec 3) : Byte := BitVec.ofNat 8 ((255 * f.toNat + 3) / 7)

/-- DecB(b0, b1, i), with the field positions of R151 (R152). -/
def decodeEntryB (b0 b1 : Byte) (i : Nat) : Word :=
  let w : BitVec 16 := b0 ++ b1
  rgba (levelB (w.extractLsb' 1 3)) (levelB (w.extractLsb' 5 3)) (levelB (w.extractLsb' 9 3)) (alphaOfEntry i)

/-- Nib(c8) = (c8 + 8) div 17 (R154). -/
def nibA (c : Byte) : BitVec 4 := BitVec.ofNat 4 ((c.toNat + 8) / 17)

/-- EncA(entry): the two bytes, first byte first; alpha is ignored (R154, R156). -/
def encodeEntryA (e : Word) : List Byte := [0#4 ++ nibA (blueOf e), nibA (greenOf e) ++ nibA (redOf e)]

/-- Q(c8) (R155). -/
def quantB (mode : PalBEncMode) (c : Byte) : BitVec 3 :=
  match mode with
  | .round => BitVec.ofNat 3 ((7 * c.toNat + 127) / 255)
  | .top3 => c.extractLsb' 5 3

/-- The convention B word of an entry: fields at W[11:9], W[7:5], W[3:1], every other bit 0 (R151, R155). -/
def wordB (mode : PalBEncMode) (e : Word) : BitVec 16 :=
  0#4 ++ quantB mode (blueOf e) ++ 0#1 ++ quantB mode (greenOf e) ++ 0#1 ++ quantB mode (redOf e) ++ 0#1

/-- EncB(entry): the two bytes of the word, high byte first (R155). -/
def encodeEntryB (mode : PalBEncMode) (e : Word) : List Byte :=
  [(wordB mode e).extractLsb' 8 8, (wordB mode e).extractLsb' 0 8]

/-- Decode all of PALB into PALRAM with one convention (R159, R160). -/
def State.decodePalette (s : State) (dec : Byte → Byte → Nat → Word) : State :=
  { s with mem := { s.mem with palram := s.mem.palram.writeList 0 ((List.range Config.palramSize).map fun i =>
      dec (s.mem.palb.read (2 * i)) (s.mem.palb.read (2 * i + 1)) i) } }

/-- Encode all of PALRAM into PALB with one convention (R161, R162). -/
def State.encodePalette (s : State) (enc : Word → List Byte) : State :=
  { s with mem := { s.mem with palb := s.mem.palb.writeList 0 ((List.range Config.palramSize).flatMap fun i =>
      enc (s.mem.palram.read i)) } }

/-- PAL_DEC_A (R159). -/
def execPalDecA (s : State) : Host.Outcome State Fault Refusal :=
  s.run fun s => (.normal, s.decodePalette decodeEntryA)

/-- PAL_DEC_B (R160). -/
def execPalDecB (s : State) : Host.Outcome State Fault Refusal :=
  s.run fun s => (.normal, s.decodePalette decodeEntryB)

/-- PAL_ENC_A (R161). -/
def execPalEncA (s : State) : Host.Outcome State Fault Refusal :=
  s.run fun s => (.normal, s.encodePalette encodeEntryA)

/-- PAL_ENC_B (R162). -/
def execPalEncB (s : State) : Host.Outcome State Fault Refusal :=
  s.run fun s => (.normal, s.encodePalette (encodeEntryB s.cfg.palBEnc))

/-- Color(p): index 0 keeps PALRAM[0]'s colour with alpha 0 (R163). -/
def State.color (s : State) (p : Pixel) : Word :=
  if p = 0#4 then
    rgba (redOf (s.mem.palram.read 0)) (greenOf (s.mem.palram.read 0)) (blueOf (s.mem.palram.read 0)) 0x00#8
  else s.mem.palram.read p.toNat

/-- The four bytes RENDER writes for one pixel, in the order R, G, B, A (R164). -/
def channels (e : Word) : List Byte := [redOf e, greenOf e, blueOf e, alphaOf e]

/-- The bytes of the RGBA image of `size` pixels (R164). -/
def State.renderBytes (s : State) (size : Nat) : List Byte :=
  (List.range size).flatMap fun i => channels (s.color (s.mem.pix.read i))

/-- The writer after a command that wrote `len` whole bytes from DST offset 0 (R164; 45_container.md R256). -/
def Writer.whole (len : Nat) : Writer := { len := BitVec.ofNat 32 len, buf := 0#16, cnt := 0#4 }

/-- RENDER (R164): both checks come before any write. -/
def execRender (s : State) : Host.Outcome State Fault Refusal :=
  s.run fun s =>
    let size := s.imageSize
    if s.cfg.pixCap < size then (.raised .capacityExceeded, s)
    else if s.cfg.dstCap < 4 * size then (.raised .outputOverflow, s)
    else
      (.normal, { s with mem := { s.mem with dst := s.mem.dst.writeList 0 (s.renderBytes size) },
                         wr := Writer.whole (4 * size), result := toWord (4 * size) })

end Sys2Proof.Machine
end

