-- ==== Sys2Proof/Machine/Container.lean ====
section
/-! DEFINITION. The container parser and serializer (45_container.md): Warn, ParseTable, PARSE and SERIALIZE. -/

namespace Sys2Proof.Machine

/-! ## Warnings -/

/-- The warning codes of R242. -/
inductive Warning where
  /-- Code 1: the blink block's first byte is not 0x00. -/
  | blinkMarker
  /-- Code 2: fewer record bytes than the blink header declares. -/
  | blinkShort
  /-- Code 3: the talk block's first byte is not 0x00. -/
  | talkMarker
  /-- Code 4: fewer record bytes than the talk header declares. -/
  | talkShort
  /-- Code 5: fewer than 32 bytes at the palette's offset. -/
  | paletteShort
  /-- Code 6: fewer than 2 bytes at graphicOffset. -/
  | markerShort
  /-- Code 7: both marker bytes present and not 08 08. -/
  | markerMismatch
deriving DecidableEq, Repr

/-- The code of a warning (R242). -/
def Warning.code : Warning → BitVec 8
  | .blinkMarker => 1#8
  | .blinkShort => 2#8
  | .talkMarker => 3#8
  | .talkShort => 4#8
  | .paletteShort => 5#8
  | .markerShort => 6#8
  | .markerMismatch => 7#8

/-- Warn(code, off) (R241): append to WARNLOG, or set WARN_OVF when it is full. -/
def State.warn (s : State) (c : Warning) (off : Nat) : State :=
  if s.warnCnt.toNat < s.cfg.warnCap then
    { s with mem := { s.mem with warnlog := s.mem.warnlog.write s.warnCnt.toNat (warnEntry c.code off) },
             warnCnt := s.warnCnt + 1#8 }
  else { s with warnOvf := true }

/-- Warn only if the condition holds. -/
def State.warnIf (s : State) (p : Bool) (c : Warning) (off : Nat) : State := if p then s.warn c off else s

/-! ## PARSE -/

/-- Bytes of SRC at and above `off`: `SRC_LEN − off`, or 0 past the end (R249, R250). -/
def State.srcRest (s : State) (off : Nat) : Nat := s.srcLen.toNat - off

/-- Which frame table a block is stored in (R243). -/
inductive FrameTable where
  | blink
  | talk
deriving DecidableEq, Repr

/-- The frame table's memory with `bs` stored from byte 0, and its count register set to `n` (R245). -/
def State.setTable (s : State) (t : FrameTable) (bs : List Byte) (n : Nat) : State :=
  match t with
  | .blink => { s with mem := { s.mem with blinkTbl := s.mem.blinkTbl.writeList 0 bs }, blinkN := BitVec.ofNat 8 n }
  | .talk => { s with mem := { s.mem with talkTbl := s.mem.talkTbl.writeList 0 bs }, talkN := BitVec.ofNat 8 n }

/-- The warning for a first byte other than 0x00 (R242). -/
def FrameTable.markerWarning : FrameTable → Warning
  | .blink => .blinkMarker
  | .talk => .talkMarker

/-- The warning for missing records (R242). -/
def FrameTable.shortWarning : FrameTable → Warning
  | .blink => .blinkShort
  | .talk => .talkShort

/-- The count byte of the frame block at `off` (R244). -/
def State.declared (s : State) (off : Nat) : Nat := (s.mem.src.read (off + 1)).toNat

/-- The whole records present of the frame block at `off`: `min(n, (SRC_LEN − off − 2) div 4)` (R245). -/
def State.stored (s : State) (off : Nat) : Nat := min (s.declared off) ((s.srcLen.toNat - off - 2) / 4)

/-- ParseTable at `off`, with at least two bytes there, and the count register (R243 to R246). -/
def State.parseTable (s : State) (t : FrameTable) (off : Nat) : State :=
  let n := s.declared off
  let m := s.stored off
  let s := s.warnIf (decide (s.mem.src.read off ≠ 0#8)) t.markerWarning off
  let s := s.setTable t (s.mem.src.readList (off + 2) (4 * m)) m
  s.warnIf (decide (m < n)) t.shortWarning off

/-- The next block's offset, by the declared count (R247). -/
def State.nextBlock (s : State) (off : Nat) : Nat := off + 2 + 4 * s.declared off

/-- The palette at `off`: the bytes present, then 0x00 (R249). -/
def State.parsePalette (s : State) (off : Nat) : State :=
  let a := min Config.palbSize (s.srcRest off)
  let bytes := s.mem.src.readList off a ++ List.replicate (Config.palbSize - a) 0#8
  let s := { s with mem := { s.mem with palb := s.mem.palb.writeList 0 bytes } }
  s.warnIf (decide (a < Config.palbSize)) .paletteShort off

/-- The marker bytes at `off`, a missing byte reading as 0x00, first byte high (R250). -/
def State.markerAt (s : State) (off : Nat) : BitVec 16 :=
  (if 1 ≤ s.srcRest off then s.mem.src.read off else 0x00#8) ++
  (if 2 ≤ s.srcRest off then s.mem.src.read (off + 1) else 0x00#8)

/-- GRAPHIC_OFF, MARKER and the marker's warning (R248, R250). -/
def State.parseMarker (s : State) (off : Nat) : State :=
  let s := { s with graphicOff := toWord off, marker := s.markerAt off }
  if s.srcRest off < 2 then s.warn .markerShort off
  else s.warnIf (decide (s.marker ≠ 0x0808#16)) .markerMismatch off

/-- A frame block's header is present: at least two bytes at `off` (R251). -/
def State.headerAt (s : State) (off : Nat) : Bool := decide (off + 2 ≤ s.srcLen.toNat)

/-- PARSE begins by clearing WARN_STAT (R243); WARNLOG itself is not cleared (R241). -/
def State.clearWarnings (s : State) : State := { s with warnCnt := 0#8, warnOvf := false }

/-- PARSE from the talk block at `talk` on, its header present: the block, the palette, the marker and RESULT (R243). -/
def State.parseRest (s : State) (talk : Nat) : State :=
  let pal := s.nextBlock talk
  { ((s.parseTable .talk talk).parsePalette pal).parseMarker (pal + Config.palbSize) with
    result := toWord (pal + Config.palbSize) }

/-- The body of PARSE (R243). -/
def State.parseBody (s : State) : Ending × State :=
  let s := s.clearWarnings
  if s.headerAt 0 then
    let talk := s.nextBlock 0
    let s := s.parseTable .blink 0
    if s.headerAt talk then (.normal, s.parseRest talk) else (.raised .containerTruncated, s)
  else (.raised .containerTruncated, s)

/-- PARSE (R243). -/
def execParse (s : State) : Host.Outcome State Fault Refusal := s.run State.parseBody

/-! ## SERIALIZE -/

/-- A rebuilt frame block: marker byte 0x00, the count, then the records (R255, R256). -/
def frameBlock (n : Byte) (tbl : Memory 8) : List Byte := 0x00#8 :: n :: tbl.readList 0 (4 * n.toNat)

/-- The new graphicOffset (R256). -/
def State.newGraphicOff (s : State) : Nat := (2 + 4 * s.blinkN.toNat) + (2 + 4 * s.talkN.toNat) + 32

/-- The trailing length: the bytes of SRC from GRAPHIC_OFF on (R256). -/
def State.trailing (s : State) : Nat := s.srcLen.toNat - s.graphicOff.toNat

/-- The bytes of the rebuilt container (R256). -/
def State.containerBytes (s : State) : List Byte :=
  frameBlock s.blinkN s.mem.blinkTbl ++ frameBlock s.talkN s.mem.talkTbl
    ++ s.mem.palb.readList 0 Config.palbSize ++ s.mem.src.readList s.graphicOff.toNat s.trailing

/-- SERIALIZE (R256): the length is checked before any write. -/
def execSerialize (s : State) : Host.Outcome State Fault Refusal :=
  s.run fun s =>
    let total := s.newGraphicOff + s.trailing
    if s.cfg.dstCap < total then (.raised .outputOverflow, s)
    else
      (.normal, { s with mem := { s.mem with dst := s.mem.dst.writeList 0 s.containerBytes },
                         wr := Writer.whole total, result := toWord s.newGraphicOff })

end Sys2Proof.Machine
end

