-- ==== Sys2Proof/Machine/LengthCode.lean ====
section
/-! DEFINITION. The Length Code (41_length_code.md): LcDecode, LcDecodeSat, LcK and LcEncode, and the commands LC_DEC
and LC_ENC. -/

namespace Sys2Proof.Machine

/-- The unary part of a symbol: count zero bits up to the terminating one bit (R131). The first argument bounds the
bits that can still be read; one more than `bitsLeft` never runs out before the reader does
(notes/assumptions/14.md). -/
def countZeros (q : Source) : Nat → Nat → Reader → Read Nat
  | 0, _, r => .exhausted r
  | m + 1, k, r => (readBit q r).andThen fun b r' => if b then .got k r' else countZeros q m (k + 1) r'

/-- LcDecode() (R131). -/
def lcDecode (q : Source) (r : Reader) : Read Nat :=
  (countZeros q (bitsLeft q r + 1) 0 r).andThen fun k r' =>
    (readBits q (k + 1) r').andThen fun v r'' => .got (2 ^ (k + 1) - 2 + v) r''

/-- LcDecodeSat() (R133): the same bits, the value saturated to 2^32 − 1. -/
def lcDecodeSat (q : Source) (r : Reader) : Read Nat :=
  (lcDecode q r).andThen fun v r' => .got (min v (2 ^ 32 - 1)) r'

/-- The loop of LcK (R134), from `k` on. `m` bounds its steps; `R` steps always suffice. -/
def lcKFrom (len : Nat) : Nat → Nat → Nat
  | 0, k => k
  | m + 1, k => if len < 2 ^ (k + 2) - 2 then k else lcKFrom len m (k + 1)

/-- LcK(R): the smallest k with R < 2^(k+2) − 2 (R134). -/
def lcK (len : Nat) : Nat := lcKFrom len len 0

/-- LcEncode(R) (R135). -/
def lcEncode (cap len : Nat) (o : Output) : Write :=
  (writeBits cap 0 (lcK len) o).andThen fun o =>
    (writeBit cap true o).andThen fun o => writeBits cap (len - (2 ^ (lcK len + 1) - 2)) (lcK len + 1) o

/-- LC_DEC (R137). -/
def execLcDec (s : State) : Host.Outcome State Fault Refusal :=
  s.run fun s => s.endRead (lcDecodeSat s.source s.rd)

/-- LC_ENC (R138). -/
def execLcEnc (s : State) : Host.Outcome State Fault Refusal :=
  s.run fun s => s.endWrite (lcEncode s.cfg.dstCap s.argValue s.output)

end Sys2Proof.Machine
end

