-- ==== Sys2Proof/Machine/Decoder.lean ====
section
/-! DEFINITION. The image decoder (43_decoder.md): Variant A (DEC_A) and Variant B (DEC_B). Both run their main loop
under `tickLoop`, the iteration ceiling of R182. -/

namespace Sys2Proof.Machine

/-- What a decode loop changes: the reader and PIX. -/
structure Canvas where
  rd : Reader
  pix : Memory 4
deriving DecidableEq, Repr

/-- Store(p, v) into an image of `size` pixels: a store outside `[0, size)` is dropped (R181). -/
def storePixel (size : Nat) (p : Int) (v : Pixel) (m : Memory 4) : Memory 4 :=
  if 0 ≤ p ∧ p < (size : Int) then m.write p.toNat v else m

/-- A pixel value read as a 4-bit field (R189, R198). -/
def toPixel (v : Nat) : Pixel := BitVec.ofNat 4 v

/-- The block after a decode loop: its reader and PIX. -/
def State.setCanvas (s : State) (c : Canvas) : State := { s with rd := c.rd, mem := { s.mem with pix := c.pix } }

/-! ## Variant A -/

/-- What ReadSel reads (R191): a copy-down with its horizontal offset, or the stop pattern. -/
inductive Sel where
  | down (d : Int)
  | stop
deriving DecidableEq, Repr

/-- ReadSel() (R184, R191). -/
def readSel (q : Source) (r : Reader) : Read Sel :=
  (readBit q r).andThen fun b r =>
  if b then .got (.down 0) r
  else (readBit q r).andThen fun b r =>
  if b then .got (.down (-1)) r
  else (readBit q r).andThen fun b r =>
  if b then .got (.down 1) r
  else (readBit q r).andThen fun b r =>
  if b then (readBit q r).andThen fun b r => if b then .got (.down (-2)) r else .got (.down 2) r
  else .got .stop r

/-- Where the next iteration of DEC_A starts: at a position jump, or in the prediction sub-loop with its cursor
`pos2` (R187, R190). -/
inductive PhaseA where
  | jump
  | predict (pos2 : Int)
deriving DecidableEq, Repr

/-- The loop state of DEC_A (R184). -/
structure LoopA where
  phase : PhaseA
  pos : Int
  last : Pixel
  canvas : Canvas
deriving DecidableEq, Repr

/-- The condition each iteration is entered under: `pos < size` for the main loop; the sub-loop has none, it ends by
its stop pattern (R188, R193). -/
def LoopA.more (size : Nat) (x : LoopA) : Bool :=
  match x.phase with
  | .jump => decide (x.pos < (size : Int))
  | .predict _ => true

/-- The end of an iteration whose reader was exhausted (R183): the reader is kept as exhaustion left it. -/
def LoopA.truncated (x : LoopA) (r : Reader) : Turn LoopA :=
  .stop .truncated { x with canvas := { x.canvas with rd := r } }

/-- A jump with its stop check, pixel and prediction flag (R187 to R190). -/
def LoopA.jumpTurn (q : Source) (size : Nat) (x : LoopA) : Turn LoopA :=
  match lcDecodeSat q x.canvas.rd with
  | .exhausted r => x.truncated r
  | .got jump r =>
    let pos := x.pos + (jump : Int)
    if (size : Int) ≤ pos then .stop .normal { x with pos := pos, canvas := { x.canvas with rd := r } }
    else
      match readBits q 4 r with
      | .exhausted r => x.truncated r
      | .got v r =>
        let pix := storePixel size pos (toPixel v) x.canvas.pix
        match readBit q r with
        | .exhausted r => .stop .truncated { x with canvas := { rd := r, pix := pix } }
        | .got f r =>
          .again { phase := if f then .predict pos else .jump, pos := pos, last := toPixel v,
                   canvas := { rd := r, pix := pix } }

/-- One pass of the prediction sub-loop (R191 to R193). -/
def LoopA.predictTurn (q : Source) (width size : Nat) (pos2 : Int) (x : LoopA) : Turn LoopA :=
  match readSel q x.canvas.rd with
  | .exhausted r => x.truncated r
  | .got .stop r => .again { x with phase := .jump, canvas := { x.canvas with rd := r } }
  | .got (.down d) r =>
    let pos2 := pos2 + (width : Int) + d
    .again { x with phase := .predict pos2, canvas := { rd := r, pix := storePixel size pos2 x.last x.canvas.pix } }

/-- One iteration of DEC_A's main loop or sub-loop: each costs one Tick (R182). -/
def LoopA.turn (q : Source) (width size : Nat) (x : LoopA) : Turn LoopA :=
  match x.phase with
  | .jump => x.jumpTurn q size
  | .predict pos2 => x.predictTurn q width size pos2

/-- The body of a Variant A decode, from the position before the first jump (R184, R187). -/
def decodeBodyA (q : Source) (limit width size : Nat) (c : Canvas) : Ending × Canvas :=
  let out := tickLoop (LoopA.more size) (LoopA.turn q width size) limit
    { phase := .jump, pos := -1, last := 0#4, canvas := c }
  (out.1, out.2.canvas)

/-- The dimension header: two 8-bit units (R185). -/
def readHeader (q : Source) (r : Reader) : Read (Nat × Nat) :=
  (readBits q 8 r).andThen fun wu r => (readBits q 8 r).andThen fun hu r => .got (wu, hu) r

/-- DEC_A (R184): header, capacity check, clear, main loop. -/
def execDecA (s : State) : Host.Outcome State Fault Refusal :=
  s.run fun s =>
    match readHeader s.source (Reader.init s.argOffset) with
    | .exhausted r => (.truncated, { s with rd := r, imgW := 0#16, imgH := 0#16 })
    | .got (wu, hu) r =>
      let width := 8 * wu
      let height := 8 * hu
      let size := width * height
      if s.cfg.pixCap < size then (.raised .capacityExceeded, { s with rd := r })
      else
        let out := decodeBodyA s.source (tickLimit s.cfg size) width size { rd := r, pix := s.mem.pix.clear size }
        (out.1, { s.setCanvas out.2 with imgW := BitVec.ofNat 16 width, imgH := BitVec.ofNat 16 height })

/-! ## Variant B -/

/-- The copy-down code after a flag of 1: the offset to the left, 0 for none; offset 2 is followed by one padding bit
whose value is ignored (R199). -/
def readCopyDown (q : Source) (r : Reader) : Read Nat :=
  (readBit q r).andThen fun a r =>
  if a then .got 1 r
  else (readBit q r).andThen fun c r =>
  if c then (readBit q r).andThen fun _ r => .got 2 r
  else .got 0 r

/-- The copy-down write of DEC_B: `last` at `pos + 64 − off`, dropped at 4096 and above (R199). -/
def copyDownLeft (pos off : Nat) (last : Pixel) (m : Memory 4) : Memory 4 :=
  if off ≠ 0 ∧ pos + Config.imgSide - off < Config.imgSize then m.write (pos + Config.imgSide - off) last else m

/-- The replicate loop: `last` at `pos + 1` to `pos + R − 1`, those below 4096 (R201). -/
def replicateRun (pos len : Nat) (last : Pixel) (m : Memory 4) : Memory 4 :=
  m.writeList (pos + 1) (List.replicate (min (len - 1) (Config.imgSize - (pos + 1))) last)

/-- The loop state of DEC_B (R195). -/
structure LoopB where
  pos : Nat
  canvas : Canvas
deriving DecidableEq, Repr

/-- `while pos < 4096` (R202). -/
def LoopB.more (x : LoopB) : Bool := decide (x.pos < Config.imgSize)

/-- After the flag: with flag 1, the copy-down and the sentinel, whose value is ignored (R199, R200); with 0, nothing. -/
def flagPart (q : Source) (pos : Nat) (last : Pixel) (f : Bool) (c : Canvas) : Ending × Canvas :=
  if f then
    match readCopyDown q c.rd with
    | .exhausted r => (.truncated, { c with rd := r })
    | .got off r =>
      let pix := copyDownLeft pos off last c.pix
      match readBits q 3 r with
      | .exhausted r => (.truncated, { rd := r, pix := pix })
      | .got _ r => (.normal, { rd := r, pix := pix })
  else (.normal, c)

/-- The repeat count, the replicate loop and the advance (R201, R202). -/
def runPart (q : Source) (pos : Nat) (last : Pixel) (c : Canvas) : Turn LoopB :=
  match lcDecodeSat q c.rd with
  | .exhausted r => .stop .truncated { pos := pos, canvas := { c with rd := r } }
  | .got len r => .again { pos := pos + len, canvas := { rd := r, pix := replicateRun pos len last c.pix } }

/-- One iteration of DEC_B (R195, R198 to R202). -/
def LoopB.turn (q : Source) (x : LoopB) : Turn LoopB :=
  match readBits q 4 x.canvas.rd with
  | .exhausted r => .stop .truncated { x with canvas := { x.canvas with rd := r } }
  | .got v r =>
    let last := toPixel v
    let pix := x.canvas.pix.write x.pos last
    match readBit q r with
    | .exhausted r => .stop .truncated { x with canvas := { rd := r, pix := pix } }
    | .got f r =>
      match flagPart q x.pos last f { rd := r, pix := pix } with
      | (.normal, c) => runPart q x.pos last c
      | (e, c) => .stop e { x with canvas := c }

/-- The body of a Variant B decode: the two discard bits, then the runs (R195, R197). -/
def decodeBodyB (q : Source) (limit : Nat) (c : Canvas) : Ending × Canvas :=
  match readBits q 2 c.rd with
  | .exhausted r => (.truncated, { c with rd := r })
  | .got _ r =>
    let out := tickLoop LoopB.more (LoopB.turn q) limit { pos := 0, canvas := { c with rd := r } }
    (out.1, out.2.canvas)

/-- DEC_B (R195, R196). -/
def execDecB (s : State) : Host.Outcome State Fault Refusal :=
  s.run fun s =>
    let out := decodeBodyB s.source (tickLimit s.cfg Config.imgSize)
      { rd := Reader.init s.argOffset, pix := s.mem.pix.clear Config.imgSize }
    (out.1, { s.setCanvas out.2 with imgW := BitVec.ofNat 16 Config.imgSide, imgH := BitVec.ofNat 16 Config.imgSide })

end Sys2Proof.Machine
end

