-- ==== Sys2Proof/Machine/Encoder.lean ====
section
/-! DEFINITION. The image encoder (44_encoder.md): ENC_B, under the iteration ceiling of 43_decoder.md R182. -/

namespace Sys2Proof.Machine

/-- The scan of R222, R223: how far a run that is already `run` long goes on, looking at `m` more pixels at most. -/
def runFrom (pix : Memory 4) (pos : Nat) (c : Pixel) : Nat → Nat → Nat
  | 0, run => run
  | m + 1, run => if pix.read (pos + run) = c then runFrom pix pos c m (run + 1) else run

/-- The length of the maximal run of pixels equal to `PIX[pos]` that starts at `pos`, up to the end of the image
(R223). -/
def runLength (pix : Memory 4) (pos : Nat) : Nat :=
  runFrom pix pos (pix.read pos) (Config.imgSize - (pos + 1)) 1

/-- The copy-down probe (R224). -/
def probe (pix : Memory 4) (pos : Nat) : Bool :=
  decide (pix.read pos ≠ 0#4 ∧ pos + 63 < Config.imgSize ∧ pix.read (pos + 63) = pix.read pos
    ∧ pix.read (pos + 62) ≠ pix.read pos)

/-- The loop state of ENC_B (R222). -/
structure LoopEnc where
  pos : Nat
  out : Output
deriving DecidableEq, Repr

/-- `while pos < 4096` (R222). -/
def LoopEnc.more (x : LoopEnc) : Bool := decide (x.pos < Config.imgSize)

/-- The flag with its copy-down marker, or a flag of 0 (R224, R225). -/
def writeFlag (cap : Nat) (marked : Bool) (o : Output) : Write :=
  if marked then
    (writeBit cap true o).andThen fun o => (writeBit cap true o).andThen fun o => writeBits cap 0 3 o
  else writeBit cap false o

/-- One run: the pixel, the flag, the repeat count (R222). -/
def writeRun (cap : Nat) (pix : Memory 4) (pos : Nat) (o : Output) : Write :=
  (writeBits cap (pix.read pos).toNat 4 o).andThen fun o =>
    (writeFlag cap (probe pix pos) o).andThen fun o => lcEncode cap (runLength pix pos) o

/-- One iteration of ENC_B (R222). -/
def LoopEnc.turn (cap : Nat) (pix : Memory 4) (x : LoopEnc) : Turn LoopEnc :=
  match writeRun cap pix x.pos x.out with
  | .overflow o => .stop (.raised .outputOverflow) { x with out := o }
  | .done o => .again { pos := x.pos + runLength pix x.pos, out := o }

/-- The two discard bits and the runs (R222, R224), from a fresh output. -/
def encodeBody (cap limit : Nat) (pix : Memory 4) (o : Output) : Ending × Output :=
  match writeBits cap 0 2 o with
  | .overflow o => (.raised .outputOverflow, o)
  | .done o =>
    let out := tickLoop LoopEnc.more (LoopEnc.turn cap pix) limit { pos := 0, out := o }
    (out.1, out.2.out)

/-- The final Flush and the byte count in RESULT (R226), after a body that ended normally. -/
def State.endEncode (s : State) : Ending × Output → Ending × State
  | (.normal, o) =>
    match flush s.cfg.dstCap o with
    | .overflow o => (.raised .outputOverflow, s.setOutput o)
    | .done o => (.normal, { s.setOutput o with result := o.wr.len })
  | (e, o) => (e, s.setOutput o)

/-- ENC_B (R221, R222). -/
def execEncB (s : State) : Host.Outcome State Fault Refusal :=
  s.run fun s =>
    if s.imgW.toNat ≠ Config.imgSide ∨ s.imgH.toNat ≠ Config.imgSide then (.raised .formatViolation, s)
    else s.endEncode (encodeBody s.cfg.dstCap (tickLimit s.cfg Config.imgSize) s.mem.pix s.output.init)

end Sys2Proof.Machine
end

