-- ==== Sys2Proof/Machine/Dispatch.lean ====
section
/-! DEFINITION. The meaning of every command (30_encoding.md R82), one arm per constructor of `Instr`. -/

namespace Sys2Proof.Machine

def exec (i : Instr) (s : State) : Host.Outcome State Fault Refusal :=
  match i with
  | .rdStart => Sys2Proof.Machine.execRdStart s
  | .rdBit => Sys2Proof.Machine.execRdBit s
  | .rdBits n => Sys2Proof.Machine.execRdBits n s
  | .wrStart => Sys2Proof.Machine.execWrStart s
  | .wrBits n => Sys2Proof.Machine.execWrBits n s
  | .wrFlush => Sys2Proof.Machine.execWrFlush s
  | .lcDec => Sys2Proof.Machine.execLcDec s
  | .lcEnc => Sys2Proof.Machine.execLcEnc s
  | .palDecA => Sys2Proof.Machine.execPalDecA s
  | .palDecB => Sys2Proof.Machine.execPalDecB s
  | .palEncA => Sys2Proof.Machine.execPalEncA s
  | .palEncB => Sys2Proof.Machine.execPalEncB s
  | .render => Sys2Proof.Machine.execRender s
  | .decA => Sys2Proof.Machine.execDecA s
  | .decB => Sys2Proof.Machine.execDecB s
  | .encB => Sys2Proof.Machine.execEncB s
  | .parse => Sys2Proof.Machine.execParse s
  | .serialize => Sys2Proof.Machine.execSerialize s

end Sys2Proof.Machine
end

