-- ==== Sys2Proof/Machine/HostPort.lean ====
section
/-! DEFINITION. The host side of the block: the register map (10_state.md R22), the address map and the access rules
(20_memory.md R66, R67), what a read returns and a write stores (R28, R36, R37, R68), the host duties
(70_reset_and_hazards.md R306), and the pseudo-instructions of a host program (30_encoding.md R86). -/

namespace Sys2Proof.Machine

/-- The registers of the map of 10_state.md R22. -/
inductive RegName where
  | cmd | status | arg | result | srcLen | rdPos | rdState | wrLen | wrState | imgW | imgH
  | graphicOff | blinkN | talkN | marker | warnStat | id | param | srcCapR | dstCapR | pixCapR
deriving DecidableEq, Repr

/-- The offset of a register (R22). -/
def RegName.offset : RegName → Nat
  | .cmd => 0x000
  | .status => 0x004
  | .arg => 0x008
  | .result => 0x00C
  | .srcLen => 0x010
  | .rdPos => 0x014
  | .rdState => 0x018
  | .wrLen => 0x01C
  | .wrState => 0x020
  | .imgW => 0x024
  | .imgH => 0x028
  | .graphicOff => 0x02C
  | .blinkN => 0x030
  | .talkN => 0x034
  | .marker => 0x038
  | .warnStat => 0x03C
  | .id => 0x040
  | .param => 0x044
  | .srcCapR => 0x048
  | .dstCapR => 0x04C
  | .pixCapR => 0x050

/-- The register at an aligned offset below 0x054 (R22). -/
def regAt (off : Nat) : Option RegName :=
  match off with
  | 0x000 => some .cmd
  | 0x004 => some .status
  | 0x008 => some .arg
  | 0x00C => some .result
  | 0x010 => some .srcLen
  | 0x014 => some .rdPos
  | 0x018 => some .rdState
  | 0x01C => some .wrLen
  | 0x020 => some .wrState
  | 0x024 => some .imgW
  | 0x028 => some .imgH
  | 0x02C => some .graphicOff
  | 0x030 => some .blinkN
  | 0x034 => some .talkN
  | 0x038 => some .marker
  | 0x03C => some .warnStat
  | 0x040 => some .id
  | 0x044 => some .param
  | 0x048 => some .srcCapR
  | 0x04C => some .dstCapR
  | 0x050 => some .pixCapR
  | _ => none

/-- What a host access reaches (R66): a register or an entry of a window. -/
inductive Target where
  | reg (r : RegName)
  | palram (i : Nat)
  | palb (i : Nat)
  | warnlog (i : Nat)
  | blinkTbl (i : Nat)
  | talkTbl (i : Nat)
  | pix (i : Nat)
  | src (i : Nat)
  | dst (i : Nat)
deriving DecidableEq, Repr

/-- An access of 32-bit entries: aligned, 4 bytes (R67). The alignment is that of the offset
(notes/assumptions/9.md). -/
def wordAccess (off size : Nat) (t : Target) : Except Refusal Target :=
  if size = 4 ∧ off % 4 = 0 then .ok t else .error .accessSize

/-- An access of bytes: 1 byte (R67). -/
def byteAccess (size : Nat) (t : Target) : Except Refusal Target :=
  if size = 1 then .ok t else .error .accessSize

/-- An access in the register window (R66, R37). -/
def regAccess (off size : Nat) : Except Refusal Target :=
  match regAt off with
  | some r => wordAccess off size (.reg r)
  | none => .error .accessSize

/-- What an access of `size` bytes at offset `off` reaches, by the address map of R66 and the widths of R67. -/
def locateOffset (c : Config) (off size : Nat) : Except Refusal Target :=
  if off < 0x54 then regAccess off size
  else if 0x100 ≤ off ∧ off < 0x140 then wordAccess off size (.palram ((off - 0x100) / 4))
  else if 0x140 ≤ off ∧ off < 0x160 then byteAccess size (.palb (off - 0x140))
  else if 0x200 ≤ off ∧ off < 0x200 + 4 * c.warnCap then wordAccess off size (.warnlog ((off - 0x200) / 4))
  else if 0x400 ≤ off ∧ off < 0x7FC then byteAccess size (.blinkTbl (off - 0x400))
  else if 0x800 ≤ off ∧ off < 0xBFC then byteAccess size (.talkTbl (off - 0x800))
  else if 0x10000 ≤ off ∧ off < 0x10000 + c.pixCap then byteAccess size (.pix (off - 0x10000))
  else if 0x1000000 ≤ off ∧ off < 0x1000000 + c.srcCap then byteAccess size (.src (off - 0x1000000))
  else if 0x2000000 ≤ off ∧ off < 0x2000000 + c.dstCap then byteAccess size (.dst (off - 0x2000000))
  else .error .unmapped

/-- What an access at a bus address reaches: offsets are relative to SF1PC_BASE (R66). -/
def locate (c : Config) (addr size : Nat) : Except Refusal Target :=
  if addr < c.base then .error .unmapped else locateOffset c (addr - c.base) size

/-- The value a host read of a register returns (R22): CMD reads 0, reserved bits read 0. -/
def State.readReg (s : State) : RegName → Word
  | .cmd => 0#32
  | .status => s.statusWord
  | .arg => s.arg
  | .result => s.result
  | .srcLen => s.srcLen
  | .rdPos => s.rd.off
  | .rdState => s.rd.stateWord
  | .wrLen => s.wr.len
  | .wrState => s.wr.stateWord
  | .imgW => s.imgW.zeroExtend 32
  | .imgH => s.imgH.zeroExtend 32
  | .graphicOff => s.graphicOff
  | .blinkN => s.blinkN.zeroExtend 32
  | .talkN => s.talkN.zeroExtend 32
  | .marker => s.marker.zeroExtend 32
  | .warnStat => s.warnStatWord
  | .id => Config.idWord
  | .param => paramWord s.cfg
  | .srcCapR => toWord s.cfg.srcCap
  | .dstCapR => toWord s.cfg.dstCap
  | .pixCapR => toWord s.cfg.pixCap

/-- A host write of a register other than CMD (R22): RW fields store, RO registers and reserved bits ignore it;
SRC_LEN stores `min(v, SRC_CAP)` (R28). A write of CMD issues a command and stores nothing (R23). -/
def State.writeReg (s : State) (r : RegName) (v : Word) : State :=
  match r with
  | .arg => { s with arg := v }
  | .srcLen => { s with srcLen := toWord (min v.toNat s.cfg.srcCap) }
  | .imgW => { s with imgW := v.extractLsb' 0 16 }
  | .imgH => { s with imgH := v.extractLsb' 0 16 }
  | .graphicOff => { s with graphicOff := v }
  | .blinkN => { s with blinkN := v.extractLsb' 0 8 }
  | .talkN => { s with talkN := v.extractLsb' 0 8 }
  | .cmd => s
  | .status => s
  | .result => s
  | .rdPos => s
  | .rdState => s
  | .wrLen => s
  | .wrState => s
  | .marker => s
  | .warnStat => s
  | .id => s
  | .param => s
  | .srcCapR => s
  | .dstCapR => s
  | .pixCapR => s

/-- The value a host read returns; a byte is zero-extended, a pixel is `{0b0000, PIX[i]}` (R67). -/
def State.readTarget (s : State) : Target → Word
  | .reg r => s.readReg r
  | .palram i => s.mem.palram.read i
  | .palb i => (s.mem.palb.read i).zeroExtend 32
  | .warnlog i => s.mem.warnlog.read i
  | .blinkTbl i => (s.mem.blinkTbl.read i).zeroExtend 32
  | .talkTbl i => (s.mem.talkTbl.read i).zeroExtend 32
  | .pix i => (s.mem.pix.read i).zeroExtend 32
  | .src i => (s.mem.src.read i).zeroExtend 32
  | .dst i => (s.mem.dst.read i).zeroExtend 32

/-- A host write that issues no command: windows store the value, PIX its low nibble, WARNLOG nothing (R67). -/
def State.writeTarget (s : State) (t : Target) (v : Word) : State :=
  match t with
  | .reg r => s.writeReg r v
  | .palram i => { s with mem := { s.mem with palram := s.mem.palram.write i v } }
  | .palb i => { s with mem := { s.mem with palb := s.mem.palb.write i (v.extractLsb' 0 8) } }
  | .warnlog _ => s
  | .blinkTbl i => { s with mem := { s.mem with blinkTbl := s.mem.blinkTbl.write i (v.extractLsb' 0 8) } }
  | .talkTbl i => { s with mem := { s.mem with talkTbl := s.mem.talkTbl.write i (v.extractLsb' 0 8) } }
  | .pix i => { s with mem := { s.mem with pix := s.mem.pix.write i (v.extractLsb' 0 4) } }
  | .src i => { s with mem := { s.mem with src := s.mem.src.write i (v.extractLsb' 0 8) } }
  | .dst i => { s with mem := { s.mem with dst := s.mem.dst.write i (v.extractLsb' 0 8) } }

/-- What one action of the outside world comes to: it is done, refused, or it issues a command word. -/
inductive HostEffect where
  | done (s : State)
  | refuse (r : Refusal)
  | command (w : Word) (s : State)
deriving DecidableEq, Repr

/-- A host read (70_reset_and_hazards.md R307): no side effect (20_memory.md R68), the value joins the replies. While
BUSY = 1 only STATUS may be read (R306 duty 2). -/
def State.hostRead (s : State) (addr size : Nat) : HostEffect :=
  match locate s.cfg addr size with
  | .error r => .refuse r
  | .ok t =>
    if s.busy = true ∧ t ≠ .reg .status then .refuse .hostBusy
    else .done { s with replies := s.readTarget t :: s.replies }

/-- The value of a host write. -/
def State.hostValue (s : State) : HostValue → Option Word
  | .lit v => some v
  | .lastReply => s.replies.head?

/-- A host write (R307). While BUSY = 1 it is refused (R306 duties 1 and 2); a write of CMD issues a command (R23). -/
def State.hostWrite (s : State) (addr size : Nat) (x : HostValue) : HostEffect :=
  match locate s.cfg addr size with
  | .error r => .refuse r
  | .ok t =>
    if s.busy = true then .refuse .hostBusy
    else
      match s.hostValue x with
      | none => .refuse .noReply
      | some v => if t = .reg .cmd then .command v s else .done (s.writeTarget t v)

/-- One action of the outside world (R300, R307). -/
def State.hostAction (s : State) : HostAction → HostEffect
  | .read addr size => s.hostRead addr size
  | .write addr size x => s.hostWrite addr size x
  | .reset d => .done (s.platformReset d)

/-- Take the next action of the outside world and do it. With none left the block stays as it is: it is idle and
waits for the host (70_reset_and_hazards.md R302; notes/assumptions/2.md). -/
def State.fetch (s : State) : HostEffect :=
  match s.program with
  | [] => .done s
  | a :: rest => { s with program := rest }.hostAction a

/-! ## Host programs (30_encoding.md R85, R86) -/

/-- `W REG, value`. -/
def hostW (c : Config) (r : RegName) (v : Word) : HostAction := .write (c.base + r.offset) 4 (.lit v)

/-- `R REG`. -/
def hostR (c : Config) (r : RegName) : HostAction := .read (c.base + r.offset) 4

/-- The byte windows a host program may name (R85), with their first offset (20_memory.md R66). -/
inductive ByteWindow where
  | palb | blinkTbl | talkTbl | pix | src | dst
deriving DecidableEq, Repr

/-- The first offset of a byte window (20_memory.md R66). -/
def ByteWindow.offset : ByteWindow → Nat
  | .palb => 0x140
  | .blinkTbl => 0x400
  | .talkTbl => 0x800
  | .pix => 0x10000
  | .src => 0x1000000
  | .dst => 0x2000000

/-- `WB WIN[i], byte`. -/
def hostWB (c : Config) (w : ByteWindow) (i : Nat) (b : Byte) : HostAction :=
  .write (c.base + w.offset + i) 1 (.lit (b.zeroExtend 32))

/-- `RB WIN[i]`. -/
def hostRB (c : Config) (w : ByteWindow) (i : Nat) : HostAction := .read (c.base + w.offset + i) 1

/-- `WW PALRAM[i], word`. -/
def hostWW (c : Config) (i : Nat) (v : Word) : HostAction := .write (c.base + 0x100 + 4 * i) 4 (.lit v)

/-- `C MNEMONIC n`: write the command word to CMD, then read STATUS. One read sees BUSY = 0, since a command is one
step (notes/assumptions/1.md). -/
def hostC (c : Config) (i : Instr) : List HostAction := [hostW c .cmd (encode i), hostR c .status]

/-- `CA MNEMONIC n, arg` (R86). -/
def hostCA (c : Config) (i : Instr) (v : Word) : List HostAction := hostW c .arg v :: hostC c i

/-- `LOAD SRC, a, b0 b1 … bm` (R86). -/
def hostLoad (c : Config) (a : Nat) : List Byte → List HostAction
  | [] => []
  | b :: bs => hostWB c .src a b :: hostLoad c (a + 1) bs

/-- `SETLEN v` (R86). -/
def hostSetLen (c : Config) (v : Word) : HostAction := hostW c .srcLen v

/-- `COPYBACK n` (R86): each DST byte is read and written to SRC, then SRC_LEN is set. -/
def hostCopyBack (c : Config) (n : Nat) : List HostAction :=
  (List.range n).flatMap (fun i => [hostRB c .dst i, .write (c.base + ByteWindow.offset .src + i) 1 .lastReply])
    ++ [hostSetLen c (toWord n)]

/-- `OPEN` (R86): PARSE, then ARG ← the value of GRAPHIC_OFF, which the host reads (notes/assumptions/4.md). -/
def hostOpen (c : Config) : List HostAction :=
  hostC c .parse ++ [hostR c .graphicOff, .write (c.base + RegName.offset .arg) 4 .lastReply]

end Sys2Proof.Machine
end

