-- ==== Sys2Proof/Machine/Step.lean ====
section
/-! DEFINITION. One step: the next action of the outside world, and, when it writes CMD, the whole command that the word
names (70_reset_and_hazards.md R305; 20_memory.md R71). -/

namespace Sys2Proof.Machine

/-- One step in the total order of 20_memory.md R71: a host access, a command from issue to completion, or the
platform's reset. A word that decodes to no command raises ILLEGAL_COMMAND (60_exceptions.md R281). -/
def step (s : State) : Host.Outcome State Fault Refusal :=
  match s.fetch with
  | .done s' => .next s'
  | .refuse r => .refused r
  | .command w s' =>
    match decode w with
    | .ok i => exec i s'
    | .error _ => .next s'.illegalCommand

/-- The state in which the host's next action is to issue the opcode-table word `w` of `nbits` bits: a write of it to
CMD, with BUSY = 0. It stands for a host program placed from outside (notes/assumptions/2.md). -/
def State.withFetchWord (s : State) (nbits w : Nat) : State :=
  { s with busy := false,
           program := .write s.cfg.base 4 (.lit (BitVec.ofNat 32 (w % 2 ^ nbits))) :: s.program }

end Sys2Proof.Machine
end

