-- ==== Sys2Proof/Safety.lean ====
section
/-! DEFINITION. The terms the claims are stated in: the legal states, the STATUS a command ends with, the bits a reader
still holds and a writer has written, the stream grammars of 30_encoding.md R88 to R90 with what they paint, and the
tables of 60_exceptions.md R283 and 10_state.md R22. Nothing here is used by `step`. -/

namespace Sys2Proof

/-! ## The tables of 60_exceptions.md R272, R283 and 10_state.md R22, R27 -/

/-- The words that 30_encoding.md R81 refuses: a non-zero RSV1 or RSV0, an opcode outside R82, a non-zero N where N is unused,
N above 32 where it is used. -/
abbrev illegalWord (w : Word) : Prop :=
  w.extractLsb' 24 8 ≠ 0#8 ∨ w.extractLsb' 8 8 ≠ 0#8 ∨
  w.extractLsb' 0 8 ∉ [0x01#8, 0x02#8, 0x03#8, 0x04#8, 0x05#8, 0x06#8, 0x08#8, 0x09#8, 0x10#8, 0x11#8, 0x12#8,
    0x13#8, 0x14#8, 0x20#8, 0x21#8, 0x28#8, 0x30#8, 0x31#8] ∨
  (w.extractLsb' 0 8 ≠ 0x03#8 ∧ w.extractLsb' 0 8 ≠ 0x05#8 ∧ w.extractLsb' 16 8 ≠ 0#8) ∨
  ((w.extractLsb' 0 8 = 0x03#8 ∨ w.extractLsb' 0 8 = 0x05#8) ∧ 32 < (w.extractLsb' 16 8).toNat)

/-- The commands that can set TRUNC (60_exceptions.md R272). -/
def Instr.mayTruncate : Instr → Bool
  | .rdBit | .rdBits _ | .lcDec | .decA | .decB => true
  | .rdStart | .wrStart | .wrBits _ | .wrFlush | .lcEnc | .palDecA | .palDecB | .palEncA | .palEncB | .render
  | .encB | .parse | .serialize => false

/-- The hard failures of each command (60_exceptions.md R283). -/
def Instr.mayRaise : Instr → Machine.Failure → Bool
  | .rdStart, _ | .wrStart, _ | .palDecA, _ | .palDecB, _ | .palEncA, _ | .palEncB, _ => false
  | .rdBit, _ | .lcDec, _ | .rdBits _, _ => false
  | .wrBits _, e | .lcEnc, e | .wrFlush, e | .serialize, e => e == .outputOverflow
  | .render, e => e == .capacityExceeded || e == .outputOverflow
  | .decA, e => e == .capacityExceeded || e == .runtimeInvariantFailure
  | .decB, e => e == .runtimeInvariantFailure
  | .encB, e => e == .formatViolation || e == .outputOverflow
  | .parse, e => e == .containerTruncated

/-- The commands that change RD_POS and RD_STATE (10_state.md R22, "core writes"). -/
def Instr.usesReader : Instr → Bool
  | .rdStart | .rdBit | .rdBits _ | .lcDec | .decA | .decB => true
  | .wrStart | .wrBits _ | .wrFlush | .lcEnc | .palDecA | .palDecB | .palEncA | .palEncB | .render | .encB
  | .parse | .serialize => false

/-- The commands that change WR_LEN and WR_STATE (R22). -/
def Instr.usesWriter : Instr → Bool
  | .wrStart | .wrBits _ | .wrFlush | .lcEnc | .encB | .render | .serialize => true
  | .rdStart | .rdBit | .rdBits _ | .lcDec | .palDecA | .palDecB | .palEncA | .palEncB | .decA | .decB
  | .parse => false

/-- The commands that write RESULT (10_state.md R27). -/
def Instr.writesResult : Instr → Bool
  | .rdBit | .rdBits _ | .lcDec | .encB | .render | .serialize | .parse => true
  | .rdStart | .wrStart | .wrBits _ | .wrFlush | .lcEnc | .palDecA | .palDecB | .palEncA | .palEncB | .decA
  | .decB => false

end Sys2Proof

namespace Sys2Proof.Machine

/-! ## Legal states -/

/-- The invariants of the reader (10_state.md R29). -/
abbrev Reader.Ok (r : Reader) : Prop := r.cnt.toNat ≤ 16 ∧ r.buf.toNat % 2 ^ (16 - r.cnt.toNat) = 0

/-- The invariant of the writer's buffer (10_state.md R30); WR_CNT ≤ 15 by its width. -/
abbrev Writer.Ok (o : Writer) : Prop := o.buf.toNat < 2 ^ o.cnt.toNat

/-- A memory is in canonical form and inside its capacity. -/
abbrev Memory.Ok {w : Nat} (cap : Nat) (m : Memory w) : Prop := m.wf = true ∧ m.within cap = true

/-- Every memory is in canonical form and inside its capacity (10_state.md R38 to R44). -/
abbrev Memories.Ok (c : Config) (m : Memories) : Prop :=
  m.src.Ok c.srcCap ∧ m.dst.Ok c.dstCap ∧ m.pix.Ok c.pixCap ∧ m.palram.Ok Config.palramSize ∧
  m.palb.Ok Config.palbSize ∧ m.blinkTbl.Ok Config.tableSize ∧ m.talkTbl.Ok Config.tableSize ∧
  m.warnlog.Ok c.warnCap

/-- The states between two steps: legal parameters (00_scope.md R9), BUSY = 0, TRUNC and ERR not both set
(60_exceptions.md R276), SRC_LEN at most SRC_CAP (R28), the reader's and the writer's invariants (R29, R30), WR_LEN at
most DST_CAP (60_exceptions.md R280), WARN_CNT at most WARN_CAP (R35), and the memories as they should be. -/
abbrev State.Inv (s : State) : Prop :=
  s.cfg.Legal ∧ s.busy = false ∧ ¬(s.trunc = true ∧ s.err ≠ none) ∧ s.srcLen.toNat ≤ s.cfg.srcCap ∧
  s.rd.Ok ∧ s.wr.Ok ∧ s.wr.len.toNat ≤ s.cfg.dstCap ∧ s.warnCnt.toNat ≤ s.cfg.warnCap ∧ s.mem.Ok s.cfg

/-! ## How a command ends (60_exceptions.md R276) -/

/-- STATUS after a normal end: BUSY, TRUNC and ERR are 0. -/
def State.ended (s : State) : State := { s with busy := false, trunc := false, err := none }

/-- STATUS after a truncated end: TRUNC is 1, BUSY and ERR are 0. -/
def State.cutShort (s : State) : State := { s with busy := false, trunc := true, err := none }

/-- STATUS after a hard failure: ERR holds its code, BUSY and TRUNC are 0. -/
def State.failed (s : State) (e : Failure) : State := { s with busy := false, trunc := false, err := some e }

/-! ## Bits -/

/-- The `n` low bits of `v`, most significant first (00_scope.md R12). -/
def bitsOf (v : Nat) : Nat → List Bool
  | 0 => []
  | n + 1 => v.testBit n :: bitsOf v n

/-- The unsigned number a bit string stands for, its first bit most significant (R12). -/
def natOfBits (l : List Bool) : Nat := l.foldl (fun v b => 2 * v + b.toNat) 0

/-- The bits of `n` bytes from address `a` on, in stream order (R12). -/
def byteBits (m : Memory 8) (a n : Nat) : List Bool := (m.readList a n).flatMap fun b => bitsOf b.toNat 8

/-- How many bytes from RD_OFF on the refills will deliver: whole pairs, and under USE a single last byte
(40_bit_cursor.md R102, R103). -/
def usableBytes (q : Source) (off : Nat) : Nat :=
  match q.oddTail with
  | .drop => 2 * ((q.len.toNat - off) / 2)
  | .use => q.len.toNat - off

/-- The bits a reader will still deliver, in order: those of RD_BUF, then those of SRC from RD_OFF on (R29, R104). -/
def pendingBits (q : Source) (r : Reader) : List Bool :=
  bitsOf (r.buf.toNat / 2 ^ (16 - r.cnt.toNat)) r.cnt.toNat ++ byteBits q.mem r.off.toNat (usableBytes q r.off.toNat)

/-- The bits the block's reader will still deliver. -/
def State.pending (s : State) : List Bool := pendingBits s.source s.rd

/-- The bits of SRC from byte ARG on, as a reader positioned there will deliver them (R106). -/
def State.streamAtArg (s : State) : List Bool := pendingBits s.source (Reader.init s.arg)

/-- The bits written so far: those of DST below WR_LEN, then the pending ones (10_state.md R30). -/
def Output.bits (o : Output) : List Bool := byteBits o.dst 0 o.wr.len.toNat ++ bitsOf o.wr.buf.toNat o.wr.cnt.toNat

/-- How many bytes the writer stores when `n` more bits are written: two for each word completed (R108). -/
def Writer.grown (o : Writer) (n : Nat) : Nat := 2 * ((o.cnt.toNat + n) / 16)

/-- A Length Code symbol with zero count `k` and value `v` (30_encoding.md R88). -/
def lcSymbol (k v : Nat) : List Bool := List.replicate k false ++ true :: bitsOf v (k + 1)

/-- The symbol for the value `len` (41_length_code.md R88, R134). -/
def lcBits (len : Nat) : List Bool := lcSymbol (lcK len) (len - (2 ^ (lcK len + 1) - 2))

/-- A sequence of WriteBits calls (40_bit_cursor.md R117). -/
def writeFields (cap : Nat) : List (Nat × Nat) → Output → Write
  | [], o => .done o
  | (v, n) :: rest, o => (writeBits cap v n o).andThen (writeFields cap rest)

/-- A sequence of ReadBits calls of the given widths (R117). -/
def readFields (q : Source) : List Nat → Reader → Read (List Nat)
  | [], r => .got [] r
  | n :: rest, r => (readBits q n r).andThen fun v r => (readFields q rest r).andThen fun vs r => .got (v :: vs) r

/-! ## Variant B streams (30_encoding.md R90) -/

/-- What follows a pixel value: a flag of 0, or a flag of 1 with its copy-down code and its sentinel. -/
inductive FlagB where
  | zero
  | none (sent : BitVec 3)
  | left1 (sent : BitVec 3)
  | left2 (pad : Bool) (sent : BitVec 3)
deriving DecidableEq, Repr

/-- The bits of the flag, the copy-down code, the padding bit and the sentinel (R90). -/
def FlagB.bits : FlagB → List Bool
  | .zero => [false]
  | .none sent => [true, false, false] ++ bitsOf sent.toNat 3
  | .left1 sent => [true, true] ++ bitsOf sent.toNat 3
  | .left2 pad sent => [true, false, true, pad] ++ bitsOf sent.toNat 3

/-- How far to the left of `pos + 64` the copy-down writes, 0 for none (43_decoder.md R199). -/
def FlagB.left : FlagB → Nat
  | .zero => 0
  | .none _ => 0
  | .left1 _ => 1
  | .left2 _ _ => 2

/-- A run of a Variant B stream: `runB` of R90. -/
structure RunB where
  v : Pixel
  flag : FlagB
  len : Nat
deriving DecidableEq, Repr

/-- The bits of a run (R90). -/
def RunB.bits (x : RunB) : List Bool := bitsOf x.v.toNat 4 ++ x.flag.bits ++ lcBits x.len

/-- The positions below 4096 a run at `pos` gives its value: pos, the copy-down target, and the next `len − 1` ones
(43_decoder.md R198, R199, R201). -/
def RunB.paints (x : RunB) (pos p : Nat) : Bool :=
  decide (p < 4096 ∧ (p = pos ∨ (x.flag.left ≠ 0 ∧ p = pos + 64 - x.flag.left) ∨ (pos < p ∧ p < pos + x.len)))

/-- The image after the runs, from position `pos` on and over the image `f`; the last store wins (R194, R202). -/
def paintB : List RunB → Nat → (Nat → Pixel) → Nat → Pixel
  | [], _, f => f
  | x :: rest, pos, f => paintB rest (pos + x.len) fun p => if x.paints pos p then x.v else f p

/-- Where the position counter stands after the runs (R202). -/
def endB (runs : List RunB) : Nat := (runs.map RunB.len).sum

/-- The last of these runs is the one that takes the position, from `pos`, to 4096 or beyond (R202). -/
def finishesB : List RunB → Nat → Prop
  | [], pos => 4096 ≤ pos
  | x :: rest, pos => pos < 4096 ∧ finishesB rest (pos + x.len)

/-- The copy-down that the bits after a pixel have chosen so far: of a flag 1 with a whole code, or none (43_decoder.md
R195, R199). -/
def cutFlag : List Bool → FlagB
  | true :: true :: _ => .left1 0#3
  | true :: false :: true :: pad :: _ => .left2 pad 0#3
  | _ => .zero

/-- What a run that the end of the stream cuts has stored, as a run of length 0: its pixel and its copy-down, as far as
they were read, or nothing (43_decoder.md R183, R195). -/
def cutRun : List Bool → List RunB
  | a :: b :: c :: d :: rest => [{ v := BitVec.ofNat 4 (natOfBits [a, b, c, d]), flag := cutFlag rest, len := 0 }]
  | _ => []

/-- The runs ENC_B writes for the image `pix` from `pos` on (44_encoder.md R222 to R225): each pixel with its maximal
run, marked exactly when the probe of R224 holds, up to the end of the image. -/
def encodesB (pix : Memory 4) : List RunB → Nat → Prop
  | [], pos => pos = 4096
  | x :: rest, pos =>
    pos < 4096 ∧ x.v = pix.read pos ∧ 1 ≤ x.len ∧ pos + x.len ≤ 4096 ∧
    (∀ j, j < x.len → pix.read (pos + j) = x.v) ∧ (pos + x.len < 4096 → pix.read (pos + x.len) ≠ x.v) ∧
    x.flag = (if x.v ≠ 0#4 ∧ pos + 63 < 4096 ∧ pix.read (pos + 63) = x.v ∧ pix.read (pos + 62) ≠ x.v
              then .left1 0#3 else .zero) ∧
    encodesB pix rest (pos + x.len)

/-! ## Variant A streams (30_encoding.md R89) -/

/-- A copy-down selection of R89 (43_decoder.md R191). -/
inductive SelA where
  | same | left1 | right1 | right2 | left2
deriving DecidableEq, Repr

/-- The code of a selection (R89, R191). -/
def SelA.bits : SelA → List Bool
  | .same => [true]
  | .left1 => [false, true]
  | .right1 => [false, false, true]
  | .right2 => [false, false, false, true, false]
  | .left2 => [false, false, false, true, true]

/-- The horizontal offset of a selection (R191). -/
def SelA.offset : SelA → Int
  | .same => 0
  | .left1 => -1
  | .right1 => 1
  | .right2 => 2
  | .left2 => -2

/-- A jump, a pixel, and the selections of its prediction sub-loop if it has one (R89). -/
structure StepA where
  jump : Nat
  v : Pixel
  downs : Option (List SelA)
deriving DecidableEq, Repr

/-- The bits of the prediction flag and sub-loop (R89). -/
def predictBits : Option (List SelA) → List Bool
  | none => [false]
  | some l => true :: l.flatMap SelA.bits ++ [false, false, false, false]

/-- The bits of a step (R89). -/
def StepA.bits (x : StepA) : List Bool := lcBits x.jump ++ bitsOf x.v.toNat 4 ++ predictBits x.downs

/-- The positions a chain of selections reaches from `p2` in an image of width `w` (R192). -/
def chainA (w : Nat) : Int → List SelA → List Int
  | _, [] => []
  | p2, d :: rest => (p2 + w + d.offset) :: chainA w (p2 + w + d.offset) rest

/-- Every position a step with its pixel at `pos` stores to; those outside the image are dropped (R181, R192). -/
def StepA.targets (w : Nat) (x : StepA) (pos : Int) : List Int := pos :: chainA w pos (x.downs.getD [])

/-- The image after the steps, from position `pos` on and over the image `f` (R194). -/
def paintA (w : Nat) : List StepA → Int → (Nat → Pixel) → Nat → Pixel
  | [], _, f => f
  | x :: rest, pos, f =>
    paintA w rest (pos + x.jump) fun p => if (p : Int) ∈ x.targets w (pos + x.jump) then x.v else f p

/-- The steps, from position `pos`, all stay below `size`, and the last jump then reaches it (R188). -/
def finishesA (size : Nat) : List StepA → Int → Nat → Prop
  | [], pos, last => pos < size ∧ (size : Int) ≤ pos + last
  | x :: rest, pos, last => pos + x.jump < size ∧ finishesA size rest (pos + x.jump) last

/-- The Ticks of a step: one for the jump, one for each selection, one for the stop pattern (R182, D14). -/
def StepA.ticks (x : StepA) : Nat :=
  match x.downs with
  | none => 1
  | some l => 1 + (l.length + 1)

/-- Where the steps leave the position, which starts at −1 (R187). -/
def endA (steps : List StepA) : Int := -1 + ((steps.map StepA.jump).sum : Nat)

/-- The bits of a step as far as its sub-loop has come, before the stop pattern (R89). -/
def StepA.openBits (x : StepA) : List Bool :=
  lcBits x.jump ++ bitsOf x.v.toNat 4 ++ true :: (x.downs.getD []).flatMap SelA.bits

/-- The Ticks of a step as far as its sub-loop has come (R182). -/
def StepA.openTicks (x : StepA) : Nat := 1 + (x.downs.getD []).length

/-- Where the end of the stream cuts a step short (43_decoder.md R183, R184). -/
inductive CutA where
  /-- In the jump or in the pixel, with these bits left. -/
  | inJump (l : List Bool)
  /-- Before the prediction flag. -/
  | atFlag (jump : Nat) (v : Pixel)
  /-- In the sub-loop of this step, inside a selection with these bits left. -/
  | inSelect (x : StepA) (l : List Bool)
deriving DecidableEq, Repr

/-- The bits of the cut step. -/
def CutA.bits : CutA → List Bool
  | .inJump l => l
  | .atFlag jump v => lcBits jump ++ bitsOf v.toNat 4
  | .inSelect x l => x.openBits ++ l

/-- What of the cut step was stored: its pixel, and the copy-downs read whole. -/
def CutA.read : CutA → List StepA
  | .inJump _ => []
  | .atFlag jump v => [{ jump := jump, v := v, downs := none }]
  | .inSelect x _ => [x]

/-- The Ticks of the cut step (R182). -/
def CutA.ticks : CutA → Nat
  | .inJump _ => 1
  | .atFlag _ _ => 1
  | .inSelect x _ => x.openTicks + 1

/-- The step at `pos` is cut where the constructor says: its jump stays inside the image, and the bits left hold no whole
pixel, selection or stop pattern there (R188, R191). -/
def CutA.Fits (size : Nat) (pos : Int) : CutA → Prop
  | .inJump l => (∀ (j : Nat) (rest : List Bool), l = lcBits j ++ rest → pos + j < size) ∧
      ∀ (j : Nat) (v : Pixel) (rest : List Bool), l ≠ lcBits j ++ (bitsOf v.toNat 4 ++ rest)
  | .atFlag jump _ => pos + jump < size
  | .inSelect x l => pos + x.jump < size ∧ (∀ (d : SelA) (rest : List Bool), l ≠ d.bits ++ rest) ∧
      ∀ rest : List Bool, l ≠ [false, false, false, false] ++ rest

/-! ## Containers (45_container.md) -/

/-- The offset of the talk block: 2 + 4·nb (R240). -/
def State.talkOff (s : State) : Nat := 2 + 4 * (s.mem.src.read 1).toNat

/-- The offset of the palette: (2 + 4·nb) + (2 + 4·nt) (R240). -/
def State.paletteOff (s : State) : Nat := s.talkOff + (2 + 4 * (s.mem.src.read (s.talkOff + 1)).toNat)

/-- graphicOffset: the palette's offset + 32 (R240). -/
def State.graphicOffset (s : State) : Nat := s.paletteOff + 32

/-- A byte of SRC below SRC_LEN, or 0x00 past the end (R249, R250). -/
def State.srcByte (s : State) (a : Nat) : Byte := if a < s.srcLen.toNat then s.mem.src.read a else 0x00#8

/-- The whole records a frame block at `off` with count byte `n` has below SRC_LEN (R245). -/
def State.wholeRecords (s : State) (off n : Nat) : Nat := min n ((s.srcLen.toNat - off - 2) / 4)

/-- The warnings of the blink block, with the offset of each (R242). -/
def State.blinkWarnings (s : State) : List (BitVec 8 × Nat) :=
  (if s.mem.src.read 0 ≠ 0#8 then [(1#8, 0)] else []) ++
  (if s.wholeRecords 0 (s.mem.src.read 1).toNat < (s.mem.src.read 1).toNat then [(2#8, 0)] else [])

/-- The warnings a parse of SRC logs, with the offset of each (R242). -/
def State.warnings (s : State) : List (BitVec 8 × Nat) :=
  s.blinkWarnings ++
  (if s.mem.src.read s.talkOff ≠ 0#8 then [(3#8, s.talkOff)] else []) ++
  (if s.wholeRecords s.talkOff (s.mem.src.read (s.talkOff + 1)).toNat < (s.mem.src.read (s.talkOff + 1)).toNat
   then [(4#8, s.talkOff)] else []) ++
  (if s.srcLen.toNat < s.paletteOff + 32 then [(5#8, s.paletteOff)] else []) ++
  (if s.srcLen.toNat < s.graphicOffset + 2 then [(6#8, s.graphicOffset)]
   else if s.mem.src.read s.graphicOffset ≠ 0x08#8 ∨ s.mem.src.read (s.graphicOffset + 1) ≠ 0x08#8
   then [(7#8, s.graphicOffset)] else [])

end Sys2Proof.Machine
end

