-- ==== Sys2Proof/Certificates/Slice0/Obligations.lean ====
section
/-! DEFINITION. The statements for the provers. `s.ended`, `s.cutShort` and `s.failed e` are `s` with the STATUS of a
normal end, a truncated end and a hard failure (60_exceptions.md R276); `{ s with … }` names everything else a
command changes, so each such equation is also the command's frame. -/

open Sys2Proof Sys2Proof.Machine

/-! ## The command word (30_encoding.md R80 to R83) -/

/-- R80 to R82: the decoder gives back every command from its encoded word. -/
def Obligations.DecodeOfEncode : Prop :=
  ∀ i : Instr, i.wellFormed = true → decode (encode i) = .ok i

/-- R80 to R82: a word decodes to at most the command that encodes to it, and that command is well formed. -/
def Obligations.DecodedWordIsItsEncoding : Prop :=
  ∀ (w : Word) (i : Instr), decode w = .ok i → encode i = w ∧ i.wellFormed = true

/-- R81: the decoder refuses exactly the words that fail one of its checks. -/
def Obligations.IllegalWordsAreExactly : Prop :=
  ∀ w : Word, (∃ e, decode w = .error e) ↔ illegalWord w

/-- R82: some words of the opcode map, one for each family (95_test_vectors.md §2.1). -/
def Obligations.SampleWordsDecode : Prop :=
  decode 0x00040003#32 = .ok (.rdBits 4#8) ∧ decode 0x00100005#32 = .ok (.wrBits 16#8) ∧
  decode 0x00000008#32 = .ok .lcDec ∧ decode 0x00000014#32 = .ok .render ∧ decode 0x00000021#32 = .ok .decB ∧
  decode 0x00000028#32 = .ok .encB ∧ decode 0x00000031#32 = .ok .serialize

/-! ## One step -/

/-- R23, R305: a write of a command word to CMD performs the whole command. Issue and completion in one step, and the host's
actions as a list, are the model's own (notes/assumptions/1.md, notes/assumptions/2.md). -/
def Obligations.StepRunsDecodedCommand : Prop :=
  ∀ (s : State) (w : Word) (i : Instr) (rest : List HostAction),
    s.busy = false → s.program = .write s.cfg.base 4 (.lit w) :: rest → decode w = .ok i →
    step s = exec i { s with program := rest }

/-- R83, R281: every reserved encoding raises ILLEGAL_COMMAND, and nothing but STATUS changes. -/
def Obligations.IllegalWordOnlySetsStatus : Prop :=
  ∀ (s : State) (w : Word) (rest : List HostAction),
    s.busy = false → s.program = .write s.cfg.base 4 (.lit w) :: rest → illegalWord w →
    step s = .next ({ s with program := rest }.failed .illegalCommand)

/-- Every command completes, in exactly one of three ways (60_exceptions.md: the inference that R276 marks as its own). -/
def Obligations.EveryCommandEndsInOneOfThreeWays : Prop :=
  ∀ (i : Instr) (s : State), ∃ t, exec i s = .next t ∧ t.busy = false ∧
    ((t.trunc = false ∧ t.err = none) ∨ (t.trunc = true ∧ t.err = none) ∨ (t.trunc = false ∧ ∃ e, t.err = some e))

/-- R272: exactly RD_BIT, RD_BITS, LC_DEC, DEC_A and DEC_B can set TRUNC. -/
def Obligations.OnlyReadersSetTrunc : Prop :=
  (∀ (i : Instr) (s t : State), exec i s = .next t → t.trunc = true → i.mayTruncate = true) ∧
  (∀ i : Instr, i.wellFormed = true → i.mayTruncate = true → i ≠ .rdBits 0#8 →
    ∃ s t, exec i s = .next t ∧ t.trunc = true)

/-- R283: the hard failures each command can end in, for legal parameters. -/
def Obligations.FailuresPerCommand : Prop :=
  ∀ (i : Instr) (s t : State) (e : Failure), i.wellFormed = true → s.cfg.Legal → exec i s = .next t →
    t.err = some e → i.mayRaise e = true

/-- R27: which commands leave RESULT unchanged, and that a hard failure does. -/
def Obligations.ResultWrittenOnlyAsStated : Prop :=
  ∀ (i : Instr) (s t : State), exec i s = .next t → (i.writesResult = false ∨ t.err ≠ none) → t.result = s.result

/-- R22 ("core writes"), R26, R28, R38: what each command leaves unchanged. -/
def Obligations.CommandsChangeOnlyTheirState : Prop :=
  ∀ (i : Instr) (s t : State), exec i s = .next t →
    t.cfg = s.cfg ∧ t.arg = s.arg ∧ t.srcLen = s.srcLen ∧ t.mem.src = s.mem.src ∧
    t.program = s.program ∧ t.replies = s.replies ∧
    (i.usesReader = false → t.rd = s.rd) ∧
    (i.usesWriter = false → t.wr = s.wr ∧ t.mem.dst = s.mem.dst) ∧
    (i ≠ .decA → i ≠ .decB → t.imgW = s.imgW ∧ t.imgH = s.imgH ∧ t.mem.pix = s.mem.pix) ∧
    (i ≠ .parse → t.graphicOff = s.graphicOff ∧ t.blinkN = s.blinkN ∧ t.talkN = s.talkN ∧ t.marker = s.marker ∧
      t.warnCnt = s.warnCnt ∧ t.warnOvf = s.warnOvf ∧ t.mem.blinkTbl = s.mem.blinkTbl ∧
      t.mem.talkTbl = s.mem.talkTbl ∧ t.mem.warnlog = s.mem.warnlog) ∧
    (i ≠ .palDecA → i ≠ .palDecB → t.mem.palram = s.mem.palram) ∧
    (i ≠ .palEncA → i ≠ .palEncB → i ≠ .parse → t.mem.palb = s.mem.palb)

/-- R38: no command's outcome depends on a byte of SRC at or above SRC_LEN. -/
def Obligations.NoReadOfSrcAtOrAboveSrcLen : Prop :=
  ∀ (i : Instr) (s t : State) (m : Memory 8),
    (∀ a, a < s.srcLen.toNat → m.read a = s.mem.src.read a) → exec i s = .next t →
    exec i { s with mem := { s.mem with src := m } } = .next { t with mem := { t.mem with src := m } }

/-- R39, R65: no command reads DST. Whatever DST holds, every other part of the outcome is the same, and so is every byte
of DST that the command writes; the other bytes stay what they were. -/
def Obligations.NoReadOfDst : Prop :=
  ∀ (i : Instr) (s t : State) (m : Memory 8), exec i s = .next t →
    ∃ d, exec i { s with mem := { s.mem with dst := m } } = .next { t with mem := { t.mem with dst := d } } ∧
      ∀ a, d.read a = t.mem.dst.read a ∨ (d.read a = m.read a ∧ t.mem.dst.read a = s.mem.dst.read a)

/-- The legal states of `State.Inv` are kept by every step: host access, command or reset. That BUSY is 0 between steps is the
model's own (notes/assumptions/1.md). -/
def Obligations.EveryStepKeepsInvariant : Prop :=
  ∀ s t : State, s.Inv → step s = .next t → t.Inv

/-- The state after reset is a legal state. Its memories with no entry listed are the model's choice
(notes/assumptions/5.md). -/
def Obligations.ResetIsLegal : Prop := State.reset.Inv

/-- So is the state after a reset with any legal parameters and any draw of the memories (R50). -/
def Obligations.AnyDrawIsLegal : Prop := ∀ (c : Config) (d : Draw), c.Legal → (State.afterReset c d).Inv

/-- R49, R301, R36: what the host reads from each register after reset, for every parameter set and draw. -/
def Obligations.RegistersAfterReset : Prop :=
  ∀ (c : Config) (d : Draw) (r : RegName), (State.afterReset c d).readReg r =
    (match r with
     | .id => 0x53463150#32
     | .param => BitVec.ofNat 32 ((if c.oddTail = .use then 1 else 0) + (if c.palBEnc = .top3 then 2 else 0)
         + 2 ^ 8 * (c.iterFactor % 256) + 2 ^ 16 * (c.warnCap % 256))
     | .srcCapR => BitVec.ofNat 32 c.srcCap
     | .dstCapR => BitVec.ofNat 32 c.dstCap
     | .pixCapR => BitVec.ofNat 32 c.pixCap
     | _ => 0#32)

/-- R50, R300, R301: the platform's reset between two steps; each drawn entry below its memory's capacity is as drawn. The
reset as an action that carries its draw is the model's own (notes/assumptions/6.md). -/
def Obligations.PlatformResetStep : Prop :=
  ∀ (s : State) (d : Draw) (rest : List HostAction), s.program = .reset d :: rest →
    step s = .next { State.afterReset s.cfg d with program := rest, replies := s.replies } ∧
    (∀ a (h : a < d.src.length), a < s.cfg.srcCap → (State.afterReset s.cfg d).mem.src.read a = d.src[a]) ∧
    (∀ a (h : a < d.dst.length), a < s.cfg.dstCap → (State.afterReset s.cfg d).mem.dst.read a = d.dst[a]) ∧
    (∀ a (h : a < d.pix.length), a < s.cfg.pixCap → (State.afterReset s.cfg d).mem.pix.read a = d.pix[a]) ∧
    (∀ a (h : a < d.palram.length), a < 16 → (State.afterReset s.cfg d).mem.palram.read a = d.palram[a]) ∧
    (∀ a (h : a < d.palb.length), a < 32 → (State.afterReset s.cfg d).mem.palb.read a = d.palb[a]) ∧
    (∀ a (h : a < d.blinkTbl.length), a < 1020 → (State.afterReset s.cfg d).mem.blinkTbl.read a = d.blinkTbl[a]) ∧
    (∀ a (h : a < d.talkTbl.length), a < 1020 → (State.afterReset s.cfg d).mem.talkTbl.read a = d.talkTbl[a]) ∧
    (∀ a (h : a < d.warnlog.length), a < s.cfg.warnCap → (State.afterReset s.cfg d).mem.warnlog.read a = d.warnlog[a])

/-! ## Bit Cursor (40_bit_cursor.md) -/

/-- R111: RD_START. -/
def Obligations.RdStartPositionsReader : Prop :=
  ∀ s : State, exec .rdStart s = .next { s with rd := { off := s.arg, buf := 0#16, cnt := 0#5 } }.ended

/-- R112: RD_BIT delivers the next pending bit, and 0 with TRUNC when there is none. -/
def Obligations.RdBitDeliversNextBit : Prop :=
  ∀ s : State, s.rd.Ok →
    (∀ b rest, s.pending = b :: rest → ∃ r, exec .rdBit s =
      .next { s with rd := r, result := if b then 1#32 else 0#32 }.ended ∧ r.Ok ∧ pendingBits s.source r = rest ∧
      8 * r.off.toNat + s.rd.cnt.toNat = 8 * s.rd.off.toNat + r.cnt.toNat + 1) ∧
    (s.pending = [] → exec .rdBit s = .next { s with result := 0#32 }.cutShort ∧ s.rd.cnt = 0#5)

/-- R113, R105: RD_BITS n delivers the next n pending bits as an unsigned number; R118: and counts them. -/
def Obligations.RdBitsDeliversField : Prop :=
  ∀ (s : State) (n : BitVec 8), s.rd.Ok → n.toNat ≤ 32 → n.toNat ≤ s.pending.length →
    ∃ r, exec (.rdBits n) s =
        .next { s with rd := r, result := BitVec.ofNat 32 (natOfBits (s.pending.take n.toNat)) }.ended ∧
      r.Ok ∧ pendingBits s.source r = s.pending.drop n.toNat ∧
      8 * r.off.toNat + s.rd.cnt.toNat = 8 * s.rd.off.toNat + r.cnt.toNat + n.toNat

/-- R113, R105: with fewer than n bits left, RD_BITS n takes them all, and sets TRUNC and RESULT = 0. -/
def Obligations.RdBitsExhausted : Prop :=
  ∀ (s : State) (n : BitVec 8), s.rd.Ok → n.toNat ≤ 32 → s.pending.length < n.toNat →
    ∃ r, exec (.rdBits n) s = .next { s with rd := r, result := 0#32 }.cutShort ∧
      r.cnt = 0#5 ∧ pendingBits s.source r = [] ∧
      8 * r.off.toNat + s.rd.cnt.toNat = 8 * s.rd.off.toNat + s.pending.length

/-- R101: no command but RD_START, DEC_A and DEC_B takes RD_OFF back. -/
def Obligations.ReaderMovesOnlyForward : Prop :=
  ∀ (i : Instr) (s t : State), i ≠ .rdStart → i ≠ .decA → i ≠ .decB → exec i s = .next t →
    s.rd.off.toNat ≤ t.rd.off.toNat

/-- R114, R107: WR_START; DST is not cleared. -/
def Obligations.WrStartBeginsOutput : Prop :=
  ∀ s : State, exec .wrStart s = .next { s with wr := { len := 0#32, buf := 0#16, cnt := 0#4 } }.ended

/-- R115, R108, R109: while its words fit in DST, WR_BITS n appends the n low bits of ARG, most significant first, and
stores two bytes from WR_LEN on for each word completed. -/
def Obligations.WrBitsAppendsField : Prop :=
  ∀ (s : State) (n : BitVec 8), s.cfg.Legal → s.wr.Ok → n.toNat ≤ 32 →
    s.wr.len.toNat + s.wr.grown n.toNat ≤ s.cfg.dstCap →
    ∃ o : Output, exec (.wrBits n) s = .next { s with mem := { s.mem with dst := o.dst }, wr := o.wr }.ended ∧
      o.wr.Ok ∧ o.bits = s.output.bits ++ bitsOf s.arg.toNat n.toNat ∧
      o.wr.len.toNat = s.wr.len.toNat + s.wr.grown n.toNat ∧ o.wr.cnt.toNat = (s.wr.cnt.toNat + n.toNat) % 16 ∧
      ∀ a, a < s.wr.len.toNat ∨ s.wr.len.toNat + s.wr.grown n.toNat ≤ a → o.dst.read a = s.mem.dst.read a

/-- R115, R108, R280: when a word does not fit, WR_BITS n raises OUTPUT_OVERFLOW; the words before it and the 15 bits
pending at that word stay written. -/
def Obligations.WrBitsOverflow : Prop :=
  ∀ (s : State) (n : BitVec 8), s.cfg.Legal → s.wr.Ok → n.toNat ≤ 32 → s.wr.len.toNat ≤ s.cfg.dstCap →
    s.cfg.dstCap < s.wr.len.toNat + s.wr.grown n.toNat →
    ∃ o : Output, exec (.wrBits n) s =
        .next ({ s with mem := { s.mem with dst := o.dst }, wr := o.wr }.failed .outputOverflow) ∧
      o.wr.len.toNat = s.wr.len.toNat + 2 * ((s.cfg.dstCap - s.wr.len.toNat) / 2) ∧ o.wr.cnt = 15#4 ∧
      o.bits = (s.output.bits ++ bitsOf s.arg.toNat n.toNat).take (8 * o.wr.len.toNat + 15) ∧
      ∀ a, a < s.wr.len.toNat ∨ o.wr.len.toNat ≤ a → o.dst.read a = s.mem.dst.read a

/-- R116, R110: WR_FLUSH writes nothing without pending bits, else pads the last word with zero bits and stores it, or
raises OUTPUT_OVERFLOW with nothing changed. -/
def Obligations.WrFlushPadsLastWord : Prop :=
  ∀ s : State, s.cfg.Legal → s.wr.Ok →
    (s.wr.cnt = 0#4 → exec .wrFlush s = .next s.ended) ∧
    (s.wr.cnt ≠ 0#4 → s.wr.len.toNat + 2 ≤ s.cfg.dstCap →
      ∃ dst, exec .wrFlush s = .next { s with mem := { s.mem with dst := dst },
                                              wr := { len := s.wr.len + 2#32, buf := 0#16, cnt := 0#4 } }.ended ∧
        byteBits dst 0 (s.wr.len.toNat + 2) = s.output.bits ++ List.replicate (16 - s.wr.cnt.toNat) false ∧
        ∀ a, a < s.wr.len.toNat ∨ s.wr.len.toNat + 2 ≤ a → dst.read a = s.mem.dst.read a) ∧
    (s.wr.cnt ≠ 0#4 → s.cfg.dstCap < s.wr.len.toNat + 2 → exec .wrFlush s = .next (s.failed .outputOverflow))

/-- What a writer session that ends in Flush wrote, a reader of the same widths reads back, under either ODD_TAIL_MODE; the
bits up to the end of the last word are zero (40_bit_cursor.md: the inference that R117 marks as its own). -/
def Obligations.ReaderReadsBackWriter : Prop :=
  ∀ (cap : Nat) (fields : List (Nat × Nat)) (o o1 o2 : Output) (q : Source) (a : Word), cap < 2 ^ 32 →
    writeFields cap fields o.init = .done o1 → flush cap o1 = .done o2 →
    (∀ i, i < o2.wr.len.toNat → q.mem.read (a.toNat + i) = o2.dst.read i) →
    a.toNat + o2.wr.len.toNat ≤ q.len.toNat →
    ∃ r, readFields q (fields.map Prod.snd) (Reader.init a) = .got (fields.map fun f => f.1 % 2 ^ f.2) r ∧
      (pendingBits q r).take (8 * o2.wr.len.toNat - (fields.map Prod.snd).sum)
        = List.replicate (8 * o2.wr.len.toNat - (fields.map Prod.snd).sum) false

/-! ## Length Code (41_length_code.md) -/

/-- R134: LcK(R) is the smallest k with R < 2^(k+2) − 2. That R lies in the range of that k and of no other (R132) is the
sentence of R134 that the spec marks as derived from R132. -/
def Obligations.LcKIsTheRangeOfItsValue : Prop :=
  ∀ len : Nat, 2 ^ (lcK len + 1) - 2 ≤ len ∧ len < 2 ^ (lcK len + 2) - 2 ∧
    ∀ k, (len < 2 ^ (k + 2) - 2 → lcK len ≤ k) ∧ (2 ^ (k + 1) - 2 ≤ len → len < 2 ^ (k + 2) - 2 → k = lcK len)

/-- R135, R138: LC_ENC appends k zeros, a one and the k + 1 bits of V, where ARG = 2^(k+1) − 2 + V; when a word does not
fit in DST it raises OUTPUT_OVERFLOW, and the words before it and the 15 bits pending at that word stay written (R108,
R280). -/
def Obligations.LcEncWritesSymbol : Prop :=
  ∀ (s : State) (k v : Nat), s.cfg.Legal → s.wr.Ok → v < 2 ^ (k + 1) → s.arg.toNat = 2 ^ (k + 1) - 2 + v →
    (s.wr.len.toNat + s.wr.grown (2 * k + 2) ≤ s.cfg.dstCap →
      ∃ o : Output, exec .lcEnc s = .next { s with mem := { s.mem with dst := o.dst }, wr := o.wr }.ended ∧
        o.wr.Ok ∧ o.bits = s.output.bits ++ lcSymbol k v ∧
        o.wr.len.toNat = s.wr.len.toNat + s.wr.grown (2 * k + 2) ∧
        ∀ a, a < s.wr.len.toNat ∨ s.wr.len.toNat + s.wr.grown (2 * k + 2) ≤ a → o.dst.read a = s.mem.dst.read a) ∧
    (s.wr.len.toNat ≤ s.cfg.dstCap → s.cfg.dstCap < s.wr.len.toNat + s.wr.grown (2 * k + 2) →
      ∃ o : Output, exec .lcEnc s =
          .next ({ s with mem := { s.mem with dst := o.dst }, wr := o.wr }.failed .outputOverflow) ∧
        o.wr.len.toNat = s.wr.len.toNat + 2 * ((s.cfg.dstCap - s.wr.len.toNat) / 2) ∧ o.wr.cnt = 15#4 ∧
        o.bits = (s.output.bits ++ lcSymbol k v).take (8 * o.wr.len.toNat + 15) ∧
        ∀ a, a < s.wr.len.toNat ∨ o.wr.len.toNat ≤ a → o.dst.read a = s.mem.dst.read a)

/-- R131, R133, R137: LC_DEC reads one symbol and returns 2^(k+1) − 2 + V, saturated to 2^32 − 1; R118: and counts its
2k + 2 bits. -/
def Obligations.LcDecReadsSymbol : Prop :=
  ∀ (s : State) (k v : Nat) (rest : List Bool), s.rd.Ok → v < 2 ^ (k + 1) → s.pending = lcSymbol k v ++ rest →
    ∃ r, exec .lcDec s =
        .next { s with rd := r, result := BitVec.ofNat 32 (min (2 ^ (k + 1) - 2 + v) (2 ^ 32 - 1)) }.ended ∧
      r.Ok ∧ pendingBits s.source r = rest ∧
      8 * r.off.toNat + s.rd.cnt.toNat = 8 * s.rd.off.toNat + r.cnt.toNat + (2 * k + 2)

/-- R137: when the bits left start with no whole symbol, LC_DEC takes them all and sets TRUNC and RESULT = 0. -/
def Obligations.LcDecExhausted : Prop :=
  ∀ s : State, s.rd.Ok → (∀ k v rest, v < 2 ^ (k + 1) → s.pending ≠ lcSymbol k v ++ rest) →
    ∃ r, exec .lcDec s = .next { s with rd := r, result := 0#32 }.cutShort ∧ r.cnt = 0#5 ∧
      pendingBits s.source r = [] ∧
      8 * r.off.toNat + s.rd.cnt.toNat = 8 * s.rd.off.toNat + s.pending.length

/-- R136: for every 32-bit length, LC_ENC on a fresh output, WR_FLUSH, a copy of the output to SRC and LC_DEC give the
length back. -/
def Obligations.LengthCodeRoundTrip : Prop :=
  ∀ s : State, s.cfg.Legal → s.wr = { len := 0#32, buf := 0#16, cnt := 0#4 } →
    ∃ t u, exec .lcEnc s = .next t ∧ t.err = none ∧ exec .wrFlush t = .next u ∧ u.err = none ∧
      ∀ x : State, x.srcLen = u.wr.len → x.rd = Reader.init 0#32 →
        (∀ a, a < u.wr.len.toNat → x.mem.src.read a = u.mem.dst.read a) →
        ∃ y, exec .lcDec x = .next y ∧ y.trunc = false ∧ y.result = s.arg

/-! ## Palette Codec (42_palette.md) -/

/-- R150, R153, R159: PAL_DEC_A. -/
def Obligations.PalDecADecodesNibbles : Prop :=
  ∀ s : State, ∃ m, exec .palDecA s = .next { s with mem := { s.mem with palram := m } }.ended ∧
    (∀ i, i < 16 →
      ((m.read i).extractLsb' 24 8).toNat = 17 * ((s.mem.palb.read (2 * i + 1)).extractLsb' 0 4).toNat ∧
      ((m.read i).extractLsb' 16 8).toNat = 17 * ((s.mem.palb.read (2 * i + 1)).extractLsb' 4 4).toNat ∧
      ((m.read i).extractLsb' 8 8).toNat = 17 * ((s.mem.palb.read (2 * i)).extractLsb' 0 4).toNat ∧
      (m.read i).extractLsb' 0 8 = if i = 0 then 0x00#8 else 0xFF#8) ∧
    ∀ i, 16 ≤ i → m.read i = s.mem.palram.read i

/-- R151, R152, R153, R160: PAL_DEC_B; the levels are those of R152's table. The field positions are those of R151, the
model's choice among those U14 leaves open (notes/assumptions/12.md). -/
def Obligations.PalDecBDecodesLevels : Prop :=
  ∀ s : State, ∃ m, exec .palDecB s = .next { s with mem := { s.mem with palram := m } }.ended ∧
    (∀ i, i < 16 →
      ((m.read i).extractLsb' 24 8).toNat
        = [0, 36, 73, 109, 146, 182, 219, 255].getD ((s.mem.palb.read (2 * i + 1)).extractLsb' 1 3).toNat 0 ∧
      ((m.read i).extractLsb' 16 8).toNat
        = [0, 36, 73, 109, 146, 182, 219, 255].getD ((s.mem.palb.read (2 * i + 1)).extractLsb' 5 3).toNat 0 ∧
      ((m.read i).extractLsb' 8 8).toNat
        = [0, 36, 73, 109, 146, 182, 219, 255].getD ((s.mem.palb.read (2 * i)).extractLsb' 1 3).toNat 0 ∧
      (m.read i).extractLsb' 0 8 = if i = 0 then 0x00#8 else 0xFF#8) ∧
    ∀ i, 16 ≤ i → m.read i = s.mem.palram.read i

/-- R154, R156, R161: PAL_ENC_A; alpha has no effect. -/
def Obligations.PalEncARoundsToNibbles : Prop :=
  ∀ s : State, ∃ m, exec .palEncA s = .next { s with mem := { s.mem with palb := m } }.ended ∧
    (∀ i, i < 16 →
      (m.read (2 * i)).toNat = (((s.mem.palram.read i).extractLsb' 8 8).toNat + 8) / 17 ∧
      (m.read (2 * i + 1)).toNat = 16 * ((((s.mem.palram.read i).extractLsb' 16 8).toNat + 8) / 17)
        + (((s.mem.palram.read i).extractLsb' 24 8).toNat + 8) / 17) ∧
    ∀ a, 32 ≤ a → m.read a = s.mem.palb.read a

/-- R151, R155, R156, R162: PAL_ENC_B under either PAL_B_ENC_MODE; alpha has no effect. The field positions are those of
R151, the model's choice among those U14 leaves open (notes/assumptions/12.md). -/
def Obligations.PalEncBQuantizes : Prop :=
  ∀ s : State, ∃ m, exec .palEncB s = .next { s with mem := { s.mem with palb := m } }.ended ∧
    (∀ i, i < 16 →
      let q : Nat → Nat := fun c => if s.cfg.palBEnc = .round then (7 * c + 127) / 255 else c / 2 ^ 5
      (m.read (2 * i)).toNat = 2 * q ((s.mem.palram.read i).extractLsb' 8 8).toNat ∧
      (m.read (2 * i + 1)).toNat = 2 ^ 5 * q ((s.mem.palram.read i).extractLsb' 16 8).toNat
        + 2 * q ((s.mem.palram.read i).extractLsb' 24 8).toNat) ∧
    ∀ a, 32 ≤ a → m.read a = s.mem.palb.read a

/-- R157: a table whose channels are multiples of 17 and whose alpha is that of R153 survives PAL_ENC_A, PAL_DEC_A. -/
def Obligations.PaletteRoundTripA : Prop :=
  ∀ s : State,
    (∀ i, i < 16 → ∃ r g b : Nat, r < 16 ∧ g < 16 ∧ b < 16 ∧ s.mem.palram.read i =
      BitVec.ofNat 32 (2 ^ 24 * (17 * r) + 2 ^ 16 * (17 * g) + 2 ^ 8 * (17 * b) + (if i = 0 then 0 else 255))) →
    ∃ t u, exec .palEncA s = .next t ∧ exec .palDecA t = .next u ∧ u.err = none ∧
      ∀ i, u.mem.palram.read i = s.mem.palram.read i

/-- R157: likewise for channels in the eight levels of R152 and convention B, under either PAL_B_ENC_MODE, with the field
positions of R151 (notes/assumptions/12.md). -/
def Obligations.PaletteRoundTripB : Prop :=
  ∀ s : State,
    (∀ i, i < 16 → ∃ r g b : Nat, r < 8 ∧ g < 8 ∧ b < 8 ∧ s.mem.palram.read i =
      BitVec.ofNat 32 (2 ^ 24 * ((255 * r + 3) / 7) + 2 ^ 16 * ((255 * g + 3) / 7) + 2 ^ 8 * ((255 * b + 3) / 7)
        + (if i = 0 then 0 else 255))) →
    ∃ t u, exec .palEncB s = .next t ∧ exec .palDecB t = .next u ∧ u.err = none ∧
      ∀ i, u.mem.palram.read i = s.mem.palram.read i

/-- R163, R164: RENDER writes R, G, B, A of each pixel in raster order; index 0 has alpha 0. -/
def Obligations.RenderWritesRgba : Prop :=
  ∀ s : State, s.cfg.Legal → s.imgW.toNat * s.imgH.toNat ≤ s.cfg.pixCap →
    4 * (s.imgW.toNat * s.imgH.toNat) ≤ s.cfg.dstCap →
    ∃ dst, exec .render s =
        .next { s with mem := { s.mem with dst := dst }, result := BitVec.ofNat 32 (4 * (s.imgW.toNat * s.imgH.toNat)),
                       wr := { len := BitVec.ofNat 32 (4 * (s.imgW.toNat * s.imgH.toNat)),
                               buf := 0#16, cnt := 0#4 } }.ended ∧
      (∀ i, i < s.imgW.toNat * s.imgH.toNat →
        dst.read (4 * i) = (s.mem.palram.read (s.mem.pix.read i).toNat).extractLsb' 24 8 ∧
        dst.read (4 * i + 1) = (s.mem.palram.read (s.mem.pix.read i).toNat).extractLsb' 16 8 ∧
        dst.read (4 * i + 2) = (s.mem.palram.read (s.mem.pix.read i).toNat).extractLsb' 8 8 ∧
        dst.read (4 * i + 3) = if s.mem.pix.read i = 0#4 then 0x00#8
          else (s.mem.palram.read (s.mem.pix.read i).toNat).extractLsb' 0 8) ∧
      ∀ a, 4 * (s.imgW.toNat * s.imgH.toNat) ≤ a → dst.read a = s.mem.dst.read a

/-- R164, R282, R280: RENDER's two checks, in their order; neither changes anything but STATUS. -/
def Obligations.RenderRefusesLargeImages : Prop :=
  ∀ s : State,
    (s.cfg.pixCap < s.imgW.toNat * s.imgH.toNat → exec .render s = .next (s.failed .capacityExceeded)) ∧
    (s.imgW.toNat * s.imgH.toNat ≤ s.cfg.pixCap → s.cfg.dstCap < 4 * (s.imgW.toNat * s.imgH.toNat) →
      exec .render s = .next (s.failed .outputOverflow))

/-! ## Image decoder (43_decoder.md) -/

/-- R195 to R202: DEC_B on a stream of runs whose last one reaches position 4096. What it leaves unread is `rest`, and the
bits it took are counted (R118). -/
def Obligations.DecBPaintsItsRuns : Prop :=
  ∀ (s : State) (disc : List Bool) (runs : List RunB) (rest : List Bool),
    disc.length = 2 → s.streamAtArg = disc ++ runs.flatMap RunB.bits ++ rest → finishesB runs 0 →
    runs.length ≤ s.cfg.iterFactor * 4097 →
    ∃ r pix, exec .decB s =
        .next { s with rd := r, mem := { s.mem with pix := pix }, imgW := 64#16, imgH := 64#16 }.ended ∧
      r.Ok ∧ pendingBits s.source r = rest ∧
      8 * r.off.toNat + rest.length = 8 * s.arg.toNat + r.cnt.toNat + s.streamAtArg.length ∧
      ∀ p, pix.read p = if p < 4096 then paintB runs 0 (fun _ => 0#4) p else s.mem.pix.read p

/-- R183, R197: DEC_B on a stream that ends in the discard bits, between two runs or inside one: TRUNC, every bit taken, and
the whole image as stored so far, the runs before the cut and what the cut run had stored over a cleared image. -/
def Obligations.DecBTruncated : Prop :=
  (∀ s : State, s.streamAtArg.length < 2 →
    ∃ r pix, exec .decB s =
        .next { s with rd := r, mem := { s.mem with pix := pix }, imgW := 64#16, imgH := 64#16 }.cutShort ∧
      r.cnt = 0#5 ∧ pendingBits s.source r = [] ∧ 8 * r.off.toNat = 8 * s.arg.toNat + s.streamAtArg.length ∧
      ∀ p, pix.read p = if p < 4096 then 0#4 else s.mem.pix.read p) ∧
  ∀ (s : State) (disc : List Bool) (runs : List RunB) (cut : List Bool),
    disc.length = 2 → s.streamAtArg = disc ++ runs.flatMap RunB.bits ++ cut →
    (∀ (x : RunB) (l : List Bool), cut ≠ x.bits ++ l) → endB runs < 4096 →
    runs.length < s.cfg.iterFactor * 4097 →
    ∃ r pix, exec .decB s =
        .next { s with rd := r, mem := { s.mem with pix := pix }, imgW := 64#16, imgH := 64#16 }.cutShort ∧
      r.cnt = 0#5 ∧ pendingBits s.source r = [] ∧ 8 * r.off.toNat = 8 * s.arg.toNat + s.streamAtArg.length ∧
      ∀ p, pix.read p = if p < 4096 then paintB (runs ++ cutRun cut) 0 (fun _ => 0#4) p else s.mem.pix.read p

/-- R182, R278: DEC_B after L runs that do not reach position 4096, and DEC_A after L Ticks inside the image, at a jump or
in the sub-loop of a last step, raise RUNTIME_INVARIANT_FAILURE at the next Tick, before they read on, and keep what they
have done. -/
def Obligations.DecodersIterationCeiling : Prop :=
  (∀ (s : State) (disc : List Bool) (runs : List RunB) (rest : List Bool),
    disc.length = 2 → s.streamAtArg = disc ++ runs.flatMap RunB.bits ++ rest → endB runs < 4096 →
    runs.length = s.cfg.iterFactor * 4097 →
    ∃ r pix, exec .decB s =
        .next ({ s with rd := r, mem := { s.mem with pix := pix }, imgW := 64#16, imgH := 64#16 }.failed
          .runtimeInvariantFailure) ∧
      r.Ok ∧ pendingBits s.source r = rest ∧
      8 * r.off.toNat + rest.length = 8 * s.arg.toNat + r.cnt.toNat + s.streamAtArg.length ∧
      ∀ p, pix.read p = if p < 4096 then paintB runs 0 (fun _ => 0#4) p else s.mem.pix.read p) ∧
  ∀ (s : State) (wu hu : Nat) (steps : List StepA) (last : Option StepA) (rest : List Bool),
    wu < 256 → hu < 256 → 8 * wu * (8 * hu) ≤ s.cfg.pixCap →
    s.streamAtArg = bitsOf wu 8 ++ bitsOf hu 8 ++ steps.flatMap StepA.bits ++ last.elim [] StepA.openBits ++ rest →
    endA (steps ++ last.toList) < (8 * wu * (8 * hu) : Nat) →
    (steps.map StepA.ticks).sum + last.elim 0 StepA.openTicks = s.cfg.iterFactor * (8 * wu * (8 * hu) + 1) →
    ∃ r pix, exec .decA s =
        .next ({ s with rd := r, mem := { s.mem with pix := pix }, imgW := BitVec.ofNat 16 (8 * wu),
                        imgH := BitVec.ofNat 16 (8 * hu) }.failed .runtimeInvariantFailure) ∧
      r.Ok ∧ pendingBits s.source r = rest ∧
      8 * r.off.toNat + rest.length = 8 * s.arg.toNat + r.cnt.toNat + s.streamAtArg.length ∧
      ∀ p, pix.read p = if p < 8 * wu * (8 * hu) then paintA (8 * wu) (steps ++ last.toList) (-1) (fun _ => 0#4) p
        else s.mem.pix.read p

/-- R184, R187 to R193: DEC_A on a header, steps inside the image and a jump out of it. What it leaves unread is `rest`, and
the bits it took are counted (R118). -/
def Obligations.DecAPaintsItsSteps : Prop :=
  ∀ (s : State) (wu hu : Nat) (steps : List StepA) (jump : Nat) (rest : List Bool),
    wu < 256 → hu < 256 → 8 * wu * (8 * hu) ≤ s.cfg.pixCap →
    s.streamAtArg = bitsOf wu 8 ++ bitsOf hu 8 ++ steps.flatMap StepA.bits ++ lcBits jump ++ rest →
    finishesA (8 * wu * (8 * hu)) steps (-1) jump →
    (steps.map StepA.ticks).sum + 1 ≤ s.cfg.iterFactor * (8 * wu * (8 * hu) + 1) →
    ∃ r pix, exec .decA s =
        .next { s with rd := r, mem := { s.mem with pix := pix }, imgW := BitVec.ofNat 16 (8 * wu),
                       imgH := BitVec.ofNat 16 (8 * hu) }.ended ∧
      r.Ok ∧ pendingBits s.source r = rest ∧
      8 * r.off.toNat + rest.length = 8 * s.arg.toNat + r.cnt.toNat + s.streamAtArg.length ∧
      ∀ p, pix.read p = if p < 8 * wu * (8 * hu) then paintA (8 * wu) steps (-1) (fun _ => 0#4) p
        else s.mem.pix.read p

/-- R183, R185: DEC_A on a stream that ends in the header: TRUNC, IMG_W = IMG_H = 0, PIX untouched; and on one that ends
after the header, between two steps or inside one: TRUNC and the whole image as stored so far. Either way every bit is
taken. -/
def Obligations.DecATruncated : Prop :=
  (∀ s : State, s.streamAtArg.length < 16 →
    ∃ r, exec .decA s = .next { s with rd := r, imgW := 0#16, imgH := 0#16 }.cutShort ∧ r.cnt = 0#5 ∧
      pendingBits s.source r = [] ∧ 8 * r.off.toNat = 8 * s.arg.toNat + s.streamAtArg.length) ∧
  ∀ (s : State) (wu hu : Nat) (steps : List StepA) (cut : CutA),
    wu < 256 → hu < 256 → 8 * wu * (8 * hu) ≤ s.cfg.pixCap →
    s.streamAtArg = bitsOf wu 8 ++ bitsOf hu 8 ++ steps.flatMap StepA.bits ++ cut.bits →
    endA steps < (8 * wu * (8 * hu) : Nat) → cut.Fits (8 * wu * (8 * hu)) (endA steps) →
    (steps.map StepA.ticks).sum + cut.ticks ≤ s.cfg.iterFactor * (8 * wu * (8 * hu) + 1) →
    ∃ r pix, exec .decA s =
        .next { s with rd := r, mem := { s.mem with pix := pix }, imgW := BitVec.ofNat 16 (8 * wu),
                       imgH := BitVec.ofNat 16 (8 * hu) }.cutShort ∧
      r.cnt = 0#5 ∧ pendingBits s.source r = [] ∧ 8 * r.off.toNat = 8 * s.arg.toNat + s.streamAtArg.length ∧
      ∀ p, pix.read p = if p < 8 * wu * (8 * hu) then paintA (8 * wu) (steps ++ cut.read) (-1) (fun _ => 0#4) p
        else s.mem.pix.read p

/-- R186: DEC_A on a header of more than PIX_CAP pixels: CAPACITY_EXCEEDED, and the reader has taken the header's 16 bits,
one word, and no more. -/
def Obligations.DecACapacityExceeded : Prop :=
  ∀ (s : State) (wu hu : Nat) (rest : List Bool), wu < 256 → hu < 256 → s.cfg.pixCap < 8 * wu * (8 * hu) →
    s.streamAtArg = bitsOf wu 8 ++ bitsOf hu 8 ++ rest →
    exec .decA s = .next ({ s with rd := { off := s.arg + 2#32, buf := 0#16, cnt := 0#5 } }.failed .capacityExceeded) ∧
      s.arg.toNat + 2 ≤ s.srcLen.toNat

/-! ## Image encoder (44_encoder.md) -/

/-- R222 to R226: ENC_B on a 64×64 image writes the discard bits, the image's maximal runs and the padding; an even
number of bytes, at most 5634; nothing above it. -/
def Obligations.EncBWritesMaximalRuns : Prop :=
  ∀ s : State, s.cfg.Legal → s.imgW = 64#16 → s.imgH = 64#16 →
    ∃ dst len, exec .encB s = .next { s with mem := { s.mem with dst := dst }, result := len,
                                             wr := { len := len, buf := 0#16, cnt := 0#4 } }.ended ∧
      len.toNat % 2 = 0 ∧ len.toNat ≤ 5634 ∧
      (∃ (runs : List RunB) (pad : Nat), encodesB s.mem.pix runs 0 ∧ pad < 16 ∧
        byteBits dst 0 len.toNat = [false, false] ++ runs.flatMap RunB.bits ++ List.replicate pad false) ∧
      ∀ a, len.toNat ≤ a → dst.read a = s.mem.dst.read a

/-- R221, R277: ENC_B on an image that is not 64×64 changes nothing but STATUS. -/
def Obligations.EncBChecksDimensions : Prop :=
  ∀ s : State, (s.imgW ≠ 64#16 ∨ s.imgH ≠ 64#16) → exec .encB s = .next (s.failed .formatViolation)

/-- R205: ENC_B, a copy of its output to SRC and DEC_B give the image back, under either ODD_TAIL_MODE and whatever
else the decoding state holds. -/
def Obligations.ImageRoundTrip : Prop :=
  ∀ s : State, s.cfg.Legal → s.imgW = 64#16 → s.imgH = 64#16 →
    ∃ t, exec .encB s = .next t ∧ t.err = none ∧
      ∀ u : State, u.cfg.Legal → u.arg = 0#32 → u.srcLen = t.wr.len →
        (∀ a, a < t.wr.len.toNat → u.mem.src.read a = t.mem.dst.read a) →
        ∃ v, exec .decB u = .next v ∧ v.statusWord = 0#32 ∧
          ∀ p, p < 4096 → v.mem.pix.read p = s.mem.pix.read p

/-! ## Container (45_container.md) -/

/-- R243 to R250: PARSE of a container with both block headers present; at most 6 warnings (R241, R252). That WARNLOG
entries from WARN_CNT on keep what they held is the model's (U5, against R44's "unspecified"; notes/assumptions/18.md). -/
def Obligations.ParseReadsContainer : Prop :=
  ∀ s : State, s.cfg.Legal → 2 ≤ s.srcLen.toNat → s.talkOff + 2 ≤ s.srcLen.toNat →
    ∃ t : State, exec .parse s =
        .next { s with
          mem := { s.mem with blinkTbl := t.mem.blinkTbl, talkTbl := t.mem.talkTbl, palb := t.mem.palb,
                              warnlog := t.mem.warnlog },
          blinkN := BitVec.ofNat 8 (s.wholeRecords 0 (s.mem.src.read 1).toNat),
          talkN := BitVec.ofNat 8 (s.wholeRecords s.talkOff (s.mem.src.read (s.talkOff + 1)).toNat),
          graphicOff := BitVec.ofNat 32 s.graphicOffset, result := BitVec.ofNat 32 s.graphicOffset,
          marker := s.srcByte s.graphicOffset ++ s.srcByte (s.graphicOffset + 1),
          warnCnt := BitVec.ofNat 8 s.warnings.length, warnOvf := false }.ended ∧
      (∀ i, t.mem.blinkTbl.read i = if i < 4 * s.wholeRecords 0 (s.mem.src.read 1).toNat
        then s.mem.src.read (2 + i) else s.mem.blinkTbl.read i) ∧
      (∀ i, t.mem.talkTbl.read i = if i < 4 * s.wholeRecords s.talkOff (s.mem.src.read (s.talkOff + 1)).toNat
        then s.mem.src.read (s.talkOff + 2 + i) else s.mem.talkTbl.read i) ∧
      (∀ i, t.mem.palb.read i = if i < 32 then s.srcByte (s.paletteOff + i) else s.mem.palb.read i) ∧
      (∀ i, t.mem.warnlog.read i = if h : i < s.warnings.length
        then s.warnings[i].1 ++ BitVec.ofNat 24 s.warnings[i].2 else s.mem.warnlog.read i) ∧
      s.warnings.length ≤ 6

/-- R251, R279: PARSE with fewer than 2 bytes at the blink block only clears WARN_STAT; at the talk block it keeps
what it stored of the blink block. That WARNLOG entries from WARN_CNT on keep what they held is the model's (U5, against
R44's "unspecified"; notes/assumptions/18.md). -/
def Obligations.ParseTruncatedContainer : Prop :=
  ∀ s : State, s.cfg.Legal →
    (s.srcLen.toNat < 2 →
      exec .parse s = .next ({ s with warnCnt := 0#8, warnOvf := false }.failed .containerTruncated)) ∧
    (2 ≤ s.srcLen.toNat → s.srcLen.toNat < s.talkOff + 2 →
      ∃ t : State, exec .parse s =
          .next ({ s with mem := { s.mem with blinkTbl := t.mem.blinkTbl, warnlog := t.mem.warnlog },
                          blinkN := BitVec.ofNat 8 (s.wholeRecords 0 (s.mem.src.read 1).toNat),
                          warnCnt := BitVec.ofNat 8 s.blinkWarnings.length,
                          warnOvf := false }.failed .containerTruncated) ∧
        (∀ i, t.mem.warnlog.read i = if h : i < s.blinkWarnings.length
          then s.blinkWarnings[i].1 ++ BitVec.ofNat 24 s.blinkWarnings[i].2 else s.mem.warnlog.read i) ∧
        ∀ i, t.mem.blinkTbl.read i = if i < 4 * s.wholeRecords 0 (s.mem.src.read 1).toNat
          then s.mem.src.read (2 + i) else s.mem.blinkTbl.read i)

/-- R255, R256, R258: SERIALIZE writes the two rebuilt frame blocks, PALB and the trailing bytes of SRC. -/
def Obligations.SerializeWritesContainer : Prop :=
  ∀ (s : State) (g trail : Nat), s.cfg.Legal →
    g = (2 + 4 * s.blinkN.toNat) + (2 + 4 * s.talkN.toNat) + 32 → trail = s.srcLen.toNat - s.graphicOff.toNat →
    g + trail ≤ s.cfg.dstCap →
    ∃ dst, exec .serialize s =
        .next { s with mem := { s.mem with dst := dst }, result := BitVec.ofNat 32 g,
                       wr := { len := BitVec.ofNat 32 (g + trail), buf := 0#16, cnt := 0#4 } }.ended ∧
      dst.read 0 = 0x00#8 ∧ dst.read 1 = s.blinkN ∧
      (∀ i, i < 4 * s.blinkN.toNat → dst.read (2 + i) = s.mem.blinkTbl.read i) ∧
      dst.read (2 + 4 * s.blinkN.toNat) = 0x00#8 ∧ dst.read (2 + 4 * s.blinkN.toNat + 1) = s.talkN ∧
      (∀ i, i < 4 * s.talkN.toNat → dst.read (2 + 4 * s.blinkN.toNat + 2 + i) = s.mem.talkTbl.read i) ∧
      (∀ i, i < 32 → dst.read (g - 32 + i) = s.mem.palb.read i) ∧
      (∀ i, i < trail → dst.read (g + i) = s.mem.src.read (s.graphicOff.toNat + i)) ∧
      ∀ a, g + trail ≤ a → dst.read a = s.mem.dst.read a

/-- R256, R280: SERIALIZE of more than DST_CAP bytes changes nothing but STATUS. -/
def Obligations.SerializeOverflow : Prop :=
  ∀ s : State,
    s.cfg.dstCap < (2 + 4 * s.blinkN.toNat) + (2 + 4 * s.talkN.toNat) + 32 + (s.srcLen.toNat - s.graphicOff.toNat) →
    exec .serialize s = .next (s.failed .outputOverflow)

/-- R258: PARSE then SERIALIZE of a container that logs no warning gives its bytes back, and RESULT = GRAPHIC_OFF. -/
def Obligations.ParseSerializeRoundTrip : Prop :=
  ∀ s : State, s.cfg.Legal → 2 ≤ s.srcLen.toNat → s.talkOff + 2 ≤ s.srcLen.toNat → s.warnings = [] →
    s.srcLen.toNat ≤ s.cfg.dstCap →
    ∃ t u, exec .parse s = .next t ∧ t.err = none ∧ exec .serialize t = .next u ∧ u.err = none ∧
      u.wr.len = s.srcLen ∧ u.result = t.graphicOff ∧ ∀ a, a < s.srcLen.toNat → u.mem.dst.read a = s.mem.src.read a

/-- R258: parsing SERIALIZE's output again gives the edited tables, counts and palette, and the new graphicOffset. -/
def Obligations.ReparseAfterSerialize : Prop :=
  ∀ s t : State, s.cfg.Legal → s.graphicOff.toNat + 2 ≤ s.srcLen.toNat → exec .serialize s = .next t → t.err = none →
    ∀ x : State, x.cfg.Legal → x.srcLen = t.wr.len →
      (∀ a, a < t.wr.len.toNat → x.mem.src.read a = t.mem.dst.read a) →
      ∃ y, exec .parse x = .next y ∧ y.err = none ∧ y.blinkN = s.blinkN ∧ y.talkN = s.talkN ∧
        y.graphicOff = t.result ∧
        y.marker = s.mem.src.read s.graphicOff.toNat ++ s.mem.src.read (s.graphicOff.toNat + 1) ∧
        (∀ i, i < 4 * s.blinkN.toNat → y.mem.blinkTbl.read i = s.mem.blinkTbl.read i) ∧
        (∀ i, i < 4 * s.talkN.toNat → y.mem.talkTbl.read i = s.mem.talkTbl.read i) ∧
        ∀ i, i < 32 → y.mem.palb.read i = s.mem.palb.read i

/-! ## Host accesses (10_state.md R22, 20_memory.md R66 to R68) -/

/-- R22, R66 to R68, R307: what a host read returns at every mapped offset, with BUSY = 0; reading STATUS needs no such
condition (R306). The value joins the replies, the model's own record (notes/assumptions/3.md), and nothing else changes. -/
def Obligations.HostReadHasNoSideEffect : Prop :=
  ∀ (s : State) (rest : List HostAction), s.cfg.Legal →
    let reads : Nat → Nat → Word → Prop := fun off size v =>
      s.program = .read (s.cfg.base + off) size :: rest → step s = .next { s with program := rest, replies := v :: s.replies }
    reads 0x004 4 (BitVec.ofNat 32 (s.busy.toNat + 2 * s.trunc.toNat + 16 *
      (match s.err with
       | none => 0
       | some .formatViolation => 1
       | some .runtimeInvariantFailure => 2
       | some .containerTruncated => 3
       | some .illegalCommand => 4
       | some .outputOverflow => 5
       | some .capacityExceeded => 6))) ∧
    (s.busy = false →
      (∀ e ∈ [(0x000, 0#32), (0x008, s.arg), (0x00C, s.result), (0x010, s.srcLen), (0x014, s.rd.off),
          (0x018, BitVec.ofNat 32 (s.rd.buf.toNat + 2 ^ 16 * s.rd.cnt.toNat)), (0x01C, s.wr.len),
          (0x020, BitVec.ofNat 32 (s.wr.buf.toNat + 2 ^ 16 * s.wr.cnt.toNat)),
          (0x024, BitVec.ofNat 32 s.imgW.toNat), (0x028, BitVec.ofNat 32 s.imgH.toNat), (0x02C, s.graphicOff),
          (0x030, BitVec.ofNat 32 s.blinkN.toNat), (0x034, BitVec.ofNat 32 s.talkN.toNat),
          (0x038, BitVec.ofNat 32 s.marker.toNat),
          (0x03C, BitVec.ofNat 32 (s.warnCnt.toNat + 2 ^ 8 * s.warnOvf.toNat)), (0x040, 0x53463150#32),
          (0x044, BitVec.ofNat 32 ((if s.cfg.oddTail = .use then 1 else 0) + (if s.cfg.palBEnc = .top3 then 2 else 0)
            + 2 ^ 8 * (s.cfg.iterFactor % 256) + 2 ^ 16 * (s.cfg.warnCap % 256))),
          (0x048, BitVec.ofNat 32 s.cfg.srcCap), (0x04C, BitVec.ofNat 32 s.cfg.dstCap),
          (0x050, BitVec.ofNat 32 s.cfg.pixCap)], reads e.1 4 e.2) ∧
      (∀ i, i < 16 → reads (0x100 + 4 * i) 4 (s.mem.palram.read i)) ∧
      (∀ i, i < 32 → reads (0x140 + i) 1 (BitVec.ofNat 32 (s.mem.palb.read i).toNat)) ∧
      (∀ i, i < s.cfg.warnCap → reads (0x200 + 4 * i) 4 (s.mem.warnlog.read i)) ∧
      (∀ i, i < 1020 → reads (0x400 + i) 1 (BitVec.ofNat 32 (s.mem.blinkTbl.read i).toNat)) ∧
      (∀ i, i < 1020 → reads (0x800 + i) 1 (BitVec.ofNat 32 (s.mem.talkTbl.read i).toNat)) ∧
      (∀ i, i < s.cfg.pixCap → reads (0x10000 + i) 1 (BitVec.ofNat 32 (s.mem.pix.read i).toNat)) ∧
      (∀ i, i < s.cfg.srcCap → reads (0x1000000 + i) 1 (BitVec.ofNat 32 (s.mem.src.read i).toNat)) ∧
      ∀ i, i < s.cfg.dstCap → reads (0x2000000 + i) 1 (BitVec.ofNat 32 (s.mem.dst.read i).toNat))

/-- R22, R28, R37: a host write of a register other than CMD: RW fields store, the rest ignore it; SRC_LEN stores
min(v, SRC_CAP). -/
def Obligations.HostWritesRegisters : Prop :=
  ∀ (s : State) (r : RegName) (v : Word) (rest : List HostAction), s.busy = false → r ≠ .cmd →
    s.program = .write (s.cfg.base + r.offset) 4 (.lit v) :: rest →
    step s = .next { (match r with
        | .arg => { s with arg := v }
        | .srcLen => { s with srcLen := BitVec.ofNat 32 (min v.toNat s.cfg.srcCap) }
        | .imgW => { s with imgW := BitVec.ofNat 16 v.toNat }
        | .imgH => { s with imgH := BitVec.ofNat 16 v.toNat }
        | .graphicOff => { s with graphicOff := v }
        | .blinkN => { s with blinkN := BitVec.ofNat 8 v.toNat }
        | .talkN => { s with talkN := BitVec.ofNat 8 v.toNat }
        | _ => s) with program := rest }

/-- R66 to R68: what a host write stores in each window, with BUSY = 0: the word or the byte at its entry, the low nibble
in PIX, nothing in WARNLOG; no other entry and nothing else changes. -/
def Obligations.HostWritesWindows : Prop :=
  ∀ (s : State) (v : Word) (rest : List HostAction), s.cfg.Legal → s.busy = false →
    let writes : Nat → Nat → Memories → Prop := fun off size m =>
      s.program = .write (s.cfg.base + off) size (.lit v) :: rest → step s = .next { s with program := rest, mem := m }
    (∀ i, i < 16 → ∃ m, writes (0x100 + 4 * i) 4 { s.mem with palram := m } ∧
      ∀ p, m.read p = if p = i then v else s.mem.palram.read p) ∧
    (∀ i, i < 32 → ∃ m, writes (0x140 + i) 1 { s.mem with palb := m } ∧
      ∀ p, m.read p = if p = i then BitVec.ofNat 8 v.toNat else s.mem.palb.read p) ∧
    (∀ i, i < s.cfg.warnCap → writes (0x200 + 4 * i) 4 s.mem) ∧
    (∀ i, i < 1020 → ∃ m, writes (0x400 + i) 1 { s.mem with blinkTbl := m } ∧
      ∀ p, m.read p = if p = i then BitVec.ofNat 8 v.toNat else s.mem.blinkTbl.read p) ∧
    (∀ i, i < 1020 → ∃ m, writes (0x800 + i) 1 { s.mem with talkTbl := m } ∧
      ∀ p, m.read p = if p = i then BitVec.ofNat 8 v.toNat else s.mem.talkTbl.read p) ∧
    (∀ i, i < s.cfg.pixCap → ∃ m, writes (0x10000 + i) 1 { s.mem with pix := m } ∧
      ∀ p, m.read p = if p = i then BitVec.ofNat 4 v.toNat else s.mem.pix.read p) ∧
    (∀ i, i < s.cfg.srcCap → ∃ m, writes (0x1000000 + i) 1 { s.mem with src := m } ∧
      ∀ p, m.read p = if p = i then BitVec.ofNat 8 v.toNat else s.mem.src.read p) ∧
    ∀ i, i < s.cfg.dstCap → ∃ m, writes (0x2000000 + i) 1 { s.mem with dst := m } ∧
      ∀ p, m.read p = if p = i then BitVec.ofNat 8 v.toNat else s.mem.dst.read p

/-- R37, R66, R67, R306, over the whole address map: an access below SF1PC_BASE, in a gap between two windows or beyond a
window's capacity is refused; so is one of a wrong width or alignment in any window; and while BUSY = 1 every access but a
word read of STATUS. Which refusal answers, and that alignment is that of the offset, are the model's own
(notes/assumptions/10.md, notes/assumptions/9.md). -/
def Obligations.HostDutyViolationsAreRefused : Prop :=
  ∀ (s : State) (addr size : Nat) (x : HostValue) (rest : List HostAction), s.cfg.Legal →
    s.program = .read addr size :: rest ∨ s.program = .write addr size x :: rest →
    (addr < s.cfg.base → step s = .refused .unmapped) ∧
    (∀ off, addr = s.cfg.base + off →
      ((0x54 ≤ off ∧ off < 0x100) ∨ (0x160 ≤ off ∧ off < 0x200) ∨ (0x200 + 4 * s.cfg.warnCap ≤ off ∧ off < 0x400) ∨
        (0x7FC ≤ off ∧ off < 0x800) ∨ (0xBFC ≤ off ∧ off < 0x10000) ∨
        (0x10000 + s.cfg.pixCap ≤ off ∧ off < 0x1000000) ∨ (0x1000000 + s.cfg.srcCap ≤ off ∧ off < 0x2000000) ∨
        0x2000000 + s.cfg.dstCap ≤ off → step s = .refused .unmapped) ∧
      (off < 0x54 ∨ (0x100 ≤ off ∧ off < 0x140) ∨ (0x200 ≤ off ∧ off < 0x200 + 4 * s.cfg.warnCap) →
        size ≠ 4 ∨ off % 4 ≠ 0 → step s = .refused .accessSize) ∧
      ((0x140 ≤ off ∧ off < 0x160) ∨ (0x400 ≤ off ∧ off < 0x7FC) ∨ (0x800 ≤ off ∧ off < 0xBFC) ∨
        (0x10000 ≤ off ∧ off < 0x10000 + s.cfg.pixCap) ∨ (0x1000000 ≤ off ∧ off < 0x1000000 + s.cfg.srcCap) ∨
        (0x2000000 ≤ off ∧ off < 0x2000000 + s.cfg.dstCap) → size ≠ 1 → step s = .refused .accessSize)) ∧
    (s.busy = true → ¬(s.program = .read (s.cfg.base + 4) 4 :: rest) → ∃ r, step s = .refused r)
end

