-- ==== Sys2Proof/Laws/Memory.lean ====
section
/-! SUPPORT. The laws of memory: what a read gives after a store, and that every memory operation keeps the canonical
form `Memory.wf` and the capacity `Memory.within`. -/

namespace Sys2Proof.Machine

variable {w : Nat}

@[simp] theorem Memory.read_nil (a : Nat) : Memory.read ([] : Memory w) a = 0#w := rfl

theorem Memory.read_cons (b : Nat) (v : BitVec w) (m : Memory w) (a : Nat) :
    Memory.read ((b, v) :: m) a = if a = b then v else Memory.read m a := rfl

/-- A read of an address that a list of cells does not name gives 0. -/
theorem Memory.read_absent {m : Memory w} {a : Nat} (h : ∀ c ∈ m, c.1 ≠ a) : m.read a = 0#w := by
  induction m with
  | nil => rfl
  | cons c m ih =>
    obtain ⟨b, v⟩ := c
    have hb : b ≠ a := h (b, v) (by simp)
    rw [Memory.read_cons, if_neg (Ne.symm hb)]
    exact ih fun c hc => h c (by simp [hc])

/-- Reading two memories one after the other. -/
theorem Memory.read_append_left {m n : Memory w} {a : Nat} (h : ∀ c ∈ n, c.1 ≠ a) : Memory.read (m ++ n) a = m.read a := by
  induction m with
  | nil => exact Memory.read_absent h
  | cons c m ih =>
    obtain ⟨b, v⟩ := c
    simp only [List.cons_append, Memory.read_cons, ih]

theorem Memory.read_append_right {m n : Memory w} {a : Nat} (h : ∀ c ∈ m, c.1 ≠ a) : Memory.read (m ++ n) a = n.read a := by
  induction m with
  | nil => rfl
  | cons c m ih =>
    obtain ⟨b, v⟩ := c
    have hb : b ≠ a := h (b, v) (by simp)
    rw [List.cons_append, Memory.read_cons, if_neg (Ne.symm hb)]
    exact ih fun c hc => h c (by simp [hc])

/-- Dropping cells of other addresses does not change what an address reads as. -/
theorem Memory.read_filter {m : Memory w} {p : Nat → Bool} {a : Nat} (h : p a = true) :
    Memory.read (m.filter fun c => p c.1) a = m.read a := by
  induction m with
  | nil => rfl
  | cons c m ih =>
    obtain ⟨b, v⟩ := c
    by_cases hb : p b = true
    · simp only [List.filter_cons_of_pos, hb, Memory.read_cons, ih]
    · have : a ≠ b := fun e => hb (e ▸ h)
      rw [List.filter_cons_of_neg (by simpa using hb), ih, Memory.read_cons, if_neg this]

theorem Memory.cells_cons (base : Nat) (v : BitVec w) (vs : List (BitVec w)) :
    Memory.cells base (v :: vs) =
      if v = 0#w then Memory.cells (base + 1) vs else (base, v) :: Memory.cells (base + 1) vs := rfl

/-- The addresses of a block of cells lie in the block. -/
theorem Memory.cells_range {vs : List (BitVec w)} {base : Nat} {c : Nat × BitVec w} (h : c ∈ Memory.cells base vs) :
    base ≤ c.1 ∧ c.1 < base + vs.length ∧ c.2 ≠ 0#w := by
  induction vs generalizing base with
  | nil => simp [Memory.cells] at h
  | cons v vs ih =>
    rw [Memory.cells_cons] at h
    have hl : (v :: vs).length = vs.length + 1 := rfl
    split at h
    · obtain ⟨h1, h2, h3⟩ := ih h
      exact ⟨by omega, by omega, h3⟩
    · rename_i hv
      rcases List.mem_cons.1 h with rfl | h
      · exact ⟨le_refl _, by simp, hv⟩
      · obtain ⟨h1, h2, h3⟩ := ih h
        exact ⟨by omega, by omega, h3⟩

/-- What a block of cells reads as. -/
theorem Memory.read_cells (vs : List (BitVec w)) (base a : Nat) :
    Memory.read (Memory.cells base vs) a = if base ≤ a then vs.getD (a - base) 0#w else 0#w := by
  induction vs generalizing base with
  | nil => simp [Memory.cells]
  | cons v vs ih =>
    by_cases ha : a = base
    · subst ha
      rw [Memory.cells_cons]
      split
      · rename_i hv
        rw [ih, if_neg (by omega)]
        simp [hv]
      · simp [Memory.read_cons]
    · have hr : Memory.read (Memory.cells base (v :: vs)) a = Memory.read (Memory.cells (base + 1) vs) a := by
        rw [Memory.cells_cons]
        split
        · rfl
        · rw [Memory.read_cons, if_neg ha]
      rw [hr, ih]
      by_cases hb : base ≤ a
      · rw [if_pos (by omega), if_pos hb]
        obtain ⟨k, rfl⟩ : ∃ k, a = base + 1 + k := ⟨a - (base + 1), by omega⟩
        have h1 : base + 1 + k - (base + 1) = k := by omega
        have h2 : base + 1 + k - base = k + 1 := by omega
        rw [h1, h2, List.getD_cons_succ]
      · rw [if_neg (by omega), if_neg hb]

/-- A read after a store of a block: the block's entry inside it, the old entry outside. -/
theorem Memory.read_writeList (m : Memory w) (base : Nat) (vs : List (BitVec w)) (a : Nat) :
    (m.writeList base vs).read a = if base ≤ a ∧ a < base + vs.length then vs.getD (a - base) 0#w else m.read a := by
  unfold Memory.writeList
  by_cases h1 : a < base
  · rw [List.append_assoc, Memory.read_append_left, Memory.read_filter (p := fun x => decide (x < base)) (by simpa using h1),
      if_neg (by omega)]
    intro c hc
    rcases List.mem_append.1 hc with hc | hc
    · have := Memory.cells_range hc
      omega
    · have := (List.mem_filter.1 hc).2
      simp only [decide_eq_true_eq] at this
      omega
  · by_cases h2 : a < base + vs.length
    · rw [Memory.read_append_left, Memory.read_append_right, Memory.read_cells, if_pos (by omega), if_pos (by omega)]
      · intro c hc
        have := (List.mem_filter.1 hc).2
        simp only [decide_eq_true_eq] at this
        omega
      · intro c hc
        have := (List.mem_filter.1 hc).2
        simp only [decide_eq_true_eq] at this
        omega
    · rw [Memory.read_append_right, Memory.read_filter (p := fun x => decide (base + vs.length ≤ x)) (by simp; omega),
        if_neg (by omega)]
      intro c hc
      rcases List.mem_append.1 hc with hc | hc
      · have := (List.mem_filter.1 hc).2
        simp only [decide_eq_true_eq] at this
        omega
      · have := Memory.cells_range hc
        omega

/-- A read after a store of one entry. -/
theorem Memory.read_write (m : Memory w) (b : Nat) (v : BitVec w) (a : Nat) :
    (m.write b v).read a = if a = b then v else m.read a := by
  rw [Memory.write, Memory.read_writeList]
  by_cases h : a = b
  · subst h
    simp
  · rw [if_neg (by simp; omega), if_neg h]

/-- A read after a clear (43_decoder.md R181). -/
theorem Memory.read_clear (m : Memory w) (n a : Nat) : (m.clear n).read a = if a < n then 0#w else m.read a := by
  rw [Memory.clear, Memory.read_writeList]
  by_cases h : a < n
  · simp [h, List.getD_eq_getElem?_getD]
  · simp [h]

/-- What a memory made of a list reads as: the list's entries below the capacity. -/
theorem Memory.read_ofList (cap : Nat) (vs : List (BitVec w)) (a : Nat) :
    (Memory.ofList cap vs).read a = if a < cap then vs.getD a 0#w else 0#w := by
  rw [Memory.ofList, Memory.read_cells]
  by_cases h : a < cap
  · simp [h, List.getD_eq_getElem?_getD]
  · simp [h, List.getD_eq_getElem?_getD]

/-! ## The canonical form -/

/-- The canonical form in words: addresses strictly rising and no entry equal to 0. -/
theorem Memory.wf_iff (m : Memory w) :
    m.wf = true ↔ (∀ c ∈ m, c.2 ≠ 0#w) ∧ m.Pairwise fun c d => c.1 < d.1 := by
  induction m with
  | nil => simp [Memory.wf]
  | cons c m ih =>
    obtain ⟨a, v⟩ := c
    simp only [Memory.wf, Bool.and_eq_true, ih, List.pairwise_cons, List.mem_cons, forall_eq_or_imp,
      List.all_eq_true, decide_eq_true_eq]
    rw [show Memory.unlisted w = 0#w from rfl]
    tauto

theorem Memory.within_iff (n : Nat) (m : Memory w) : m.within n = true ↔ ∀ c ∈ m, c.1 < n := by
  simp [Memory.within]

theorem Memory.cells_pairwise (vs : List (BitVec w)) (base : Nat) :
    (Memory.cells base vs).Pairwise fun c d => c.1 < d.1 := by
  induction vs generalizing base with
  | nil => simp [Memory.cells]
  | cons v vs ih =>
    rw [Memory.cells_cons]
    split
    · exact ih _
    · refine List.pairwise_cons.2 ⟨fun c hc => ?_, ih _⟩
      have := Memory.cells_range hc
      omega

/-- A store of a block keeps the canonical form. -/
theorem Memory.wf_writeList {m : Memory w} (h : m.wf = true) (base : Nat) (vs : List (BitVec w)) :
    (m.writeList base vs).wf = true := by
  rw [Memory.wf_iff] at h ⊢
  obtain ⟨h0, hp⟩ := h
  refine ⟨fun c hc => ?_, ?_⟩
  · simp only [Memory.writeList, List.mem_append, List.mem_filter] at hc
    rcases hc with (hc | hc) | hc
    · exact h0 c hc.1
    · exact (Memory.cells_range hc).2.2
    · exact h0 c hc.1
  · unfold Memory.writeList
    rw [List.pairwise_append, List.pairwise_append]
    refine ⟨⟨hp.filter _, Memory.cells_pairwise vs base, fun c hc d hd => ?_⟩, hp.filter _, fun c hc d hd => ?_⟩
    · have h1 := (List.mem_filter.1 hc).2
      have h2 := Memory.cells_range hd
      simp only [decide_eq_true_eq] at h1
      omega
    · have h2 := (List.mem_filter.1 hd).2
      simp only [decide_eq_true_eq] at h2
      rcases List.mem_append.1 hc with hc | hc
      · have h1 := (List.mem_filter.1 hc).2
        simp only [decide_eq_true_eq] at h1
        omega
      · have h1 := Memory.cells_range hc
        omega

/-- A store of a block below the capacity keeps the capacity. -/
theorem Memory.within_writeList {n : Nat} {m : Memory w} (h : m.within n = true) {base : Nat} {vs : List (BitVec w)}
    (hb : base + vs.length ≤ n) : (m.writeList base vs).within n = true := by
  rw [Memory.within_iff] at h ⊢
  intro c hc
  simp only [Memory.writeList, List.mem_append, List.mem_filter] at hc
  rcases hc with (hc | hc) | hc
  · exact h c hc.1
  · have := Memory.cells_range hc
    omega
  · exact h c hc.1

/-- A store of a block below the capacity keeps a memory legal. -/
theorem Memory.Ok.writeList {n : Nat} {m : Memory w} (h : m.Ok n) {base : Nat} {vs : List (BitVec w)}
    (hb : base + vs.length ≤ n) : (m.writeList base vs).Ok n :=
  ⟨Memory.wf_writeList h.1 base vs, Memory.within_writeList h.2 hb⟩

/-- A store of one entry below the capacity keeps a memory legal. -/
theorem Memory.Ok.write {n : Nat} {m : Memory w} (h : m.Ok n) {a : Nat} {v : BitVec w} (hb : a < n) :
    (m.write a v).Ok n :=
  Memory.Ok.writeList h (by simpa using hb)

/-- A clear below the capacity keeps a memory legal. -/
theorem Memory.Ok.clear {n : Nat} {m : Memory w} (h : m.Ok n) {k : Nat} (hb : k ≤ n) : (m.clear k).Ok n :=
  Memory.Ok.writeList h (by simpa using hb)

/-- A memory made of a list is legal. -/
theorem Memory.ok_ofList (cap : Nat) (vs : List (BitVec w)) : (Memory.ofList cap vs).Ok cap := by
  constructor
  · rw [Memory.wf_iff]
    exact ⟨fun c hc => (Memory.cells_range hc).2.2, Memory.cells_pairwise _ _⟩
  · rw [Memory.within_iff]
    intro c hc
    have := (Memory.cells_range hc).2.1
    have hl : (vs.take cap).length ≤ cap := by simp
    omega

/-- The entries of a legal memory at and above its capacity read as 0. -/
theorem Memory.read_of_within {n : Nat} {m : Memory w} (h : m.within n = true) {a : Nat} (ha : n ≤ a) :
    m.read a = 0#w :=
  Memory.read_absent fun c hc => by
    have := (Memory.within_iff n m).1 h c hc
    omega

/-! ## Reading a block -/

@[simp] theorem Memory.length_readList (m : Memory w) (base n : Nat) : (m.readList base n).length = n := by
  simp [Memory.readList]

theorem Memory.getD_readList (m : Memory w) (base n i : Nat) :
    (m.readList base n).getD i 0#w = if i < n then m.read (base + i) else 0#w := by
  by_cases h : i < n
  · simp [Memory.readList, h, List.getD_eq_getElem?_getD]
  · simp [Memory.readList, h, List.getD_eq_getElem?_getD]

/-- A block read is determined by the entries of the block. -/
theorem Memory.readList_congr {m m' : Memory w} {base base' n : Nat}
    (h : ∀ i, i < n → m.read (base + i) = m'.read (base' + i)) : m.readList base n = m'.readList base' n := by
  unfold Memory.readList
  exact List.map_congr_left fun i hi => h i (List.mem_range.1 hi)

@[simp] theorem Memory.readList_zero (m : Memory w) (base : Nat) : m.readList base 0 = [] := rfl

theorem Memory.readList_succ (m : Memory w) (base n : Nat) :
    m.readList base (n + 1) = m.read base :: m.readList (base + 1) n := by
  simp only [Memory.readList, List.range_succ_eq_map, List.map_cons, List.map_map, Nat.add_zero]
  congr 1
  apply List.map_congr_left
  intro i _
  simp only [Function.comp]
  congr 1
  omega

theorem Memory.readList_append (m : Memory w) (base n k : Nat) :
    m.readList base (n + k) = m.readList base n ++ m.readList (base + n) k := by
  induction n generalizing base with
  | zero => simp
  | succ n ih =>
    rw [show n + 1 + k = (n + k) + 1 by omega, Memory.readList_succ, ih, Memory.readList_succ, List.cons_append,
      show base + 1 + n = base + (n + 1) by omega]

end Sys2Proof.Machine
end

