-- ==== Sys2Proof/Laws/Bits.lean ====
section
/-! SUPPORT. Laws of bit strings: the bits of a number, the number of a bit string, the bits of a block of bytes. -/

namespace Sys2Proof.Machine

@[simp] theorem bitsOf_zero (v : Nat) : bitsOf v 0 = [] := rfl

theorem bitsOf_succ (v n : Nat) : bitsOf v (n + 1) = v.testBit n :: bitsOf v n := rfl

@[simp] theorem length_bitsOf (v n : Nat) : (bitsOf v n).length = n := by
  induction n with
  | zero => rfl
  | succ n ih => rw [bitsOf_succ, List.length_cons, ih]

/-- The `n` low bits depend on nothing above them. -/
theorem bitsOf_congr {v v' n : Nat} (h : ∀ i, i < n → v.testBit i = v'.testBit i) : bitsOf v n = bitsOf v' n := by
  induction n with
  | zero => rfl
  | succ n ih => rw [bitsOf_succ, bitsOf_succ, h n (by omega), ih fun i hi => h i (by omega)]

theorem bitsOf_mod (v n : Nat) : bitsOf (v % 2 ^ n) n = bitsOf v n :=
  bitsOf_congr fun i hi => by simp [hi]

/-- The high bits, then the low bits. -/
theorem bitsOf_add (v m n : Nat) : bitsOf v (m + n) = bitsOf (v / 2 ^ n) m ++ bitsOf v n := by
  induction m with
  | zero => simp
  | succ m ih =>
    rw [show m + 1 + n = (m + n) + 1 by omega, bitsOf_succ, ih, bitsOf_succ, List.cons_append, Nat.testBit_div_two_pow]

theorem bitsOf_zero_eq_replicate (n : Nat) : bitsOf 0 n = List.replicate n false := by
  induction n with
  | zero => rfl
  | succ n ih => rw [bitsOf_succ, ih, Nat.zero_testBit]; rfl

/-- Bits followed by zeros. -/
theorem bitsOf_shift (v m n : Nat) : bitsOf (v * 2 ^ n) (m + n) = bitsOf v m ++ List.replicate n false := by
  rw [bitsOf_add, Nat.mul_div_cancel _ (by positivity), ← bitsOf_mod (v * 2 ^ n) n, Nat.mul_mod_left,
    bitsOf_zero_eq_replicate]

/-- One more bit at the right. -/
theorem bitsOf_double (v n : Nat) (b : Bool) : bitsOf (2 * v + b.toNat) (n + 1) = bitsOf v n ++ [b] := by
  rw [bitsOf_add]
  have h1 : (2 * v + b.toNat) / 2 ^ 1 = v := by
    have := b.toNat_lt
    omega
  have h2 : bitsOf (2 * v + b.toNat) 1 = [b] := by
    rw [bitsOf_succ, bitsOf_zero, Nat.testBit_zero]
    cases b <;> simp
  rw [h1, h2]

@[simp] theorem natOfBits_nil : natOfBits [] = 0 := rfl

theorem natOfBits_foldl (l : List Bool) (v : Nat) :
    l.foldl (fun v b => 2 * v + b.toNat) v = v * 2 ^ l.length + natOfBits l := by
  induction l generalizing v with
  | nil => simp
  | cons b l ih =>
    have hb : natOfBits (b :: l) = (2 * 0 + b.toNat) * 2 ^ l.length + natOfBits l := ih (2 * 0 + b.toNat)
    rw [List.foldl_cons, ih, hb, List.length_cons, pow_succ]
    ring

theorem natOfBits_cons (b : Bool) (l : List Bool) : natOfBits (b :: l) = b.toNat * 2 ^ l.length + natOfBits l := by
  rw [natOfBits, List.foldl_cons, natOfBits_foldl]
  simp

theorem natOfBits_append (l l' : List Bool) : natOfBits (l ++ l') = natOfBits l * 2 ^ l'.length + natOfBits l' := by
  rw [natOfBits, List.foldl_append, natOfBits_foldl]
  rfl

theorem natOfBits_lt (l : List Bool) : natOfBits l < 2 ^ l.length := by
  induction l with
  | nil => simp
  | cons b l ih =>
    rw [natOfBits_cons, List.length_cons, pow_succ]
    cases b <;> simp <;> omega

/-- Reading back the bits of a number. -/
theorem natOfBits_bitsOf (v n : Nat) : natOfBits (bitsOf v n) = v % 2 ^ n := by
  induction n with
  | zero => simp [Nat.mod_one]
  | succ n ih =>
    rw [bitsOf_succ, natOfBits_cons, length_bitsOf, ih, Nat.testBit_eq_decide_div_mod_eq, Nat.mod_pow_succ]
    have : v / 2 ^ n % 2 < 2 := Nat.mod_lt _ (by omega)
    rcases Nat.lt_or_ge (v / 2 ^ n % 2) 1 with h | h
    · have h0 : v / 2 ^ n % 2 = 0 := by omega
      simp [h0]
    · have h1 : v / 2 ^ n % 2 = 1 := by omega
      simp [h1]
      omega

/-- The bits of the number of a bit string. -/
theorem bitsOf_natOfBits (l : List Bool) : bitsOf (natOfBits l) l.length = l := by
  induction l using List.reverseRecOn with
  | nil => rfl
  | append_singleton l b ih =>
    rw [natOfBits_append, List.length_append, List.length_singleton]
    have : natOfBits l * 2 ^ 1 + natOfBits [b] = 2 * natOfBits l + b.toNat := by
      simp [natOfBits]
      omega
    rw [this, bitsOf_double, ih]

/-- Two bytes as one 16-bit word, the first byte high (20_memory.md R60). -/
theorem bitsOf_pair (hi lo : Byte) : bitsOf (hi ++ lo : BitVec 16).toNat 16 = bitsOf hi.toNat 8 ++ bitsOf lo.toNat 8 := by
  rw [show (16 : Nat) = 8 + 8 from rfl, bitsOf_add, BitVec.toNat_append]
  have hlo := lo.isLt
  have h1 : (hi.toNat <<< 8 ||| lo.toNat) = 2 ^ 8 * hi.toNat + lo.toNat := by
    rw [Nat.shiftLeft_eq, Nat.mul_comm, Nat.two_pow_add_eq_or_of_lt hlo]
  rw [h1]
  congr 1
  · congr 1
    omega
  · rw [← bitsOf_mod]
    congr 1
    omega

@[simp] theorem byteBits_zero (m : Memory 8) (a : Nat) : byteBits m a 0 = [] := rfl

theorem byteBits_succ (m : Memory 8) (a n : Nat) :
    byteBits m a (n + 1) = bitsOf (m.read a).toNat 8 ++ byteBits m (a + 1) n := by
  rw [byteBits, Memory.readList_succ, List.flatMap_cons]
  rfl

theorem byteBits_add (m : Memory 8) (a n k : Nat) :
    byteBits m a (n + k) = byteBits m a n ++ byteBits m (a + n) k := by
  simp only [byteBits, Memory.readList_append, List.flatMap_append]

@[simp] theorem length_byteBits (m : Memory 8) (a n : Nat) : (byteBits m a n).length = 8 * n := by
  induction n generalizing a with
  | zero => rfl
  | succ n ih => rw [byteBits_succ, List.length_append, length_bitsOf, ih]; omega

/-- The bits of a block are determined by its bytes. -/
theorem byteBits_congr {m m' : Memory 8} {a a' n : Nat} (h : ∀ i, i < n → m.read (a + i) = m'.read (a' + i)) :
    byteBits m a n = byteBits m' a' n := by
  rw [byteBits, byteBits, Memory.readList_congr h]

@[simp] theorem length_lcSymbol (k v : Nat) : (lcSymbol k v).length = 2 * k + 2 := by
  simp [lcSymbol]
  omega

/-- A symbol is read back from the front of any bit string it starts: zero count and value are determined. -/
theorem lcSymbol_inj {k v k' v' : Nat} {l l' : List Bool} (hv : v < 2 ^ (k + 1)) (hv' : v' < 2 ^ (k' + 1))
    (h : lcSymbol k v ++ l = lcSymbol k' v' ++ l') : k = k' ∧ v = v' ∧ l = l' := by
  have hk : k = k' := by
    induction k generalizing k' v v' l l' with
    | zero =>
      cases k' with
      | zero => rfl
      | succ k' => simp [lcSymbol, List.replicate_succ] at h
    | succ k ih =>
      cases k' with
      | zero => simp [lcSymbol, List.replicate_succ] at h
      | succ k' =>
        have h' : lcSymbol k (v / 2) ++ (bitsOf v 1 ++ l) = lcSymbol k' (v' / 2) ++ (bitsOf v' 1 ++ l') := by
          simp only [lcSymbol, List.replicate_succ, List.cons_append, List.append_assoc, List.cons.injEq, true_and] at h ⊢
          rw [bitsOf_add v (k + 1) 1, bitsOf_add v' (k' + 1) 1] at h
          simpa using h
        have := ih (by rw [pow_succ] at hv; omega) (by rw [pow_succ] at hv'; omega) h'
        omega
  subst hk
  have h1 : bitsOf v (k + 1) = bitsOf v' (k + 1) ∧ l = l' := by
    simp only [lcSymbol, List.append_assoc, List.append_cancel_left_eq, List.cons_append, List.cons.injEq, true_and] at h
    exact List.append_inj h (by simp)
  refine ⟨rfl, ?_, h1.2⟩
  have := congrArg natOfBits h1.1
  rwa [natOfBits_bitsOf, natOfBits_bitsOf, Nat.mod_eq_of_lt hv, Nat.mod_eq_of_lt hv'] at this

end Sys2Proof.Machine
end

