-- ==== Sys2Proof/Laws/Container.lean ====
section
/-! SUPPORT. The laws of the container commands (45_container.md): what a warning changes, what ParseTable, the palette part and
the marker part change and log, and how the parts of a rebuilt container lie. -/

namespace Sys2Proof.Machine

/-! ## Warnings -/

/-- The state with another warning log. -/
def State.withLog (s : State) (log : Memory 32) (cnt : BitVec 8) (ovf : Bool) : State :=
  { s with mem := { s.mem with warnlog := log }, warnCnt := cnt, warnOvf := ovf }

/-- Over the log `w0`, the warnings `l` and nothing else have been logged (R241, R242). -/
structure Logged (w0 : Memory 32) (l : List (BitVec 8 × Nat)) (log : Memory 32) (cnt : BitVec 8) (ovf : Bool) : Prop where
  cnt : cnt = BitVec.ofNat 8 l.length
  ovf : ovf = false
  log : ∀ i, log.read i = if h : i < l.length then l[i].1 ++ BitVec.ofNat 24 l[i].2 else w0.read i

theorem Logged.nil (w0 : Memory 32) : Logged w0 [] w0 0#8 false := ⟨rfl, rfl, fun i => by simp⟩

/-- A warning changes WARNLOG, WARN_CNT and WARN_OVF only (R241). -/
theorem State.warn_eq (s : State) (c : Warning) (off : Nat) : ∃ log cnt ovf, s.warn c off = s.withLog log cnt ovf := by
  unfold State.warn
  split
  · exact ⟨_, _, s.warnOvf, rfl⟩
  · exact ⟨s.mem.warnlog, s.warnCnt, true, rfl⟩

/-- A warning with room for it joins the log (R241). -/
theorem State.warnIf_logged {s : State} {w0 : Memory 32} {l : List (BitVec 8 × Nat)}
    (h : Logged w0 l s.mem.warnlog s.warnCnt s.warnOvf) (hcap : l.length < s.cfg.warnCap) (hl : l.length < 255) (p : Bool)
    (c : Warning) (off : Nat) :
    ∃ log cnt ovf, s.warnIf p c off = s.withLog log cnt ovf ∧
      Logged w0 (l ++ if p then [(c.code, off)] else []) log cnt ovf := by
  cases p with
  | false => exact ⟨_, _, _, rfl, by simpa using h⟩
  | true =>
    have hc : s.warnCnt.toNat = l.length := by
      rw [h.cnt, BitVec.toNat_ofNat]
      omega
    refine ⟨s.mem.warnlog.write s.warnCnt.toNat (warnEntry c.code off), s.warnCnt + 1#8, s.warnOvf, ?_, ?_, h.ovf, ?_⟩
    · rw [State.warnIf, if_pos rfl, State.warn, if_pos (by omega)]
      rfl
    · rw [h.cnt]
      refine BitVec.eq_of_toNat_eq ?_
      simp
    · intro i
      rw [Memory.read_write, hc]
      simp only [if_true, List.length_append, List.length_singleton]
      by_cases hi : i = l.length
      · subst hi
        rw [if_pos rfl, dif_pos (by omega), List.getElem_concat_length rfl]
        rfl
      · rw [if_neg hi, h.log i]
        by_cases hlt : i < l.length
        · rw [dif_pos hlt, dif_pos (by omega), List.getElem_append_left hlt]
        · rw [dif_neg hlt, dif_neg (by omega)]

/-! ## The parts of a parse -/

/-- The warnings of one frame block (R242, R245). -/
def State.tableWarnings (s : State) (t : FrameTable) (off : Nat) : List (BitVec 8 × Nat) :=
  (if s.mem.src.read off ≠ 0#8 then [(t.markerWarning.code, off)] else []) ++
  (if s.stored off < s.declared off then [(t.shortWarning.code, off)] else [])

theorem State.length_tableWarnings (s : State) (t : FrameTable) (off : Nat) : (s.tableWarnings t off).length ≤ 2 := by
  unfold State.tableWarnings
  split <;> split <;> simp

/-- The records ParseTable stores (R245). -/
def State.tableBytes (s : State) (off : Nat) : List Byte := s.mem.src.readList (off + 2) (4 * s.stored off)

@[simp] theorem State.length_tableBytes (s : State) (off : Nat) : (s.tableBytes off).length = 4 * s.stored off := by
  simp [State.tableBytes]

theorem State.stored_le (s : State) (off : Nat) : s.stored off ≤ 255 := by
  have := (s.mem.src.read (off + 1)).isLt
  unfold State.stored State.declared
  omega

/-- Everything ParseTable can do: the records stored, the count register, the warnings (R243 to R246). -/
theorem State.parseTable_eq {s : State} {w0 : Memory 32} {l : List (BitVec 8 × Nat)}
    (h : Logged w0 l s.mem.warnlog s.warnCnt s.warnOvf) (hcap : l.length + 1 < s.cfg.warnCap) (hl : l.length < 250)
    (t : FrameTable) (off : Nat) :
    ∃ log cnt ovf, s.parseTable t off = (s.setTable t (s.tableBytes off) (s.stored off)).withLog log cnt ovf ∧
      Logged w0 (l ++ s.tableWarnings t off) log cnt ovf := by
  obtain ⟨g1, c1, o1, e1, l1⟩ := State.warnIf_logged h (by omega) (by omega)
    (decide (s.mem.src.read off ≠ 0#8)) t.markerWarning off
  have hlen : (l ++ if decide (s.mem.src.read off ≠ 0#8) = true then [(t.markerWarning.code, off)] else []).length ≤ l.length + 1 := by
    split <;> simp
  have hs : ∀ bs n, ((s.withLog g1 c1 o1).setTable t bs n).mem.warnlog = g1 ∧
      ((s.withLog g1 c1 o1).setTable t bs n).warnCnt = c1 ∧ ((s.withLog g1 c1 o1).setTable t bs n).warnOvf = o1 ∧
      ((s.withLog g1 c1 o1).setTable t bs n).cfg = s.cfg := by
    intro bs n
    cases t <;> exact ⟨rfl, rfl, rfl, rfl⟩
  obtain ⟨hs1, hs2, hs3, hs4⟩ := hs (s.tableBytes off) (s.stored off)
  obtain ⟨g2, c2, o2, e2, l2⟩ := State.warnIf_logged
    (s := (s.withLog g1 c1 o1).setTable t (s.tableBytes off) (s.stored off)) (w0 := w0)
    (l := l ++ if decide (s.mem.src.read off ≠ 0#8) = true then [(t.markerWarning.code, off)] else [])
    (by rw [hs1, hs2, hs3]; exact l1) (by rw [hs4]; omega) (by omega)
    (decide (s.stored off < s.declared off)) t.shortWarning off
  refine ⟨g2, c2, o2, ?_, ?_⟩
  · have : s.parseTable t off = ((s.warnIf (decide (s.mem.src.read off ≠ 0#8)) t.markerWarning off).setTable t
        ((s.warnIf (decide (s.mem.src.read off ≠ 0#8)) t.markerWarning off).mem.src.readList (off + 2) (4 * s.stored off))
        (s.stored off)).warnIf (decide (s.stored off < s.declared off)) t.shortWarning off := rfl
    rw [this, e1]
    have e2' := e2
    unfold State.tableBytes at e2'
    have hsrc : (s.withLog g1 c1 o1).mem.src = s.mem.src := rfl
    rw [hsrc, e2']
    cases t <;> rfl
  · simpa [State.tableWarnings, List.append_assoc] using l2

/-- The palette part: the bytes present, then zeros, and the warning when any is missing (R249). -/
def State.paletteBytes (s : State) (off : Nat) : List Byte :=
  s.mem.src.readList off (min 32 (s.srcRest off)) ++ List.replicate (32 - min 32 (s.srcRest off)) 0#8

@[simp] theorem State.length_paletteBytes (s : State) (off : Nat) : (s.paletteBytes off).length = 32 := by
  simp [State.paletteBytes]

/-- The bytes of the palette part: those below SRC_LEN, 0x00 above (R249). -/
theorem State.getD_paletteBytes (s : State) (off i : Nat) (hi : i < 32) :
    (s.paletteBytes off).getD i 0#8 = if off + i < s.srcLen.toNat then s.mem.src.read (off + i) else 0#8 := by
  have hr : s.srcRest off = s.srcLen.toNat - off := rfl
  unfold State.paletteBytes
  by_cases h : i < min 32 (s.srcRest off)
  · rw [if_pos (by omega), List.getD_append _ _ _ _ (by simpa using h), Memory.getD_readList, if_pos h]
  · rw [if_neg (by omega), List.getD_append_right _ _ _ _ (by simp; omega)]
    rw [List.getD_eq_getElem?_getD, List.getElem?_replicate]
    split <;> rfl

theorem State.parsePalette_eq {s : State} {w0 : Memory 32} {l : List (BitVec 8 × Nat)}
    (h : Logged w0 l s.mem.warnlog s.warnCnt s.warnOvf) (hcap : l.length < s.cfg.warnCap) (hl : l.length < 250)
    (off : Nat) :
    ∃ log cnt ovf, s.parsePalette off = ({ s with mem := { s.mem with palb := s.mem.palb.writeList 0 (s.paletteBytes off) } }
        : State).withLog log cnt ovf ∧
      Logged w0 (l ++ if s.srcLen.toNat < off + 32 then [(5#8, off)] else []) log cnt ovf := by
  obtain ⟨g1, c1, o1, e1, l1⟩ := State.warnIf_logged
    (s := { s with mem := { s.mem with palb := s.mem.palb.writeList 0 (s.paletteBytes off) } }) h hcap (by omega)
    (decide (min 32 (s.srcRest off) < 32)) .paletteShort off
  refine ⟨g1, c1, o1, e1, ?_⟩
  have hr : s.srcRest off = s.srcLen.toNat - off := rfl
  have hiff : (min 32 (s.srcRest off) < 32) ↔ s.srcLen.toNat < off + 32 := by omega
  simpa [hiff, Warning.code] using l1

theorem extract_pair_high (a b : Byte) : (a ++ b : BitVec 16).extractLsb' 8 8 = a := by
  refine BitVec.eq_of_toNat_eq ?_
  have := b.isLt
  rw [BitVec.extractLsb'_toNat, BitVec.toNat_append, ← Nat.shiftLeft_add_eq_or_of_lt this, Nat.shiftLeft_eq,
    Nat.shiftRight_eq_div_pow]
  omega

theorem extract_pair_low (a b : Byte) : (a ++ b : BitVec 16).extractLsb' 0 8 = b := by
  refine BitVec.eq_of_toNat_eq ?_
  have := b.isLt
  rw [BitVec.extractLsb'_toNat, BitVec.toNat_append, ← Nat.shiftLeft_add_eq_or_of_lt this, Nat.shiftLeft_eq,
    Nat.shiftRight_eq_div_pow]
  omega

/-- Two bytes as one word determine each other. -/
theorem pair_inj {a b c d : Byte} : (a ++ b : BitVec 16) = c ++ d ↔ a = c ∧ b = d := by
  constructor
  · intro h
    have h1 := congrArg (BitVec.extractLsb' 8 8) h
    have h2 := congrArg (BitVec.extractLsb' 0 8) h
    simp only [extract_pair_high, extract_pair_low] at h1 h2
    exact ⟨h1, h2⟩
  · rintro ⟨rfl, rfl⟩
    rfl

/-- The marker part: GRAPHIC_OFF, MARKER, and the warning for a missing or a wrong marker (R248, R250). -/
theorem State.parseMarker_eq {s : State} {w0 : Memory 32} {l : List (BitVec 8 × Nat)}
    (h : Logged w0 l s.mem.warnlog s.warnCnt s.warnOvf) (hcap : l.length < s.cfg.warnCap) (hl : l.length < 250)
    (off : Nat) :
    ∃ log cnt ovf, s.parseMarker off
        = ({ s with graphicOff := toWord off, marker := s.markerAt off } : State).withLog log cnt ovf ∧
      Logged w0 (l ++ if s.srcLen.toNat < off + 2 then [(6#8, off)]
        else if s.mem.src.read off ≠ 0x08#8 ∨ s.mem.src.read (off + 1) ≠ 0x08#8 then [(7#8, off)] else []) log cnt ovf := by
  have hr : s.srcRest off = s.srcLen.toNat - off := rfl
  by_cases h2 : s.srcLen.toNat < off + 2
  · obtain ⟨g1, c1, o1, e1, l1⟩ := State.warnIf_logged
      (s := { s with graphicOff := toWord off, marker := s.markerAt off }) h hcap (by omega) true .markerShort off
    refine ⟨g1, c1, o1, ?_, ?_⟩
    · rw [← e1, State.parseMarker]
      show (if s.srcRest off < 2 then _ else _) = _
      rw [if_pos (by omega)]
      rfl
    · rw [if_pos h2]
      simpa [Warning.code] using l1
  · obtain ⟨g1, c1, o1, e1, l1⟩ := State.warnIf_logged
      (s := { s with graphicOff := toWord off, marker := s.markerAt off }) h hcap (by omega)
      (decide (s.markerAt off ≠ 0x0808#16)) .markerMismatch off
    refine ⟨g1, c1, o1, ?_, ?_⟩
    · rw [← e1, State.parseMarker]
      show (if s.srcRest off < 2 then _ else _) = _
      rw [if_neg (by omega)]
    · rw [if_neg h2]
      have hm : s.markerAt off = s.mem.src.read off ++ s.mem.src.read (off + 1) := by
        rw [State.markerAt, if_pos (by omega), if_pos (by omega)]
      have hiff : (s.markerAt off ≠ 0x0808#16) ↔
          (s.mem.src.read off ≠ 0x08#8 ∨ s.mem.src.read (off + 1) ≠ 0x08#8) := by
        rw [hm, show (0x0808#16 : BitVec 16) = (0x08#8 ++ 0x08#8 : BitVec 16) from rfl, ne_eq, pair_inj]
        tauto
      simpa only [hiff, decide_eq_true_eq, Warning.code] using l1

end Sys2Proof.Machine
end

