-- ==== Sys2Proof/Laws/Reader.lean ====
section
/-! SUPPORT. The laws of the reader (40_bit_cursor.md R102 to R106, 41_length_code.md R131, R133): each primitive in terms of
the bits the reader still holds, `pendingBits`. -/

namespace Sys2Proof.Machine

/-- From `r` to `r'` the reader delivered exactly the bits `l` (R104, R118). -/
structure Delivers (q : Source) (r : Reader) (l : List Bool) (r' : Reader) : Prop where
  ok : r'.Ok
  pending : pendingBits q r = l ++ pendingBits q r'
  count : 8 * r'.off.toNat + r.cnt.toNat = 8 * r.off.toNat + r'.cnt.toNat + l.length
  fwd : r.off.toNat ≤ r'.off.toNat

/-- From `r` to `r'` the reader delivered every bit it held, and holds none (R103, R105). -/
structure Drains (q : Source) (r r' : Reader) : Prop where
  delivers : Delivers q r (pendingBits q r) r'
  cnt : r'.cnt = 0#5
  pending : pendingBits q r' = []

theorem Delivers.refl {q : Source} {r : Reader} (h : r.Ok) : Delivers q r [] r := ⟨h, rfl, rfl, le_refl _⟩

theorem Delivers.trans {q : Source} {r r' r'' : Reader} {l l' : List Bool} (h : Delivers q r l r')
    (h' : Delivers q r' l' r'') : Delivers q r (l ++ l') r'' :=
  ⟨h'.ok, by rw [h.pending, h'.pending, List.append_assoc], by
    have := h.count
    have := h'.count
    rw [List.length_append]
    omega, le_trans h.fwd h'.fwd⟩

theorem Delivers.drains {q : Source} {r r' r'' : Reader} {l : List Bool} (h : Delivers q r l r')
    (h' : Drains q r' r'') : Drains q r r'' :=
  ⟨by rw [h.pending]; exact h.trans h'.delivers, h'.cnt, h'.pending⟩

@[simp] theorem Reader.init_off (o : Word) : (Reader.init o).off = o := rfl
@[simp] theorem Reader.init_buf (o : Word) : (Reader.init o).buf = 0#16 := rfl
@[simp] theorem Reader.init_cnt (o : Word) : (Reader.init o).cnt = 0#5 := rfl

theorem Reader.ok_init (o : Word) : (Reader.init o).Ok := ⟨by simp, by simp⟩

/-- The pending bits of a reader whose RD_BUF is empty. -/
theorem pendingBits_empty {q : Source} {r : Reader} (h : r.cnt = 0#5) :
    pendingBits q r = byteBits q.mem r.off.toNat (usableBytes q r.off.toNat) := by
  simp [pendingBits, h]

theorem pendingBits_init (q : Source) (o : Word) :
    pendingBits q (Reader.init o) = byteBits q.mem o.toNat (usableBytes q o.toNat) := pendingBits_empty rfl

/-- Taking a bit out of RD_BUF. -/
theorem Reader.shift_delivers {q : Source} {r : Reader} (h : r.Ok) (hc : r.cnt ≠ 0#5) :
    Delivers q r [r.buf.msb] r.shift := by
  obtain ⟨h16, hz⟩ := h
  obtain ⟨c, hcc⟩ : ∃ c, r.cnt.toNat = c + 1 := by
    refine ⟨r.cnt.toNat - 1, ?_⟩
    have : r.cnt.toNat ≠ 0 := fun e => hc (BitVec.eq_of_toNat_eq (by simpa using e))
    omega
  have hc' : r.shift.cnt.toNat = c := by
    simp only [Reader.shift, BitVec.toNat_sub, hcc]
    simp
    omega
  have hb : r.shift.buf.toNat = 2 * r.buf.toNat % 2 ^ 16 := by
    simp [Reader.shift, Nat.shiftLeft_eq, Nat.mul_comm]
  have hc15 : c ≤ 15 := by omega
  refine ⟨⟨by omega, ?_⟩, ?_, ?_, le_refl _⟩
  · rw [hc', hb]
    rw [hcc] at hz
    obtain ⟨k, hk⟩ := Nat.dvd_of_mod_eq_zero hz
    refine Nat.mod_eq_zero_of_dvd ((Nat.dvd_mod_iff (pow_dvd_pow 2 (by omega))).2 ⟨k, ?_⟩)
    rw [hk, show 16 - c = (16 - (c + 1)) + 1 by omega, pow_succ]
    ring
  · unfold pendingBits
    rw [hcc, bitsOf_succ, hc', List.cons_append, List.cons_append, List.nil_append]
    have h1 : (r.buf.toNat / 2 ^ (16 - (c + 1))).testBit c = r.buf.msb := by
      rw [Nat.testBit_div_two_pow, show c + (16 - (c + 1)) = 15 by omega, BitVec.msb_eq_getLsbD_last]
      rfl
    have h2 : bitsOf (r.buf.toNat / 2 ^ (16 - (c + 1))) c = bitsOf (r.shift.buf.toNat / 2 ^ (16 - c)) c := by
      refine bitsOf_congr fun i hi => ?_
      rw [Nat.testBit_div_two_pow, Nat.testBit_div_two_pow, hb, Nat.testBit_mod_two_pow,
        show i + (16 - c) = (i + (16 - (c + 1))) + 1 by omega, Nat.testBit_succ,
        show 2 * r.buf.toNat / 2 = r.buf.toNat by omega]
      simp
      omega
    rw [h1, h2]
    rfl
  · have ho : r.shift.off = r.off := rfl
    rw [ho, hc', hcc]
    simp
    omega

/-- What a refill gives: a full or half buffer whose bits are the next ones of SRC. -/
theorem refill_some {q : Source} {r r' : Reader} (hc : r.cnt = 0#5) (h : refill q r = some r') :
    r'.cnt ≠ 0#5 ∧ Delivers q r [] r' := by
  unfold refill at h
  have hlen := q.len.isLt
  split at h
  · rename_i h2
    obtain rfl := Option.some.inj h
    have ho : (r.off + 2#32).toNat = r.off.toNat + 2 := by
      rw [BitVec.toNat_add]
      simp
      omega
    refine ⟨by simp, ⟨⟨by simp, by simp [Nat.mod_one]⟩, ?_, ?_, by rw [ho]; omega⟩⟩
    · rw [pendingBits_empty hc, List.nil_append, pendingBits]
      have hu : usableBytes q r.off.toNat = 2 + usableBytes q (r.off.toNat + 2) := by
        unfold usableBytes
        split <;> omega
      simp only [ho, hu, byteBits_add]
      congr 1
      rw [show (16#5).toNat = 16 from rfl, Nat.sub_self, pow_zero, Nat.div_one, pairWord, bitsOf_pair, byteBits_succ, byteBits_succ]
      simp
    · rw [ho, hc]
      simp
      omega
  · rename_i h2
    split at h
    · rename_i h1
      obtain rfl := Option.some.inj h
      have ho : (r.off + 1#32).toNat = r.off.toNat + 1 := by
        rw [BitVec.toNat_add]
        simp
        omega
      have hb : (pairWord (q.mem.read r.off.toNat) 0#8).toNat = 2 ^ 8 * (q.mem.read r.off.toNat).toNat := by
        rw [pairWord, BitVec.toNat_append, Nat.shiftLeft_eq, BitVec.toNat_zero, Nat.or_zero, Nat.mul_comm]
      refine ⟨by simp, ⟨⟨by simp, by simp only [hb]; simp⟩, ?_, ?_, by rw [ho]; omega⟩⟩
      · rw [pendingBits_empty hc, List.nil_append, pendingBits]
        have hu : usableBytes q r.off.toNat = 1 + usableBytes q (r.off.toNat + 1) := by
          simp only [usableBytes, h1.2]
          omega
        simp only [ho, hu, byteBits_add, hb]
        congr 1
        rw [byteBits_succ]
        simp
      · rw [ho, hc]
        simp
        omega
    · simp at h

/-- When a refill gives nothing, nothing is left. -/
theorem refill_none {q : Source} {r : Reader} (hc : r.cnt = 0#5) (h : refill q r = none) : pendingBits q r = [] := by
  rw [pendingBits_empty hc]
  have hu : usableBytes q r.off.toNat = 0 := by
    unfold refill at h
    split at h
    · simp at h
    · rename_i h2
      split at h
      · simp at h
      · rename_i h1
        unfold usableBytes
        split
        · omega
        · rename_i ht
          rw [ht] at h1
          simp at h1
          omega
  rw [hu, byteBits_zero]

/-- ReadBit takes the first pending bit (R104). -/
theorem readBit_cons {q : Source} {r : Reader} (h : r.Ok) {b : Bool} {l : List Bool} (hp : pendingBits q r = b :: l) :
    ∃ r', readBit q r = .got b r' ∧ Delivers q r [b] r' ∧ pendingBits q r' = l := by
  unfold readBit
  split
  · rename_i hc
    split
    · rename_i r1 hr
      obtain ⟨hn, hd⟩ := refill_some hc hr
      have hs := Reader.shift_delivers (q := q) hd.ok hn
      have := hd.trans hs
      have hb : b = r1.buf.msb ∧ l = pendingBits q r1.shift := by
        have h1 := this.pending
        rw [hp] at h1
        simpa using h1
      rw [hb.1]
      exact ⟨_, rfl, this, hb.2.symm⟩
    · rename_i hr
      rw [refill_none hc hr] at hp
      simp at hp
  · rename_i hc
    have hs := Reader.shift_delivers (q := q) h hc
    have hb : b = r.buf.msb ∧ l = pendingBits q r.shift := by
      have h1 := hs.pending
      rw [hp] at h1
      simpa using h1
    rw [hb.1]
    exact ⟨_, rfl, hs, hb.2.symm⟩

/-- With no pending bit ReadBit answers EXHAUSTED and changes nothing (R103, R104). -/
theorem readBit_nil {q : Source} {r : Reader} (h : r.Ok) (hp : pendingBits q r = []) :
    readBit q r = .exhausted r ∧ r.cnt = 0#5 := by
  unfold readBit
  split
  · rename_i hc
    split
    · rename_i r1 hr
      obtain ⟨hn, hd⟩ := refill_some hc hr
      have := (hd.trans (Reader.shift_delivers hd.ok hn)).pending
      rw [hp] at this
      simp at this
    · exact ⟨rfl, hc⟩
  · rename_i hc
    have := (Reader.shift_delivers (q := q) h hc).pending
    rw [hp] at this
    simp at this

/-- With no pending bit the reader is drained already. -/
theorem Drains.refl {q : Source} {r : Reader} (h : r.Ok) (hp : pendingBits q r = []) : Drains q r r :=
  ⟨by rw [hp]; exact Delivers.refl h, (readBit_nil h hp).2, hp⟩

theorem readBitsFrom_got {q : Source} (l : List Bool) {r : Reader} (h : r.Ok) (v : Nat) {rest : List Bool}
    (hp : pendingBits q r = l ++ rest) :
    ∃ r', readBitsFrom q l.length v r = .got (v * 2 ^ l.length + natOfBits l) r' ∧ Delivers q r l r' ∧
      pendingBits q r' = rest := by
  induction l generalizing r v with
  | nil => exact ⟨r, by simp [readBitsFrom], Delivers.refl h, hp⟩
  | cons b l ih =>
    obtain ⟨r1, h1, d1, p1⟩ := readBit_cons h hp
    obtain ⟨r2, h2, d2, p2⟩ := ih d1.ok (2 * v + b.toNat) p1
    refine ⟨r2, ?_, d1.trans d2, p2⟩
    rw [List.length_cons, readBitsFrom, h1, Read.andThen, h2, natOfBits_cons, pow_succ]
    congr 1
    ring

theorem readBitsFrom_exhausted {q : Source} (n : Nat) {r : Reader} (h : r.Ok) (v : Nat)
    (hp : (pendingBits q r).length < n) : ∃ r', readBitsFrom q n v r = .exhausted r' ∧ Drains q r r' := by
  induction n generalizing r v with
  | zero => omega
  | succ n ih =>
    rw [readBitsFrom]
    rcases hb : pendingBits q r with _ | ⟨b, l⟩
    · rw [(readBit_nil h hb).1]
      exact ⟨r, rfl, Drains.refl h hb⟩
    · obtain ⟨r1, h1, d1, p1⟩ := readBit_cons h hb
      rw [hb, List.length_cons] at hp
      obtain ⟨r2, h2, d2⟩ := ih d1.ok (2 * v + b.toNat) (by rw [p1]; omega)
      rw [h1]
      exact ⟨r2, h2, d1.drains d2⟩

/-- ReadBits(n) with the bits `l` first among those pending, `n` of them (R105). -/
theorem readBits_got {q : Source} {l : List Bool} {r : Reader} (h : r.Ok) {rest : List Bool}
    (hp : pendingBits q r = l ++ rest) {n : Nat} (hn : l.length = n) :
    ∃ r', readBits q n r = .got (natOfBits l) r' ∧ Delivers q r l r' ∧ pendingBits q r' = rest := by
  subst hn
  obtain ⟨r', h1, h2, h3⟩ := readBitsFrom_got l h 0 hp
  exact ⟨r', by simpa [readBits] using h1, h2, h3⟩

/-- ReadBits(n) of a value written out in `n` bits (R105). -/
theorem readBits_bitsOf {q : Source} {v n : Nat} (hv : v < 2 ^ n) {r : Reader} (h : r.Ok) {rest : List Bool}
    (hp : pendingBits q r = bitsOf v n ++ rest) :
    ∃ r', readBits q n r = .got v r' ∧ Delivers q r (bitsOf v n) r' ∧ pendingBits q r' = rest := by
  obtain ⟨r', h1, h2, h3⟩ := readBits_got h hp (length_bitsOf v n)
  rw [natOfBits_bitsOf, Nat.mod_eq_of_lt hv] at h1
  exact ⟨r', h1, h2, h3⟩

/-- ReadBits(n) with fewer than `n` bits left takes them all (R105). -/
theorem readBits_exhausted {q : Source} {r : Reader} (h : r.Ok) {n : Nat} (hp : (pendingBits q r).length < n) :
    ∃ r', readBits q n r = .exhausted r' ∧ Drains q r r' := readBitsFrom_exhausted n h 0 hp

/-- Either `n` bits are left, and ReadBits(n) delivers them, or it takes all that are left. -/
theorem readBits_cases (q : Source) {r : Reader} (h : r.Ok) (n : Nat) :
    (∃ r', readBits q n r = .got (natOfBits ((pendingBits q r).take n)) r' ∧
      Delivers q r ((pendingBits q r).take n) r' ∧ n ≤ (pendingBits q r).length) ∨
    ∃ r', readBits q n r = .exhausted r' ∧ Drains q r r' ∧ (pendingBits q r).length < n := by
  rcases Nat.lt_or_ge (pendingBits q r).length n with hl | hl
  · obtain ⟨r', h1, h2⟩ := readBits_exhausted h hl
    exact .inr ⟨r', h1, h2, hl⟩
  · obtain ⟨r', h1, h2, -⟩ := readBits_got h (List.take_append_drop n (pendingBits q r)).symm (List.length_take_of_le hl)
    exact .inl ⟨r', h1, h2, hl⟩

/-- The fuel of LcDecode covers every bit the reader can still deliver (notes/assumptions/14.md). -/
theorem length_pendingBits_le (q : Source) (r : Reader) : (pendingBits q r).length ≤ bitsLeft q r := by
  simp only [pendingBits, List.length_append, length_bitsOf, length_byteBits, bitsLeft]
  have : usableBytes q r.off.toNat ≤ q.len.toNat - r.off.toNat := by
    unfold usableBytes
    split <;> omega
  omega

theorem countZeros_got {q : Source} (n : Nat) {m k : Nat} (hm : n < m) {r : Reader} (h : r.Ok) {rest : List Bool}
    (hp : pendingBits q r = List.replicate n false ++ true :: rest) :
    ∃ r', countZeros q m k r = .got (k + n) r' ∧ Delivers q r (List.replicate n false ++ [true]) r' ∧
      pendingBits q r' = rest := by
  induction n generalizing m k r with
  | zero =>
    obtain ⟨m, rfl⟩ : ∃ m', m = m' + 1 := ⟨m - 1, by omega⟩
    obtain ⟨r1, h1, d1, p1⟩ := readBit_cons h hp
    exact ⟨r1, by simp [countZeros, h1, Read.andThen], d1, p1⟩
  | succ n ih =>
    obtain ⟨m, rfl⟩ : ∃ m', m = m' + 1 := ⟨m - 1, by omega⟩
    rw [List.replicate_succ, List.cons_append] at hp
    obtain ⟨r1, h1, d1, p1⟩ := readBit_cons h hp
    obtain ⟨r2, h2, d2, p2⟩ := ih (m := m) (k := k + 1) (by omega) d1.ok p1
    refine ⟨r2, ?_, ?_, p2⟩
    · simp only [countZeros, h1, Read.andThen, Bool.false_eq_true, if_false, h2]
      congr 1
      omega
    · rw [List.replicate_succ]
      exact d1.trans d2

theorem countZeros_exhausted {q : Source} {m k : Nat} {r : Reader} (h : r.Ok) (hm : (pendingBits q r).length < m)
    (hp : ∀ b ∈ pendingBits q r, b = false) : ∃ r', countZeros q m k r = .exhausted r' ∧ Drains q r r' := by
  induction m generalizing k r with
  | zero => omega
  | succ m ih =>
    rw [countZeros]
    rcases hb : pendingBits q r with _ | ⟨b, l⟩
    · rw [(readBit_nil h hb).1]
      exact ⟨r, rfl, Drains.refl h hb⟩
    · obtain ⟨r1, h1, d1, p1⟩ := readBit_cons h hb
      rw [hb] at hp hm
      have hb0 : b = false := hp b (by simp)
      subst hb0
      obtain ⟨r2, h2, d2⟩ := ih (k := k + 1) d1.ok (by rw [p1]; simp at hm; omega) (by rw [p1]; exact fun b hb => hp b (by simp [hb]))
      simp only [h1, Read.andThen, Bool.false_eq_true, if_false]
      exact ⟨r2, h2, d1.drains d2⟩

/-- LcDecode reads a whole symbol (R131). -/
theorem lcDecode_got {q : Source} {k v : Nat} (hv : v < 2 ^ (k + 1)) {r : Reader} (h : r.Ok) {rest : List Bool}
    (hp : pendingBits q r = lcSymbol k v ++ rest) :
    ∃ r', lcDecode q r = .got (2 ^ (k + 1) - 2 + v) r' ∧ Delivers q r (lcSymbol k v) r' ∧ pendingBits q r' = rest := by
  have hk : k < bitsLeft q r + 1 := by
    have := length_pendingBits_le q r
    rw [hp, List.length_append, length_lcSymbol] at this
    omega
  have hp' : pendingBits q r = List.replicate k false ++ true :: (bitsOf v (k + 1) ++ rest) := by
    rw [hp, lcSymbol]
    simp
  obtain ⟨r1, h1, d1, p1⟩ := countZeros_got (k := 0) k hk h hp'
  obtain ⟨r2, h2, d2, p2⟩ := readBits_bitsOf hv d1.ok p1
  refine ⟨r2, ?_, ?_, p2⟩
  · simp only [lcDecode, h1, Read.andThen, Nat.zero_add, h2]
  · have := d1.trans d2
    rwa [List.append_assoc] at this

/-- LcDecodeSat reads a whole symbol and saturates its value (R133). -/
theorem lcDecodeSat_got {q : Source} {k v : Nat} (hv : v < 2 ^ (k + 1)) {r : Reader} (h : r.Ok) {rest : List Bool}
    (hp : pendingBits q r = lcSymbol k v ++ rest) :
    ∃ r', lcDecodeSat q r = .got (min (2 ^ (k + 1) - 2 + v) (2 ^ 32 - 1)) r' ∧ Delivers q r (lcSymbol k v) r' ∧
      pendingBits q r' = rest := by
  obtain ⟨r1, h1, d1, p1⟩ := lcDecode_got hv h hp
  exact ⟨r1, by simp only [lcDecodeSat, h1, Read.andThen], d1, p1⟩

/-- The bits `l` start with no whole Length Code symbol. -/
def NoSymbol (l : List Bool) : Prop := ∀ k v rest, v < 2 ^ (k + 1) → l ≠ lcSymbol k v ++ rest

/-- A bit string starts with a run of zeros that a one ends, or it is all zeros. -/
theorem unary_cases (l : List Bool) :
    (∃ k rest, l = List.replicate k false ++ true :: rest) ∨ ∀ b ∈ l, b = false := by
  induction l with
  | nil => exact .inr (by simp)
  | cons b l ih =>
    cases b with
    | true => exact .inl ⟨0, l, rfl⟩
    | false =>
      rcases ih with ⟨k, rest, rfl⟩ | h
      · exact .inl ⟨k + 1, rest, rfl⟩
      · exact .inr (by simpa using h)

/-- A bit string starts with a whole symbol or with none. -/
theorem symbol_cases (l : List Bool) :
    (∃ k v rest, v < 2 ^ (k + 1) ∧ l = lcSymbol k v ++ rest) ∨ NoSymbol l := by
  by_cases h : NoSymbol l
  · exact .inr h
  · unfold NoSymbol at h
    push Not at h
    exact .inl h

/-- LcDecode of bits that start with no whole symbol takes them all (R131, R137). -/
theorem lcDecode_exhausted {q : Source} {r : Reader} (h : r.Ok) (hp : NoSymbol (pendingBits q r)) :
    ∃ r', lcDecode q r = .exhausted r' ∧ Drains q r r' := by
  have hlen := length_pendingBits_le q r
  rcases unary_cases (pendingBits q r) with ⟨k, rest, hr⟩ | hz
  · have hk : k < bitsLeft q r + 1 := by
      rw [hr, List.length_append, List.length_replicate] at hlen
      omega
    obtain ⟨r1, h1, d1, p1⟩ := countZeros_got (k := 0) k hk h hr
    rcases readBits_cases q d1.ok (k + 1) with ⟨r2, -, d2, hl⟩ | ⟨r2, h2, d2, -⟩
    · exfalso
      refine hp k (natOfBits (rest.take (k + 1))) (rest.drop (k + 1)) ?_ ?_
      · have := natOfBits_lt (rest.take (k + 1))
        rw [p1] at hl
        simpa [hl] using this
      · rw [p1] at hl
        have : bitsOf (natOfBits (rest.take (k + 1))) (k + 1) = rest.take (k + 1) := by
          have := bitsOf_natOfBits (rest.take (k + 1))
          rwa [List.length_take_of_le hl] at this
        rw [hr, lcSymbol, this]
        simp
    · refine ⟨r2, ?_, d1.drains d2⟩
      simp only [lcDecode, h1, Read.andThen, Nat.zero_add, h2]
  · obtain ⟨r1, h1, d1⟩ := countZeros_exhausted (k := 0) h (m := bitsLeft q r + 1) (by omega) hz
    exact ⟨r1, by simp only [lcDecode, h1, Read.andThen], d1⟩

theorem lcDecodeSat_exhausted {q : Source} {r : Reader} (h : r.Ok) (hp : NoSymbol (pendingBits q r)) :
    ∃ r', lcDecodeSat q r = .exhausted r' ∧ Drains q r r' := by
  obtain ⟨r1, h1, d1⟩ := lcDecode_exhausted h hp
  exact ⟨r1, by simp only [lcDecodeSat, h1, Read.andThen], d1⟩

end Sys2Proof.Machine
end

