-- ==== Sys2Proof/Laws/LengthCode.lean ====
section
/-! SUPPORT. The laws of LcK (41_length_code.md R132, R134): the range of each zero count. -/

namespace Sys2Proof.Machine

theorem two_le_two_pow_succ (k : Nat) : 2 ≤ 2 ^ (k + 1) := by
  have := Nat.one_le_two_pow (n := k)
  rw [pow_succ]
  omega

theorem lcKFrom_spec (len m k : Nat) (hk : 2 ^ (k + 1) - 2 ≤ len) (hm : len < 2 ^ (k + m + 2) - 2) :
    2 ^ (lcKFrom len m k + 1) - 2 ≤ len ∧ len < 2 ^ (lcKFrom len m k + 2) - 2 := by
  induction m generalizing k with
  | zero => exact ⟨hk, hm⟩
  | succ m ih =>
    rw [lcKFrom]
    split
    · rename_i h
      exact ⟨hk, h⟩
    · rename_i h
      exact ih (k + 1) (by rw [show k + 1 + 1 = k + 2 by omega]; omega) (by rwa [show k + 1 + m + 2 = k + (m + 1) + 2 by omega])

/-- A value lies in the range of its zero count (R132). -/
theorem lcK_range (len : Nat) : 2 ^ (lcK len + 1) - 2 ≤ len ∧ len < 2 ^ (lcK len + 2) - 2 := by
  refine lcKFrom_spec len len 0 (by simp) ?_
  have := Nat.lt_two_pow_self (n := len)
  rw [Nat.zero_add, pow_add]
  omega

/-- The zero count of a value in the range of `k` is `k`. -/
theorem lcK_symbol {k v : Nat} (hv : v < 2 ^ (k + 1)) : lcK (2 ^ (k + 1) - 2 + v) = k := by
  obtain ⟨h1, h2⟩ := lcK_range (2 ^ (k + 1) - 2 + v)
  have hk := two_le_two_pow_succ k
  have hl : 2 ^ (k + 1) - 2 + v < 2 ^ (k + 2) - 2 := by
    rw [pow_succ 2 (k + 1)]
    omega
  by_contra hne
  rcases Nat.lt_or_gt_of_ne hne with h | h
  · have : 2 ^ (lcK (2 ^ (k + 1) - 2 + v) + 2) ≤ 2 ^ (k + 1) := pow_le_pow_right₀ (by norm_num) (by omega)
    omega
  · have : 2 ^ (k + 2) ≤ 2 ^ (lcK (2 ^ (k + 1) - 2 + v) + 1) := pow_le_pow_right₀ (by norm_num) (by omega)
    omega

/-- The bits of a value are those of its symbol. -/
theorem lcBits_symbol {k v : Nat} (hv : v < 2 ^ (k + 1)) : lcBits (2 ^ (k + 1) - 2 + v) = lcSymbol k v := by
  rw [lcBits, lcK_symbol hv, Nat.add_sub_cancel_left]

theorem lcV_lt (len : Nat) : len - (2 ^ (lcK len + 1) - 2) < 2 ^ (lcK len + 1) := by
  obtain ⟨h1, h2⟩ := lcK_range len
  have := two_le_two_pow_succ (lcK len)
  rw [pow_succ 2 (lcK len + 1)] at h2
  omega

@[simp] theorem length_lcBits (len : Nat) : (lcBits len).length = 2 * lcK len + 2 := by
  rw [lcBits, length_lcSymbol]

/-- LcDecodeSat reads the symbol of a value back, saturated (R133). -/
theorem lcDecodeSat_lcBits {q : Source} {len : Nat} {r : Reader} (h : r.Ok) {rest : List Bool}
    (hp : pendingBits q r = lcBits len ++ rest) :
    ∃ r', lcDecodeSat q r = .got (min len (2 ^ 32 - 1)) r' ∧ Delivers q r (lcBits len) r' ∧
      pendingBits q r' = rest := by
  have hv := lcV_lt len
  obtain ⟨r', h1, h2⟩ := lcDecodeSat_got hv h hp
  rw [show 2 ^ (lcK len + 1) - 2 + (len - (2 ^ (lcK len + 1) - 2)) = len by
    have := (lcK_range len).1
    omega] at h1
  exact ⟨r', h1, h2⟩

/-- LcDecodeSat either reads the symbol of some value, or takes all the bits that are left. -/
theorem lcDecodeSat_cases (q : Source) {r : Reader} (h : r.Ok) :
    (∃ len rest r', pendingBits q r = lcBits len ++ rest ∧ lcDecodeSat q r = .got (min len (2 ^ 32 - 1)) r' ∧
      Delivers q r (lcBits len) r' ∧ pendingBits q r' = rest) ∨
    ∃ r', lcDecodeSat q r = .exhausted r' ∧ Drains q r r' ∧ NoSymbol (pendingBits q r) := by
  rcases symbol_cases (pendingBits q r) with ⟨k, v, rest, hv, hp⟩ | hn
  · rw [← lcBits_symbol hv] at hp
    obtain ⟨r', h1, h2, h3⟩ := lcDecodeSat_lcBits h hp
    exact .inl ⟨_, rest, r', hp, h1, h2, h3⟩
  · obtain ⟨r', h1, h2⟩ := lcDecodeSat_exhausted h hn
    exact .inr ⟨r', h1, h2, hn⟩

end Sys2Proof.Machine
end

