-- ==== Sys2Proof/Laws/Loop.lean ====
section
/-! SUPPORT. The laws of the loop under the iteration ceiling (43_decoder.md R182, 60_exceptions.md R284): one turn, an
invariant, the endings it can have, and that a decreasing measure keeps it below the ceiling. -/

namespace Sys2Proof.Machine

variable {σ : Type} {more : σ → Bool} {turn : σ → Turn σ}

/-- The loop ends normally where its condition fails. -/
theorem tickLoop_done (n : Nat) {x : σ} (h : more x = false) : tickLoop more turn n x = (.normal, x) := by
  cases n <;> simp [tickLoop, h]

/-- A turn that goes on costs one Tick. -/
theorem tickLoop_again (n : Nat) {x y : σ} (h : more x = true) (ht : turn x = .again y) :
    tickLoop more turn (n + 1) x = tickLoop more turn n y := by
  simp [tickLoop, h, ht]

/-- A turn that stops ends the loop. -/
theorem tickLoop_stop (n : Nat) {x y : σ} {e : Ending} (h : more x = true) (ht : turn x = .stop e y) :
    tickLoop more turn (n + 1) x = (e, y) := by
  simp [tickLoop, h, ht]

/-- The Tick after the last allowed one raises RUNTIME_INVARIANT_FAILURE and changes nothing (R284). -/
theorem tickLoop_ceiling {x : σ} (h : more x = true) :
    tickLoop more turn 0 x = (.raised .runtimeInvariantFailure, x) := by
  simp [tickLoop, h]

/-- What every turn keeps, the loop keeps. -/
theorem tickLoop_invariant {P : σ → Prop} (hagain : ∀ x y, more x = true → P x → turn x = .again y → P y)
    (hstop : ∀ x e y, more x = true → P x → turn x = .stop e y → P y) (n : Nat) {x : σ} (h : P x) :
    P (tickLoop more turn n x).2 := by
  induction n generalizing x with
  | zero => rw [tickLoop]; split <;> exact h
  | succ n ih =>
    rw [tickLoop]
    split
    · rename_i hm
      rcases ht : turn x with y | ⟨e, y⟩
      · exact ih (hagain x y hm h ht)
      · exact hstop x e y hm h ht
    · exact h

/-- The endings of a loop: its condition failed, the ceiling, or the ending of one of its turns. -/
theorem tickLoop_ending {Q : Ending → Prop} (hn : Q .normal) (hr : Q (.raised .runtimeInvariantFailure))
    (hstop : ∀ x e y, turn x = .stop e y → Q e) (n : Nat) (x : σ) : Q (tickLoop more turn n x).1 := by
  induction n generalizing x with
  | zero => rw [tickLoop]; split <;> assumption
  | succ n ih =>
    rw [tickLoop]
    split
    · rcases ht : turn x with y | ⟨e, y⟩
      · exact ih y
      · exact hstop x e y ht
    · exact hn

/-- A loop whose turns lower a measure that starts within the ceiling never reaches the ceiling. -/
theorem tickLoop_below {P : σ → Prop} (μ : σ → Nat) {Q : Ending → Prop} (hn : Q .normal)
    (hpos : ∀ x, P x → more x = true → 0 < μ x)
    (hagain : ∀ x y, more x = true → P x → turn x = .again y → P y ∧ μ y < μ x)
    (hstop : ∀ x e y, more x = true → P x → turn x = .stop e y → Q e) (n : Nat) {x : σ} (h : P x) (hx : μ x ≤ n) :
    Q (tickLoop more turn n x).1 := by
  induction n generalizing x with
  | zero =>
    rw [tickLoop]
    split
    · rename_i hm
      have := hpos x h hm
      omega
    · exact hn
  | succ n ih =>
    rw [tickLoop]
    split
    · rename_i hm
      rcases ht : turn x with y | ⟨e, y⟩
      · obtain ⟨hp, hlt⟩ := hagain x y hm h ht
        exact ih hp (by omega)
      · exact hstop x e y hm h ht
    · exact hn

end Sys2Proof.Machine
end

