-- ==== Sys2Proof/Laws/DecoderB.lean ====
section
/-! SUPPORT. The laws of the Variant B decoder (43_decoder.md R195 to R202): what one turn of the loop does on a whole run,
what it does on bits that start with no whole run, and what the loop does on a sequence of runs. -/

namespace Sys2Proof.Machine

/-- A pixel read back from its four bits. -/
theorem toPixel_toNat (v : Pixel) : toPixel v.toNat = v := BitVec.eq_of_toNat_eq (by simp [toPixel])

theorem toPixel_natOfBits {l : List Bool} (h : l.length = 4) : (toPixel (natOfBits l)).toNat = natOfBits l := by
  have := natOfBits_lt l
  rw [h] at this
  simpa [toPixel] using this

/-- The bits of a sentinel, from any three bits. -/
theorem sentinel_of_bits {l : List Bool} (h : l.length = 3) : ∃ s : BitVec 3, bitsOf s.toNat 3 = l := by
  have := natOfBits_lt l
  rw [h] at this
  refine ⟨BitVec.ofNat 3 (natOfBits l), ?_⟩
  rw [BitVec.toNat_ofNat, Nat.mod_eq_of_lt this, ← h, bitsOf_natOfBits]

/-! ## What the stores of a run do -/

/-- A read after the copy-down (R199). -/
theorem read_copyDownLeft (pos off : Nat) (v : Pixel) (m : Memory 4) (p : Nat) :
    (copyDownLeft pos off v m).read p =
      if p < 4096 ∧ off ≠ 0 ∧ p = pos + 64 - off then v else m.read p := by
  rw [copyDownLeft, show Config.imgSide = 64 from rfl, show Config.imgSize = 4096 from rfl]
  by_cases h : off ≠ 0 ∧ pos + 64 - off < 4096
  · rw [if_pos h, Memory.read_write]
    by_cases hp : p = pos + 64 - off
    · rw [if_pos hp, if_pos ⟨by omega, h.1, hp⟩]
    · rw [if_neg hp, if_neg (fun hh => hp hh.2.2)]
  · rw [if_neg h, if_neg]
    rintro ⟨h1, h2, h3⟩
    exact h ⟨h2, by omega⟩

/-- A read after the replicate loop (R201). -/
theorem read_replicateRun {pos : Nat} (hpos : pos < 4096) (len : Nat) (v : Pixel) (m : Memory 4) (p : Nat) :
    (replicateRun pos len v m).read p = if p < 4096 ∧ pos < p ∧ p < pos + len then v else m.read p := by
  unfold replicateRun
  simp only [Config.imgSize]
  rw [Memory.read_writeList, List.length_replicate]
  by_cases h : p < 4096 ∧ pos < p ∧ p < pos + len
  · rw [if_pos h, if_pos (by omega), List.getD_eq_getElem?_getD, List.getElem?_replicate, if_pos (by omega)]
    rfl
  · rw [if_neg h, if_neg (by omega)]

theorem copyDownLeft_ok {cap : Nat} (hcap : 4096 ≤ cap) {m : Memory 4} (h : m.Ok cap) (pos off : Nat) (v : Pixel) :
    (copyDownLeft pos off v m).Ok cap := by
  rw [copyDownLeft, show Config.imgSide = 64 from rfl, show Config.imgSize = 4096 from rfl]
  by_cases hc : off ≠ 0 ∧ pos + 64 - off < 4096
  · rw [if_pos hc]
    exact Memory.Ok.write h (by omega)
  · rw [if_neg hc]
    exact h

theorem replicateRun_ok {cap : Nat} (hcap : 4096 ≤ cap) {m : Memory 4} (h : m.Ok cap) {pos : Nat} (hpos : pos < 4096)
    (len : Nat) (v : Pixel) : (replicateRun pos len v m).Ok cap := by
  unfold replicateRun
  simp only [Config.imgSize]
  exact Memory.Ok.writeList h (by simp; omega)

/-! ## The flag, the copy-down code and the sentinel -/

/-- The bits of a flag part after the flag bit. -/
def FlagB.tail : FlagB → List Bool
  | .zero => []
  | .none sent => [false, false] ++ bitsOf sent.toNat 3
  | .left1 sent => true :: bitsOf sent.toNat 3
  | .left2 pad sent => [false, true, pad] ++ bitsOf sent.toNat 3

/-- The flag bit. -/
def FlagB.flag : FlagB → Bool
  | .zero => false
  | .none _ => true
  | .left1 _ => true
  | .left2 _ _ => true

theorem FlagB.bits_eq (x : FlagB) : x.bits = x.flag :: x.tail := by cases x <;> rfl

theorem FlagB.left_le (x : FlagB) : x.left ≤ 2 := by cases x <;> simp [FlagB.left]

/-- The copy-down code, read whole (R199). -/
theorem readCopyDown_got {q : Source} {r : Reader} (h : r.Ok) {x : FlagB} (hx : x ≠ .zero) {rest : List Bool}
    (hp : pendingBits q r = x.tail ++ rest) :
    ∃ l sent r', x.tail = l ++ bitsOf sent 3 ∧ sent < 2 ^ 3 ∧ readCopyDown q r = .got x.left r' ∧ Delivers q r l r' ∧
      pendingBits q r' = bitsOf sent 3 ++ rest := by
  cases x with
  | zero => exact absurd rfl hx
  | none sent =>
    simp only [FlagB.tail, List.cons_append, List.nil_append] at hp
    obtain ⟨r1, h1, d1, p1⟩ := readBit_cons h hp
    obtain ⟨r2, h2, d2, p2⟩ := readBit_cons d1.ok p1
    exact ⟨[false, false], sent.toNat, r2, rfl, sent.isLt, by simp [readCopyDown, h1, h2, Read.andThen, FlagB.left],
      d1.trans d2, p2⟩
  | left1 sent =>
    simp only [FlagB.tail, List.cons_append] at hp
    obtain ⟨r1, h1, d1, p1⟩ := readBit_cons h hp
    exact ⟨[true], sent.toNat, r1, rfl, sent.isLt, by simp [readCopyDown, h1, Read.andThen, FlagB.left], d1, p1⟩
  | left2 pad sent =>
    simp only [FlagB.tail, List.cons_append, List.nil_append] at hp
    obtain ⟨r1, h1, d1, p1⟩ := readBit_cons h hp
    obtain ⟨r2, h2, d2, p2⟩ := readBit_cons d1.ok p1
    obtain ⟨r3, h3, d3, p3⟩ := readBit_cons d2.ok p2
    exact ⟨[false, true, pad], sent.toNat, r3, rfl, sent.isLt,
      by simp [readCopyDown, h1, h2, h3, Read.andThen, FlagB.left], (d1.trans d2).trans d3, p3⟩

/-- The copy-down code either is read whole or takes all the bits; `cutFlag` gives the choice as far as it was read. -/
theorem readCopyDown_cases (q : Source) {r : Reader} (h : r.Ok) :
    (∃ l r', readCopyDown q r = .got (cutFlag (true :: pendingBits q r)).left r' ∧ Delivers q r l r' ∧
      ∀ sent : BitVec 3, ∃ x : FlagB, x.bits = true :: l ++ bitsOf sent.toNat 3 ∧
        x.left = (cutFlag (true :: pendingBits q r)).left) ∨
    ∃ r', readCopyDown q r = .exhausted r' ∧ Drains q r r' ∧ (cutFlag (true :: pendingBits q r)).left = 0 := by
  rcases hb : pendingBits q r with _ | ⟨a, l⟩
  · exact .inr ⟨r, by simp [readCopyDown, (readBit_nil h hb).1, Read.andThen], Drains.refl h hb, rfl⟩
  obtain ⟨r1, h1, d1, p1⟩ := readBit_cons h hb
  cases a with
  | true =>
    exact .inl ⟨[true], r1, by simp [readCopyDown, h1, Read.andThen, cutFlag, FlagB.left], d1,
      fun s => ⟨.left1 s, rfl, rfl⟩⟩
  | false =>
    rcases l with _ | ⟨c, l⟩
    · exact .inr ⟨r1, by simp [readCopyDown, h1, (readBit_nil d1.ok p1).1, Read.andThen],
        d1.drains (Drains.refl d1.ok p1), rfl⟩
    obtain ⟨r2, h2, d2, p2⟩ := readBit_cons d1.ok p1
    cases c with
    | false =>
      exact .inl ⟨[false, false], r2, by simp [readCopyDown, h1, h2, Read.andThen, cutFlag, FlagB.left], d1.trans d2,
        fun s => ⟨.none s, rfl, rfl⟩⟩
    | true =>
      rcases l with _ | ⟨e, l⟩
      · exact .inr ⟨r2, by simp [readCopyDown, h1, h2, (readBit_nil d2.ok p2).1, Read.andThen],
          (d1.trans d2).drains (Drains.refl d2.ok p2), rfl⟩
      obtain ⟨r3, h3, d3, p3⟩ := readBit_cons d2.ok p2
      exact .inl ⟨[false, true, e], r3, by simp [readCopyDown, h1, h2, h3, Read.andThen, cutFlag, FlagB.left],
        (d1.trans d2).trans d3, fun s => ⟨.left2 e s, rfl, rfl⟩⟩

/-- The flag part, read whole: its store and its bits (R199, R200). -/
theorem flagPart_got {q : Source} {r : Reader} (h : r.Ok) (pos : Nat) (v : Pixel) (m : Memory 4) (x : FlagB)
    {rest : List Bool} (hp : pendingBits q r = x.tail ++ rest) :
    ∃ r', flagPart q pos v x.flag { rd := r, pix := m } = (.normal, { rd := r', pix := copyDownLeft pos x.left v m }) ∧
      Delivers q r x.tail r' ∧ pendingBits q r' = rest := by
  by_cases hx : x = .zero
  · subst hx
    exact ⟨r, by simp [flagPart, FlagB.flag, copyDownLeft, FlagB.left], Delivers.refl h, hp⟩
  · obtain ⟨l, sent, r1, hl, hs, h1, d1, p1⟩ := readCopyDown_got h hx hp
    obtain ⟨r2, h2, d2, p2⟩ := readBits_bitsOf hs d1.ok p1
    have hf : x.flag = true := by cases x <;> simp_all [FlagB.flag]
    exact ⟨r2, by simp only [flagPart, hf, if_true, h1, h2], hl ▸ d1.trans d2, p2⟩

/-- The flag bit and its part, with everything they can do; `cutFlag` gives the copy-down either way. -/
theorem flagPart_cases (q : Source) {r : Reader} (h : r.Ok) (pos : Nat) (v : Pixel) (m : Memory 4) (f : Bool) :
    ∃ (e : Ending) (r' : Reader), flagPart q pos v f { rd := r, pix := m }
        = (e, { rd := r', pix := copyDownLeft pos (cutFlag (f :: pendingBits q r)).left v m }) ∧
      ((e = .normal ∧ ∃ x : FlagB, f :: x.tail = x.bits ∧ Delivers q r x.tail r') ∨ e = .truncated ∧ Drains q r r') := by
  cases f with
  | false => exact ⟨.normal, r, by simp [flagPart, copyDownLeft, cutFlag, FlagB.left], .inl ⟨rfl, .zero, rfl, Delivers.refl h⟩⟩
  | true =>
    rcases readCopyDown_cases q h with ⟨l, r1, h1, d1, hx⟩ | ⟨r1, h1, d1, h0⟩
    · rcases readBits_cases q d1.ok 3 with ⟨r2, h2, d2, hl⟩ | ⟨r2, h2, d2, -⟩
      · obtain ⟨sent, hs⟩ := sentinel_of_bits (List.length_take_of_le hl)
        obtain ⟨x, hb, -⟩ := hx sent
        have ht : x.tail = l ++ bitsOf sent.toNat 3 := by
          rw [FlagB.bits_eq, List.cons_append] at hb
          exact (List.cons.inj hb).2
        refine ⟨.normal, r2, by simp only [flagPart, if_true, h1, h2], .inl ⟨rfl, x, ?_, ?_⟩⟩
        · rw [hb, ht, List.cons_append]
        · rw [ht, hs]
          exact d1.trans d2
      · exact ⟨.truncated, r2, by simp only [flagPart, if_true, h1, h2], .inr ⟨rfl, d1.drains d2⟩⟩
    · exact ⟨.truncated, r1, by simp [flagPart, h1, h0, copyDownLeft], .inr ⟨rfl, d1⟩⟩

/-! ## One turn -/

/-- The reads of PIX after a run's stores (R198, R199, R201). -/
theorem read_runStores (x : RunB) {pos : Nat} (hpos : pos < 4096) (m : Memory 4) (p : Nat) :
    (replicateRun pos (min x.len (2 ^ 32 - 1)) x.v (copyDownLeft pos x.flag.left x.v (m.write pos x.v))).read p
      = if x.paints pos p then x.v else m.read p := by
  rw [read_replicateRun hpos, read_copyDownLeft, Memory.read_write]
  by_cases hp : x.paints pos p = true
  · rw [if_pos hp]
    simp only [RunB.paints, decide_eq_true_eq] at hp
    split
    · rfl
    · split
      · rfl
      · rw [if_pos (by omega)]
  · rw [if_neg hp]
    simp only [RunB.paints, decide_eq_true_eq] at hp
    split_ifs <;> first | rfl | omega

/-- A turn on a whole run: its stores, its bits, and the advance (R195, R198 to R202). -/
theorem LoopB.turn_run {q : Source} {pos : Nat} {c : Canvas} (h : c.rd.Ok) (x : RunB)
    {rest : List Bool} (hp : pendingBits q c.rd = x.bits ++ rest) :
    ∃ r', LoopB.turn q { pos := pos, canvas := c } = .again
        { pos := pos + min x.len (2 ^ 32 - 1)
          canvas := { rd := r'
                      pix := replicateRun pos (min x.len (2 ^ 32 - 1)) x.v
                        (copyDownLeft pos x.flag.left x.v (c.pix.write pos x.v)) } } ∧
      Delivers q c.rd x.bits r' ∧ pendingBits q r' = rest := by
  rw [RunB.bits, List.append_assoc, List.append_assoc] at hp
  obtain ⟨r1, h1, d1, p1⟩ := readBits_bitsOf x.v.isLt h hp
  rw [FlagB.bits_eq, List.cons_append] at p1
  obtain ⟨r2, h2, d2, p2⟩ := readBit_cons d1.ok p1
  obtain ⟨r3, h3, d3, p3⟩ := flagPart_got d2.ok pos x.v (c.pix.write pos x.v) x.flag p2
  obtain ⟨r4, h4, d4, p4⟩ := lcDecodeSat_lcBits d3.ok p3
  refine ⟨r4, ?_, ?_, p4⟩
  · simp only [LoopB.turn, h1, toPixel_toNat, h2, h3, runPart, h4]
  · have := ((d1.trans d2).trans d3).trans d4
    rwa [List.append_assoc (bitsOf _ _), List.singleton_append, ← FlagB.bits_eq] at this

/-- The reads of PIX after a pixel and a copy-down alone (R198, R199). -/
theorem read_cutStores {pos : Nat} (hpos : pos < 4096) (v : Pixel) (x : FlagB) (m : Memory 4) (p : Nat) :
    (copyDownLeft pos x.left v (m.write pos v)).read p
      = if p < 4096 then paintB [{ v := v, flag := x, len := 0 }] pos m.read p else m.read p := by
  rw [read_copyDownLeft, Memory.read_write]
  simp only [paintB, RunB.paints, decide_eq_true_eq]
  by_cases h1 : p < 4096 ∧ x.left ≠ 0 ∧ p = pos + 64 - x.left
  · rw [if_pos h1, if_pos h1.1, if_pos ⟨h1.1, .inr (.inl h1.2)⟩]
  · rw [if_neg h1]
    by_cases h2 : p = pos
    · rw [if_pos h2, if_pos (by omega), if_pos ⟨by omega, .inl h2⟩]
    · rw [if_neg h2, if_neg (c := p < 4096 ∧ _) (by omega), ite_self]

theorem cutRun_short {l : List Bool} (h : l.length < 4) : cutRun l = [] := by
  match l, h with
  | [], _ => rfl
  | [_], _ => rfl
  | [_, _], _ => rfl
  | [_, _, _], _ => rfl

theorem cutRun_long {l : List Bool} (h : 4 ≤ l.length) :
    cutRun l = [{ v := toPixel (natOfBits (l.take 4)), flag := cutFlag (l.drop 4), len := 0 }] := by
  match l, h with
  | _ :: _ :: _ :: _ :: _, _ => rfl

/-- A turn on bits that start with no whole run: it takes them all, and stores what `cutRun` says (R183). -/
theorem LoopB.turn_cut {q : Source} {pos : Nat} (hpos : pos < 4096) {c : Canvas} (h : c.rd.Ok)
    (hp : ∀ (x : RunB) (l : List Bool), pendingBits q c.rd ≠ x.bits ++ l) :
    ∃ r' m, LoopB.turn q { pos := pos, canvas := c } = .stop .truncated { pos := pos, canvas := { rd := r', pix := m } } ∧
      Drains q c.rd r' ∧ ∀ p, m.read p = if p < 4096 then paintB (cutRun (pendingBits q c.rd)) pos c.pix.read p
        else c.pix.read p := by
  rcases readBits_cases q h 4 with ⟨r1, h1, d1, hl⟩ | ⟨r1, h1, d1, hl⟩
  · have hv : bitsOf (toPixel (natOfBits ((pendingBits q c.rd).take 4))).toNat 4 = (pendingBits q c.rd).take 4 := by
      have hb := bitsOf_natOfBits ((pendingBits q c.rd).take 4)
      rw [List.length_take_of_le hl] at hb
      rw [toPixel_natOfBits (List.length_take_of_le hl), hb]
    have hrest : pendingBits q r1 = (pendingBits q c.rd).drop 4 := by
      have := d1.pending
      conv at this => lhs; rw [← List.take_append_drop 4 (pendingBits q c.rd)]
      exact (List.append_cancel_left this).symm
    rw [cutRun_long hl, ← hrest]
    generalize hw : toPixel (natOfBits ((pendingBits q c.rd).take 4)) = v at hv
    rcases hb : pendingBits q r1 with _ | ⟨f, l⟩
    · refine ⟨r1, _, ?_, d1.drains (Drains.refl d1.ok hb), fun p => read_cutStores hpos v .zero c.pix p⟩
      simp [LoopB.turn, h1, hw, (readBit_nil d1.ok hb).1, copyDownLeft, FlagB.left]
    · obtain ⟨r2, h2, d2, p2⟩ := readBit_cons d1.ok hb
      obtain ⟨e, r3, h3, hc⟩ := flagPart_cases q d2.ok pos v (c.pix.write pos v) f
      rw [p2] at h3
      rcases hc with ⟨rfl, x, hx, d3⟩ | ⟨rfl, d3⟩
      · rcases lcDecodeSat_cases q d3.ok with ⟨len, rest, r4, hs, -⟩ | ⟨r4, h4, d4, -⟩
        · exfalso
          refine hp { v := v, flag := x, len := len } rest ?_
          rw [RunB.bits, hv, ← hx]
          have := ((d1.trans d2).trans d3).pending
          rw [hs] at this
          simpa using this
        · refine ⟨r4, _, ?_, ((d1.trans d2).trans d3).drains d4, fun p => read_cutStores hpos v _ c.pix p⟩
          simp only [LoopB.turn, h1, hw, h2, h3, runPart, h4]
      · refine ⟨r3, _, ?_, (d1.trans d2).drains d3, fun p => read_cutStores hpos v _ c.pix p⟩
        simp only [LoopB.turn, h1, hw, h2, h3]
  · exact ⟨r1, c.pix, by simp only [LoopB.turn, h1], d1, fun p => by rw [cutRun_short hl]; simp [paintB]⟩

/-! ## The loop -/

/-- Every run starts below 4096. -/
def startsB : List RunB → Nat → Prop
  | [], _ => True
  | x :: rest, pos => pos < 4096 ∧ startsB rest (pos + x.len)

theorem startsB_of_finishesB {runs : List RunB} {pos : Nat} (h : finishesB runs pos) : startsB runs pos := by
  induction runs generalizing pos with
  | nil => trivial
  | cons x runs ih => exact ⟨h.1, ih h.2⟩

theorem endB_cons (x : RunB) (runs : List RunB) : endB (x :: runs) = x.len + endB runs := by simp [endB]

theorem startsB_of_lt {runs : List RunB} {pos : Nat} (h : pos + endB runs < 4096) : startsB runs pos := by
  induction runs generalizing pos with
  | nil => trivial
  | cons x runs ih =>
    rw [endB_cons] at h
    exact ⟨by omega, ih (by omega)⟩

theorem finishesB_end {runs : List RunB} {pos : Nat} (h : finishesB runs pos) : 4096 ≤ pos + endB runs := by
  induction runs generalizing pos with
  | nil => exact h
  | cons x runs ih =>
    have := ih h.2
    rw [endB_cons]
    omega

/-- Positions below 4096 after a saturated length and after the length itself are the same. -/
theorem paintB_congr {runs : List RunB} {pos pos' : Nat} (f : Nat → Pixel) (hs : startsB runs pos)
    (h : min pos' 4096 = min pos 4096) (p : Nat) : paintB runs pos' f p = paintB runs pos f p := by
  cases runs with
  | nil => rfl
  | cons x runs =>
    have : pos' = pos := by
      have := hs.1
      omega
    rw [this]

/-- A pixel after the runs depends only on that pixel before them. -/
theorem paintB_at {runs : List RunB} {pos p : Nat} {f g : Nat → Pixel} (h : f p = g p) :
    paintB runs pos f p = paintB runs pos g p := by
  induction runs generalizing pos f g with
  | nil => exact h
  | cons x runs ih =>
    refine ih ?_
    simp only [h]

theorem paintB_append (l l' : List RunB) (pos : Nat) (f : Nat → Pixel) :
    paintB (l ++ l') pos f = paintB l' (pos + endB l) (paintB l pos f) := by
  induction l generalizing pos f with
  | nil => rfl
  | cons x l ih => rw [List.cons_append, paintB, ih, endB_cons, Nat.add_assoc]; rfl

theorem LoopB.more_iff (x : LoopB) : LoopB.more x = true ↔ x.pos < 4096 := decide_eq_true_iff

/-- The loop over a sequence of runs that all start below 4096: their Ticks, their bits, their pixels. -/
theorem loopB_runs {q : Source} (runs : List RunB) {pos n : Nat} {c : Canvas} (h : c.rd.Ok) {rest : List Bool}
    (hp : pendingBits q c.rd = runs.flatMap RunB.bits ++ rest) (hs : startsB runs pos) (hn : runs.length ≤ n) :
    ∃ pos' c', tickLoop LoopB.more (LoopB.turn q) n { pos := pos, canvas := c }
        = tickLoop LoopB.more (LoopB.turn q) (n - runs.length) { pos := pos', canvas := c' } ∧
      Delivers q c.rd (runs.flatMap RunB.bits) c'.rd ∧ pendingBits q c'.rd = rest ∧
      min pos' 4096 = min (pos + endB runs) 4096 ∧
      ∀ p, c'.pix.read p = if p < 4096 then paintB runs pos c.pix.read p else c.pix.read p := by
  induction runs generalizing pos n c with
  | nil => exact ⟨pos, c, rfl, Delivers.refl h, hp, by simp [endB], fun p => by simp [paintB]⟩
  | cons x runs ih =>
    obtain ⟨n, rfl⟩ : ∃ k, n = k + 1 := ⟨n - 1, by rw [List.length_cons] at hn; omega⟩
    rw [List.flatMap_cons, List.append_assoc] at hp
    obtain ⟨hpos, hs'⟩ := hs
    obtain ⟨r1, h1, d1, p1⟩ := LoopB.turn_run (pos := pos) h x hp
    have hmin : min (pos + min x.len (2 ^ 32 - 1)) 4096 = min (pos + x.len) 4096 := by omega
    have hs1 : startsB runs (pos + min x.len (2 ^ 32 - 1)) := by
      cases runs with
      | nil => trivial
      | cons y runs =>
        have h1 := hs'.1
        have : pos + min x.len (2 ^ 32 - 1) = pos + x.len := by omega
        rw [this]
        exact hs'
    have hpaint := read_runStores x hpos c.pix
    generalize replicateRun pos (min x.len (2 ^ 32 - 1)) x.v (copyDownLeft pos x.flag.left x.v (c.pix.write pos x.v)) = m
      at h1 hpaint
    obtain ⟨pos', c', h2, d2, p2, he, hr⟩ := ih (n := n) (c := ⟨r1, m⟩) d1.ok p1 hs1 (by simpa using hn)
    refine ⟨pos', c', ?_, ?_, p2, ?_, fun p => ?_⟩
    · rw [tickLoop_again n ((LoopB.more_iff _).2 hpos) h1, h2, List.length_cons]
      congr 1
      omega
    · rw [List.flatMap_cons]
      exact d1.trans d2
    · rw [he, endB_cons]
      omega
    · rw [hr]
      split
      · rw [paintB, paintB_congr _ hs' hmin]
        congr 1
        funext p
        exact hpaint p
      · rw [hpaint, if_neg (by simp [RunB.paints]; omega)]

end Sys2Proof.Machine
end

