-- ==== Sys2Proof/Laws/DecoderA.lean ====
section
/-! SUPPORT. The laws of the Variant A decoder (43_decoder.md R184 to R193): the header, the selections, one turn of the main
loop and of the prediction sub-loop, and what the loop does on a sequence of steps. -/

namespace Sys2Proof.Machine

/-- A read after Store(p, v) (R181). -/
theorem read_storePixel (size : Nat) (p : Int) (v : Pixel) (m : Memory 4) (a : Nat) :
    (storePixel size p v m).read a = if a < size ∧ (a : Int) = p then v else m.read a := by
  rw [storePixel]
  by_cases h : 0 ≤ p ∧ p < (size : Int)
  · rw [if_pos h, Memory.read_write]
    by_cases ha : a = p.toNat
    · rw [if_pos ha, if_pos (by omega)]
    · rw [if_neg ha, if_neg (by omega)]
  · rw [if_neg h, if_neg (by omega)]

theorem storePixel_ok {cap size : Nat} (hcap : size ≤ cap) {m : Memory 4} (h : m.Ok cap) (p : Int) (v : Pixel) :
    (storePixel size p v m).Ok cap := by
  rw [storePixel]
  by_cases hp : 0 ≤ p ∧ p < (size : Int)
  · rw [if_pos hp]
    exact Memory.Ok.write h (by omega)
  · rw [if_neg hp]
    exact h

/-- The header, read whole (R185). -/
theorem readHeader_got {q : Source} {r : Reader} (h : r.Ok) {wu hu : Nat} (hw : wu < 256) (hh : hu < 256)
    {rest : List Bool} (hp : pendingBits q r = bitsOf wu 8 ++ (bitsOf hu 8 ++ rest)) :
    ∃ r', readHeader q r = .got (wu, hu) r' ∧ Delivers q r (bitsOf wu 8 ++ bitsOf hu 8) r' ∧ pendingBits q r' = rest := by
  obtain ⟨r1, h1, d1, p1⟩ := readBits_bitsOf (n := 8) hw h hp
  obtain ⟨r2, h2, d2, p2⟩ := readBits_bitsOf (n := 8) hh d1.ok p1
  exact ⟨r2, by simp only [readHeader, h1, h2, Read.andThen], d1.trans d2, p2⟩

/-- The header either is read whole or takes all the bits, fewer than 16 (R185). -/
theorem readHeader_cases (q : Source) {r : Reader} (h : r.Ok) :
    (∃ wu hu r', wu < 256 ∧ hu < 256 ∧ readHeader q r = .got (wu, hu) r' ∧
      Delivers q r (bitsOf wu 8 ++ bitsOf hu 8) r') ∨
    ∃ r', readHeader q r = .exhausted r' ∧ Drains q r r' ∧ (pendingBits q r).length < 16 := by
  rcases readBits_cases q h 8 with ⟨r1, h1, d1, hl1⟩ | ⟨r1, h1, d1, hl1⟩
  · have hb1 := List.length_take_of_le hl1
    have e1 := bitsOf_natOfBits ((pendingBits q r).take 8)
    have v1 := natOfBits_lt ((pendingBits q r).take 8)
    rw [hb1] at e1 v1
    have hlen := congrArg List.length d1.pending
    rw [List.length_append, hb1] at hlen
    rcases readBits_cases q d1.ok 8 with ⟨r2, h2, d2, hl2⟩ | ⟨r2, h2, d2, hl2⟩
    · have hb2 := List.length_take_of_le hl2
      have e2 := bitsOf_natOfBits ((pendingBits q r1).take 8)
      have v2 := natOfBits_lt ((pendingBits q r1).take 8)
      rw [hb2] at e2 v2
      refine .inl ⟨_, _, r2, v1, v2, by simp only [readHeader, h1, h2, Read.andThen], ?_⟩
      rw [e1, e2]
      exact d1.trans d2
    · exact .inr ⟨r2, by simp only [readHeader, h1, h2, Read.andThen], d1.drains d2, by omega⟩
  · exact .inr ⟨r1, by simp only [readHeader, h1, Read.andThen], d1, by omega⟩

/-- ReadSel on a whole selection (R191). -/
theorem readSel_down {q : Source} {r : Reader} (h : r.Ok) (d : SelA) {rest : List Bool}
    (hp : pendingBits q r = d.bits ++ rest) :
    ∃ r', readSel q r = .got (.down d.offset) r' ∧ Delivers q r d.bits r' ∧ pendingBits q r' = rest := by
  cases d with
  | same =>
    obtain ⟨r1, h1, d1, p1⟩ := readBit_cons h hp
    exact ⟨r1, by simp [readSel, h1, Read.andThen, SelA.offset], d1, p1⟩
  | left1 =>
    obtain ⟨r1, h1, d1, p1⟩ := readBit_cons h hp
    obtain ⟨r2, h2, d2, p2⟩ := readBit_cons d1.ok p1
    exact ⟨r2, by simp [readSel, h1, h2, Read.andThen, SelA.offset], d1.trans d2, p2⟩
  | right1 =>
    obtain ⟨r1, h1, d1, p1⟩ := readBit_cons h hp
    obtain ⟨r2, h2, d2, p2⟩ := readBit_cons d1.ok p1
    obtain ⟨r3, h3, d3, p3⟩ := readBit_cons d2.ok p2
    exact ⟨r3, by simp [readSel, h1, h2, h3, Read.andThen, SelA.offset], (d1.trans d2).trans d3, p3⟩
  | right2 =>
    obtain ⟨r1, h1, d1, p1⟩ := readBit_cons h hp
    obtain ⟨r2, h2, d2, p2⟩ := readBit_cons d1.ok p1
    obtain ⟨r3, h3, d3, p3⟩ := readBit_cons d2.ok p2
    obtain ⟨r4, h4, d4, p4⟩ := readBit_cons d3.ok p3
    obtain ⟨r5, h5, d5, p5⟩ := readBit_cons d4.ok p4
    exact ⟨r5, by simp [readSel, h1, h2, h3, h4, h5, Read.andThen, SelA.offset],
      (((d1.trans d2).trans d3).trans d4).trans d5, p5⟩
  | left2 =>
    obtain ⟨r1, h1, d1, p1⟩ := readBit_cons h hp
    obtain ⟨r2, h2, d2, p2⟩ := readBit_cons d1.ok p1
    obtain ⟨r3, h3, d3, p3⟩ := readBit_cons d2.ok p2
    obtain ⟨r4, h4, d4, p4⟩ := readBit_cons d3.ok p3
    obtain ⟨r5, h5, d5, p5⟩ := readBit_cons d4.ok p4
    exact ⟨r5, by simp [readSel, h1, h2, h3, h4, h5, Read.andThen, SelA.offset],
      (((d1.trans d2).trans d3).trans d4).trans d5, p5⟩

/-- ReadSel on the stop pattern 0000 (R191). -/
theorem readSel_stop {q : Source} {r : Reader} (h : r.Ok) {rest : List Bool}
    (hp : pendingBits q r = [false, false, false, false] ++ rest) :
    ∃ r', readSel q r = .got .stop r' ∧ Delivers q r [false, false, false, false] r' ∧ pendingBits q r' = rest := by
  obtain ⟨r1, h1, d1, p1⟩ := readBit_cons h hp
  obtain ⟨r2, h2, d2, p2⟩ := readBit_cons d1.ok p1
  obtain ⟨r3, h3, d3, p3⟩ := readBit_cons d2.ok p2
  obtain ⟨r4, h4, d4, p4⟩ := readBit_cons d3.ok p3
  exact ⟨r4, by simp [readSel, h1, h2, h3, h4, Read.andThen], ((d1.trans d2).trans d3).trans d4, p4⟩

/-- ReadSel either delivers bits or takes them all. -/
theorem readSel_cases (q : Source) {r : Reader} (h : r.Ok) :
    (∃ v l r', readSel q r = .got v r' ∧ Delivers q r l r') ∨ ∃ r', readSel q r = .exhausted r' ∧ Drains q r r' := by
  rcases hb : pendingBits q r with _ | ⟨a, l⟩
  · exact .inr ⟨r, by simp [readSel, (readBit_nil h hb).1, Read.andThen], Drains.refl h hb⟩
  obtain ⟨r1, h1, d1, p1⟩ := readBit_cons h hb
  cases a with
  | true => exact .inl ⟨_, _, r1, by simp [readSel, h1, Read.andThen]; rfl, d1⟩
  | false =>
  rcases l with _ | ⟨a, l⟩
  · exact .inr ⟨r1, by simp [readSel, h1, (readBit_nil d1.ok p1).1, Read.andThen], d1.drains (Drains.refl d1.ok p1)⟩
  obtain ⟨r2, h2, d2, p2⟩ := readBit_cons d1.ok p1
  have d12 := d1.trans d2
  cases a with
  | true => exact .inl ⟨_, _, r2, by simp [readSel, h1, h2, Read.andThen]; rfl, d12⟩
  | false =>
  rcases l with _ | ⟨a, l⟩
  · exact .inr ⟨r2, by simp [readSel, h1, h2, (readBit_nil d2.ok p2).1, Read.andThen], d12.drains (Drains.refl d2.ok p2)⟩
  obtain ⟨r3, h3, d3, p3⟩ := readBit_cons d2.ok p2
  have d13 := d12.trans d3
  cases a with
  | true => exact .inl ⟨_, _, r3, by simp [readSel, h1, h2, h3, Read.andThen]; rfl, d13⟩
  | false =>
  rcases l with _ | ⟨a, l⟩
  · exact .inr ⟨r3, by simp [readSel, h1, h2, h3, (readBit_nil d3.ok p3).1, Read.andThen],
      d13.drains (Drains.refl d3.ok p3)⟩
  obtain ⟨r4, h4, d4, p4⟩ := readBit_cons d3.ok p3
  have d14 := d13.trans d4
  cases a with
  | false => exact .inl ⟨_, _, r4, by simp [readSel, h1, h2, h3, h4, Read.andThen]; rfl, d14⟩
  | true =>
  rcases l with _ | ⟨a, l⟩
  · exact .inr ⟨r4, by simp [readSel, h1, h2, h3, h4, (readBit_nil d4.ok p4).1, Read.andThen],
      d14.drains (Drains.refl d4.ok p4)⟩
  obtain ⟨r5, h5, d5, p5⟩ := readBit_cons d4.ok p4
  cases a with
  | true => exact .inl ⟨_, _, r5, by simp [readSel, h1, h2, h3, h4, h5, Read.andThen]; rfl, d14.trans d5⟩
  | false => exact .inl ⟨_, _, r5, by simp [readSel, h1, h2, h3, h4, h5, Read.andThen]; rfl, d14.trans d5⟩

/-- ReadSel on bits that hold no whole selection and no stop pattern takes them all (R183, R191). -/
theorem readSel_exhausted {q : Source} {r : Reader} (h : r.Ok)
    (hd : ∀ (d : SelA) (rest : List Bool), pendingBits q r ≠ d.bits ++ rest)
    (hs : ∀ rest : List Bool, pendingBits q r ≠ [false, false, false, false] ++ rest) :
    ∃ r', readSel q r = .exhausted r' ∧ Drains q r r' := by
  rcases readSel_cases q h with ⟨v, l, r1, h1, d1⟩ | h1
  · exfalso
    match hl : pendingBits q r with
    | [] => simp [readSel, (readBit_nil h hl).1, Read.andThen] at h1
    | true :: l => exact hd .same l hl
    | false :: true :: l => exact hd .left1 l hl
    | false :: false :: true :: l => exact hd .right1 l hl
    | false :: false :: false :: false :: l => exact hs l hl
    | false :: false :: false :: true :: false :: l => exact hd .right2 l hl
    | false :: false :: false :: true :: true :: l => exact hd .left2 l hl
    | [false] =>
      obtain ⟨r2, h2, d2, p2⟩ := readBit_cons h hl
      simp [readSel, h2, (readBit_nil d2.ok p2).1, Read.andThen] at h1
    | [false, false] =>
      obtain ⟨r2, h2, d2, p2⟩ := readBit_cons h hl
      obtain ⟨r3, h3, d3, p3⟩ := readBit_cons d2.ok p2
      simp [readSel, h2, h3, (readBit_nil d3.ok p3).1, Read.andThen] at h1
    | [false, false, false] =>
      obtain ⟨r2, h2, d2, p2⟩ := readBit_cons h hl
      obtain ⟨r3, h3, d3, p3⟩ := readBit_cons d2.ok p2
      obtain ⟨r4, h4, d4, p4⟩ := readBit_cons d3.ok p3
      simp [readSel, h2, h3, h4, (readBit_nil d4.ok p4).1, Read.andThen] at h1
    | [false, false, false, true] =>
      obtain ⟨r2, h2, d2, p2⟩ := readBit_cons h hl
      obtain ⟨r3, h3, d3, p3⟩ := readBit_cons d2.ok p2
      obtain ⟨r4, h4, d4, p4⟩ := readBit_cons d3.ok p3
      obtain ⟨r5, h5, d5, p5⟩ := readBit_cons d4.ok p4
      simp [readSel, h2, h3, h4, h5, (readBit_nil d5.ok p5).1, Read.andThen] at h1
  · exact h1

/-! ## One turn -/

/-- A jump inside the image, with its pixel and its flag (R187 to R190). -/
theorem LoopA.turn_jump {q : Source} {width size jump : Nat} {v : Pixel} {f : Bool} {x : LoopA} (hx : x.phase = .jump)
    (h : x.canvas.rd.Ok) {rest : List Bool}
    (hp : pendingBits q x.canvas.rd = lcBits jump ++ (bitsOf v.toNat 4 ++ (f :: rest)))
    (hj : jump < 2 ^ 32) (hs : x.pos + jump < size) :
    ∃ r', LoopA.turn q width size x = .again
        { phase := if f then .predict (x.pos + jump) else .jump
          pos := x.pos + jump
          last := v
          canvas := { rd := r', pix := storePixel size (x.pos + jump) v x.canvas.pix } } ∧
      Delivers q x.canvas.rd (lcBits jump ++ (bitsOf v.toNat 4 ++ [f])) r' ∧ pendingBits q r' = rest := by
  obtain ⟨r1, h1, d1, p1⟩ := lcDecodeSat_lcBits h hp
  obtain ⟨r2, h2, d2, p2⟩ := readBits_bitsOf v.isLt d1.ok p1
  obtain ⟨r3, h3, d3, p3⟩ := readBit_cons d2.ok p2
  rw [Nat.min_eq_left (by omega)] at h1
  refine ⟨r3, ?_, ?_, p3⟩
  · simp only [LoopA.turn, hx, LoopA.jumpTurn, h1, if_neg (not_le.2 hs), h2, h3, toPixel_toNat]
  · have := (d1.trans d2).trans d3
    rwa [List.append_assoc] at this

/-- A jump out of the image ends the decode (R188). -/
theorem LoopA.turn_out {q : Source} {width size jump : Nat} {x : LoopA} (hx : x.phase = .jump) (h : x.canvas.rd.Ok)
    {rest : List Bool} (hp : pendingBits q x.canvas.rd = lcBits jump ++ rest) (hs : (size : Int) ≤ x.pos + jump)
    (hsz : size < 2 ^ 31) (hpos : -1 ≤ x.pos) :
    ∃ r' y, LoopA.turn q width size x = .stop .normal y ∧ y.canvas = { rd := r', pix := x.canvas.pix } ∧
      Delivers q x.canvas.rd (lcBits jump) r' ∧ pendingBits q r' = rest := by
  obtain ⟨r1, h1, d1, p1⟩ := lcDecodeSat_lcBits h hp
  have hle : (size : Int) ≤ x.pos + ((min jump (2 ^ 32 - 1) : Nat) : Int) := by omega
  refine ⟨r1, { x with pos := x.pos + ((min jump (2 ^ 32 - 1) : Nat) : Int), canvas := { x.canvas with rd := r1 } },
    ?_, rfl, d1, p1⟩
  simp only [LoopA.turn, hx, LoopA.jumpTurn, h1, if_pos hle]

/-- A selection of the sub-loop (R191, R192). -/
theorem LoopA.turn_down {q : Source} {width size : Nat} {p2 : Int} {x : LoopA} (hx : x.phase = .predict p2)
    (h : x.canvas.rd.Ok) (d : SelA) {rest : List Bool} (hp : pendingBits q x.canvas.rd = d.bits ++ rest) :
    ∃ r', LoopA.turn q width size x = .again
        { x with phase := .predict (p2 + width + d.offset)
                 canvas := { rd := r', pix := storePixel size (p2 + width + d.offset) x.last x.canvas.pix } } ∧
      Delivers q x.canvas.rd d.bits r' ∧ pendingBits q r' = rest := by
  obtain ⟨r1, h1, d1, p1⟩ := readSel_down h d hp
  exact ⟨r1, by simp only [LoopA.turn, hx, LoopA.predictTurn, h1], d1, p1⟩

/-- The stop pattern of the sub-loop (R193). -/
theorem LoopA.turn_stop {q : Source} {width size : Nat} {p2 : Int} {x : LoopA} (hx : x.phase = .predict p2)
    (h : x.canvas.rd.Ok) {rest : List Bool} (hp : pendingBits q x.canvas.rd = [false, false, false, false] ++ rest) :
    ∃ r', LoopA.turn q width size x = .again { x with phase := .jump, canvas := { x.canvas with rd := r' } } ∧
      Delivers q x.canvas.rd [false, false, false, false] r' ∧ pendingBits q r' = rest := by
  obtain ⟨r1, h1, d1, p1⟩ := readSel_stop h hp
  exact ⟨r1, by simp only [LoopA.turn, hx, LoopA.predictTurn, h1], d1, p1⟩

/-- A turn on a jump or a pixel that the stream cuts takes all the bits and stores nothing (R183). -/
theorem LoopA.turn_inJump {q : Source} {width size : Nat} {x : LoopA} (hx : x.phase = .jump) (h : x.canvas.rd.Ok)
    (hsz : size < 2 ^ 31) (hpos : -1 ≤ x.pos) {l : List Bool} (hp : pendingBits q x.canvas.rd = l)
    (hc : (CutA.inJump l).Fits size x.pos) :
    ∃ r' y, LoopA.turn q width size x = .stop .truncated y ∧ y.canvas = { rd := r', pix := x.canvas.pix } ∧
      Drains q x.canvas.rd r' := by
  subst hp
  rcases lcDecodeSat_cases q h with ⟨len, rest, r1, hs, h1, d1, p1⟩ | ⟨r1, h1, d1, -⟩
  · have hin := hc.1 len rest hs
    rw [Nat.min_eq_left (by omega)] at h1
    rcases readBits_cases q d1.ok 4 with ⟨r2, -, -, hl⟩ | ⟨r2, h2, d2, -⟩
    · exfalso
      have hb := bitsOf_natOfBits ((pendingBits q r1).take 4)
      rw [List.length_take_of_le hl] at hb
      refine hc.2 len (toPixel (natOfBits ((pendingBits q r1).take 4))) ((pendingBits q r1).drop 4) ?_
      rw [toPixel_natOfBits (List.length_take_of_le hl), hb, List.take_append_drop, p1]
      exact hs
    · refine ⟨r2, { x with canvas := { x.canvas with rd := r2 } }, ?_, rfl, d1.drains d2⟩
      simp only [LoopA.turn, hx, LoopA.jumpTurn, h1, if_neg (not_le.2 hin), h2, LoopA.truncated]
  · refine ⟨r1, { x with canvas := { x.canvas with rd := r1 } }, ?_, rfl, d1⟩
    simp only [LoopA.turn, hx, LoopA.jumpTurn, h1, LoopA.truncated]

/-- A turn whose stream ends before the prediction flag has stored its pixel (R183). -/
theorem LoopA.turn_atFlag {q : Source} {width size jump : Nat} {v : Pixel} {x : LoopA} (hx : x.phase = .jump)
    (h : x.canvas.rd.Ok) (hp : pendingBits q x.canvas.rd = lcBits jump ++ bitsOf v.toNat 4) (hj : jump < 2 ^ 32)
    (hs : x.pos + jump < size) :
    ∃ r' y, LoopA.turn q width size x = .stop .truncated y ∧
      y.canvas = { rd := r', pix := storePixel size (x.pos + jump) v x.canvas.pix } ∧ Drains q x.canvas.rd r' := by
  obtain ⟨r1, h1, d1, p1⟩ := lcDecodeSat_lcBits h hp
  obtain ⟨r2, h2, d2, p2⟩ := readBits_bitsOf (rest := []) v.isLt d1.ok (by rw [List.append_nil]; exact p1)
  rw [Nat.min_eq_left (by omega)] at h1
  refine ⟨r2, { x with canvas := { rd := r2, pix := storePixel size (x.pos + jump) v x.canvas.pix } }, ?_, rfl,
    (d1.trans d2).drains (Drains.refl d2.ok p2)⟩
  simp only [LoopA.turn, hx, LoopA.jumpTurn, h1, if_neg (not_le.2 hs), h2, toPixel_toNat, (readBit_nil d2.ok p2).1]

/-- A turn on a selection that the stream cuts takes all the bits and stores nothing (R183). -/
theorem LoopA.turn_inSelect {q : Source} {width size : Nat} {p2 : Int} {x : LoopA} (hx : x.phase = .predict p2)
    (h : x.canvas.rd.Ok) (hd : ∀ (d : SelA) (rest : List Bool), pendingBits q x.canvas.rd ≠ d.bits ++ rest)
    (hs : ∀ rest : List Bool, pendingBits q x.canvas.rd ≠ [false, false, false, false] ++ rest) :
    ∃ r' y, LoopA.turn q width size x = .stop .truncated y ∧ y.canvas = { rd := r', pix := x.canvas.pix } ∧
      Drains q x.canvas.rd r' := by
  obtain ⟨r1, h1, d1⟩ := readSel_exhausted h hd hs
  refine ⟨r1, { x with canvas := { x.canvas with rd := r1 } }, ?_, rfl, d1⟩
  simp only [LoopA.turn, hx, LoopA.predictTurn, h1, LoopA.truncated]

/-! ## The loop -/

/-- The sub-loop over a sequence of selections (R191, R192). -/
theorem loopA_sels {q : Source} {width size : Nat} (downs : List SelA) {p2 : Int} {n : Nat} {x : LoopA}
    (hx : x.phase = .predict p2) (h : x.canvas.rd.Ok) {rest : List Bool}
    (hp : pendingBits q x.canvas.rd = downs.flatMap SelA.bits ++ rest) (hn : downs.length ≤ n) :
    ∃ p' c', tickLoop (LoopA.more size) (LoopA.turn q width size) n x
        = tickLoop (LoopA.more size) (LoopA.turn q width size) (n - downs.length)
            { x with phase := .predict p', canvas := c' } ∧
      Delivers q x.canvas.rd (downs.flatMap SelA.bits) c'.rd ∧ pendingBits q c'.rd = rest ∧
      ∀ p, c'.pix.read p = if p < size ∧ (p : Int) ∈ chainA width p2 downs then x.last else x.canvas.pix.read p := by
  have hmore : LoopA.more size x = true := by simp [LoopA.more, hx]
  induction downs generalizing p2 n x with
  | nil => exact ⟨p2, x.canvas, by rw [← hx]; rfl, Delivers.refl h, hp, fun p => by rw [if_neg (by simp [chainA])]⟩
  | cons d downs ih =>
    rw [List.flatMap_cons, List.append_assoc] at hp
    obtain ⟨r1, h1, d1, p1⟩ := LoopA.turn_down (width := width) (size := size) hx h d hp
    obtain ⟨k, rfl⟩ : ∃ k, n = k + 1 := ⟨n - 1, by rw [List.length_cons] at hn; omega⟩
    obtain ⟨p', c', h2, d2, p2', hr⟩ := ih (p2 := p2 + width + d.offset) (n := k)
      (x := { x with phase := .predict (p2 + width + d.offset)
                     canvas := { rd := r1, pix := storePixel size (p2 + width + d.offset) x.last x.canvas.pix } })
      rfl d1.ok p1 (by rw [List.length_cons] at hn; omega) (by simp [LoopA.more])
    refine ⟨p', c', ?_, d1.trans d2, p2', fun p => ?_⟩
    · rw [tickLoop_again _ hmore h1, h2, List.length_cons]
      congr 1
      omega
    · rw [hr]
      simp only [read_storePixel, chainA, List.mem_cons]
      by_cases hc : p < size ∧ (p : Int) ∈ chainA width (p2 + width + d.offset) downs
      · rw [if_pos hc, if_pos ⟨hc.1, .inr hc.2⟩]
      · rw [if_neg hc]
        by_cases he : p < size ∧ (p : Int) = p2 + width + d.offset
        · rw [if_pos he, if_pos ⟨he.1, .inl he.2⟩]
        · rw [if_neg he, if_neg (by tauto)]

/-- The sub-loop over a sequence of selections and the stop pattern (R191 to R193). -/
theorem loopA_downs {q : Source} {width size : Nat} (downs : List SelA) {p2 : Int} {n : Nat} {x : LoopA}
    (hx : x.phase = .predict p2) (h : x.canvas.rd.Ok) {rest : List Bool}
    (hp : pendingBits q x.canvas.rd = downs.flatMap SelA.bits ++ ([false, false, false, false] ++ rest))
    (hn : downs.length + 1 ≤ n) :
    ∃ c', tickLoop (LoopA.more size) (LoopA.turn q width size) n x
        = tickLoop (LoopA.more size) (LoopA.turn q width size) (n - (downs.length + 1))
            { x with phase := .jump, canvas := c' } ∧
      Delivers q x.canvas.rd (downs.flatMap SelA.bits ++ [false, false, false, false]) c'.rd ∧
      pendingBits q c'.rd = rest ∧
      ∀ p, c'.pix.read p = if p < size ∧ (p : Int) ∈ chainA width p2 downs then x.last else x.canvas.pix.read p := by
  obtain ⟨p', c', h1, d1, p1, hr⟩ := loopA_sels (width := width) (size := size) downs hx h hp (n := n) (by omega)
  obtain ⟨r2, h2, d2, p2⟩ := LoopA.turn_stop (width := width) (size := size)
    (x := { x with phase := .predict p', canvas := c' }) rfl d1.ok p1
  obtain ⟨k, hk⟩ : ∃ k, n - downs.length = k + 1 := ⟨n - downs.length - 1, by omega⟩
  refine ⟨{ c' with rd := r2 }, ?_, d1.trans d2, p2, hr⟩
  rw [h1, hk, tickLoop_again k (by simp [LoopA.more]) h2, show n - (downs.length + 1) = k by omega]

/-- A pixel after the steps depends only on that pixel before them. -/
theorem paintA_at {w : Nat} {steps : List StepA} {pos : Int} {p : Nat} {f g : Nat → Pixel} (h : f p = g p) :
    paintA w steps pos f p = paintA w steps pos g p := by
  induction steps generalizing pos f g with
  | nil => exact h
  | cons x steps ih =>
    refine ih ?_
    simp only [h]

/-- One step of a stream: its jump and pixel, and its sub-loop if it has one. -/
theorem loopA_step {q : Source} {width size : Nat} (s : StepA) {n : Nat} {x : LoopA} (hx : x.phase = .jump)
    (h : x.canvas.rd.Ok) {rest : List Bool} (hp : pendingBits q x.canvas.rd = s.bits ++ rest)
    (hpos : -1 ≤ x.pos) (hsz : size < 2 ^ 31) (hs : x.pos + s.jump < size) (hm : x.pos < size) (hn : s.ticks ≤ n) :
    ∃ y : LoopA, tickLoop (LoopA.more size) (LoopA.turn q width size) n x
        = tickLoop (LoopA.more size) (LoopA.turn q width size) (n - s.ticks) y ∧
      y.phase = .jump ∧ y.pos = x.pos + s.jump ∧
      Delivers q x.canvas.rd s.bits y.canvas.rd ∧ pendingBits q y.canvas.rd = rest ∧
      ∀ p, y.canvas.pix.read p =
        if p < size ∧ (p : Int) ∈ s.targets width (x.pos + s.jump) then s.v else x.canvas.pix.read p := by
  have hmore : LoopA.more size x = true := by simpa [LoopA.more, hx] using hm
  rw [StepA.bits, List.append_assoc, List.append_assoc] at hp
  rcases hd : s.downs with _ | downs
  · rw [hd] at hp
    obtain ⟨r1, h1, d1, p1⟩ := LoopA.turn_jump (width := width) (size := size) (f := false) hx h hp (by omega) hs
    simp only [StepA.ticks, hd] at hn ⊢
    obtain ⟨n, rfl⟩ : ∃ k, n = k + 1 := ⟨n - 1, by omega⟩
    refine ⟨_, tickLoop_again n hmore h1, rfl, rfl, ?_, p1, fun p => ?_⟩
    · rw [StepA.bits, hd, List.append_assoc]
      exact d1
    · simp [read_storePixel, StepA.targets, hd, chainA]
  · rw [hd, predictBits, List.append_assoc, List.cons_append] at hp
    obtain ⟨r1, h1, d1, p1⟩ := LoopA.turn_jump (width := width) (size := size) (f := true) hx h hp (by omega) hs
    simp only [StepA.ticks, hd] at hn ⊢
    obtain ⟨n, rfl⟩ : ∃ k, n = k + 1 := ⟨n - 1, by omega⟩
    obtain ⟨c', h2, d2, p2, hr⟩ := loopA_downs (width := width) (size := size) downs (n := n)
      (x := { phase := .predict (x.pos + s.jump), pos := x.pos + s.jump, last := s.v,
              canvas := { rd := r1, pix := storePixel size (x.pos + s.jump) s.v x.canvas.pix } })
      rfl d1.ok p1 (by omega)
    refine ⟨{ phase := .jump, pos := x.pos + s.jump, last := s.v, canvas := c' }, ?_, rfl, rfl, ?_, p2, fun p => ?_⟩
    · rw [tickLoop_again n hmore h1, if_pos rfl, h2]
      congr 1
      omega
    · have := d1.trans d2
      rw [StepA.bits, hd, predictBits]
      simpa using this
    · rw [hr]
      simp only [read_storePixel, StepA.targets, hd, Option.getD_some, List.mem_cons]
      by_cases hc : p < size ∧ (p : Int) ∈ chainA width (x.pos + s.jump) downs
      · rw [if_pos hc, if_pos ⟨hc.1, .inr hc.2⟩]
      · rw [if_neg hc]
        by_cases he : p < size ∧ (p : Int) = x.pos + s.jump
        · rw [if_pos he, if_pos ⟨he.1, .inl he.2⟩]
        · rw [if_neg he, if_neg (by tauto)]

/-- One step as far as its sub-loop has come: the next iteration is in the sub-loop (R187 to R192). -/
theorem loopA_open {q : Source} {width size : Nat} (s : StepA) {n : Nat} {x : LoopA} (hx : x.phase = .jump)
    (h : x.canvas.rd.Ok) {rest : List Bool} (hp : pendingBits q x.canvas.rd = s.openBits ++ rest)
    (hpos : -1 ≤ x.pos) (hsz : size < 2 ^ 31) (hs : x.pos + s.jump < size) (hn : s.openTicks ≤ n) :
    ∃ (p2 : Int) (y : LoopA), tickLoop (LoopA.more size) (LoopA.turn q width size) n x
        = tickLoop (LoopA.more size) (LoopA.turn q width size) (n - s.openTicks) y ∧
      y.phase = .predict p2 ∧ Delivers q x.canvas.rd s.openBits y.canvas.rd ∧ pendingBits q y.canvas.rd = rest ∧
      ∀ p, y.canvas.pix.read p =
        if p < size ∧ (p : Int) ∈ s.targets width (x.pos + s.jump) then s.v else x.canvas.pix.read p := by
  have hmore : LoopA.more size x = true := by
    have : x.pos < size := by omega
    simpa [LoopA.more, hx] using this
  rw [StepA.openBits, List.append_assoc, List.append_assoc, List.cons_append] at hp
  obtain ⟨r1, h1, d1, p1⟩ := LoopA.turn_jump (width := width) (size := size) (f := true) hx h hp (by omega) hs
  unfold StepA.openTicks at hn ⊢
  obtain ⟨n, rfl⟩ : ∃ k, n = k + 1 := ⟨n - 1, by omega⟩
  obtain ⟨p', c', h2, d2, p2, hr⟩ := loopA_sels (width := width) (size := size) (s.downs.getD []) (n := n)
    (x := { phase := .predict (x.pos + s.jump), pos := x.pos + s.jump, last := s.v,
            canvas := { rd := r1, pix := storePixel size (x.pos + s.jump) s.v x.canvas.pix } })
    rfl d1.ok p1 (by omega)
  refine ⟨p', { phase := .predict p', pos := x.pos + s.jump, last := s.v, canvas := c' }, ?_, rfl, ?_, p2, fun p => ?_⟩
  · rw [tickLoop_again n hmore h1, if_pos rfl, h2]
    congr 1
    omega
  · have := d1.trans d2
    rw [StepA.openBits]
    simpa using this
  · rw [hr]
    simp only [read_storePixel, StepA.targets, List.mem_cons]
    by_cases hc : p < size ∧ (p : Int) ∈ chainA width (x.pos + s.jump) (s.downs.getD [])
    · rw [if_pos hc, if_pos ⟨hc.1, .inr hc.2⟩]
    · rw [if_neg hc]
      by_cases he : p < size ∧ (p : Int) = x.pos + s.jump
      · rw [if_pos he, if_pos ⟨he.1, .inl he.2⟩]
      · rw [if_neg he, if_neg (by tauto)]

/-- Steps that stay inside the image and a jump that leaves it, by where the steps end (R188). -/
theorem finishesA_iff {size : Nat} (steps : List StepA) {pos : Int} {last : Nat} : finishesA size steps pos last ↔
    pos + ((steps.map StepA.jump).sum : Nat) < size ∧ (size : Int) ≤ pos + ((steps.map StepA.jump).sum : Nat) + last := by
  induction steps generalizing pos with
  | nil => simp [finishesA]
  | cons x steps ih =>
    rw [finishesA, ih, List.map_cons, List.sum_cons]
    omega

/-- The loop over a sequence of steps that stay inside the image (R187 to R193). -/
theorem loopA_steps {q : Source} {width size : Nat} (hsz : size < 2 ^ 31) (steps : List StepA) {n : Nat} {x : LoopA}
    (hx : x.phase = .jump) (h : x.canvas.rd.Ok) {rest : List Bool}
    (hp : pendingBits q x.canvas.rd = steps.flatMap StepA.bits ++ rest) (hpos : -1 ≤ x.pos)
    (hf : x.pos + ((steps.map StepA.jump).sum : Nat) < size) (hn : (steps.map StepA.ticks).sum ≤ n) :
    ∃ y : LoopA, tickLoop (LoopA.more size) (LoopA.turn q width size) n x
        = tickLoop (LoopA.more size) (LoopA.turn q width size) (n - (steps.map StepA.ticks).sum) y ∧
      y.phase = .jump ∧ y.pos = x.pos + ((steps.map StepA.jump).sum : Nat) ∧
      Delivers q x.canvas.rd (steps.flatMap StepA.bits) y.canvas.rd ∧ pendingBits q y.canvas.rd = rest ∧
      ∀ p, y.canvas.pix.read p = if p < size then paintA width steps x.pos x.canvas.pix.read p else x.canvas.pix.read p := by
  induction steps generalizing n x with
  | nil => exact ⟨x, rfl, hx, by simp, Delivers.refl h, hp, fun p => by simp [paintA]⟩
  | cons s steps ih =>
    rw [List.flatMap_cons, List.append_assoc] at hp
    rw [List.map_cons, List.sum_cons] at hn hf
    obtain ⟨y, e1, px, py, d1, p1, r1⟩ :=
      loopA_step (width := width) s hx h hp hpos hsz (by omega) (by omega) (n := n) (by omega)
    obtain ⟨z, e2, pz, fz, d2, p2, r2⟩ := ih (n := n - s.ticks) px d1.ok p1 (by omega) (by rw [py]; omega) (by omega)
    refine ⟨z, ?_, pz, ?_, d1.trans d2, p2, fun p => ?_⟩
    · rw [e1, e2, List.map_cons, List.sum_cons, Nat.sub_sub]
    · rw [fz, py, List.map_cons, List.sum_cons]
      omega
    · rw [r2, py]
      split
      · rename_i hp'
        refine paintA_at ?_
        rw [r1]
        simp only [hp', true_and]
      · rename_i hp'
        rw [r1, if_neg fun hc => hp' hc.1]

/-! ## Streams that do not reach the end of the image -/

theorem endA_append (l l' : List StepA) : endA (l ++ l') = endA l + ((l'.map StepA.jump).sum : Nat) := by
  simp only [endA, List.map_append, List.sum_append]
  omega

theorem paintA_append (w : Nat) (l l' : List StepA) (pos : Int) (f : Nat → Pixel) :
    paintA w (l ++ l') pos f = paintA w l' (pos + ((l.map StepA.jump).sum : Nat)) (paintA w l pos f) := by
  induction l generalizing pos f with
  | nil => simp [paintA]
  | cons x l ih =>
    rw [List.cons_append, paintA, ih, List.map_cons, List.sum_cons, paintA]
    congr 1
    omega

/-- The pixels after one more step, from those before it (R192, R194). -/
theorem read_paintA_snoc {w size : Nat} {l : List StepA} {x : StepA} {pos : Int} {f g : Nat → Pixel} {m : Memory 4} {a : Nat}
    (ha : a < size) (hg : g a = paintA w l pos f a)
    (hm : m.read a = if a < size ∧ (a : Int) ∈ x.targets w (pos + ((l.map StepA.jump).sum : Nat) + x.jump) then x.v else g a) :
    m.read a = paintA w (l ++ [x]) pos f a := by
  rw [hm, paintA_append]
  simp only [paintA, ha, true_and, hg]

end Sys2Proof.Machine
end

