-- ==== Sys2Proof/Laws/Writer.lean ====
section
/-! SUPPORT. The laws of the writer (40_bit_cursor.md R107 to R110, 41_length_code.md R135): every writer primitive but Flush
is `writeAll` of the bits it writes, and `writeAll` appends them or stops at the first word that does not fit. -/

namespace Sys2Proof.Machine

/-- WriteBit of each bit of a list. -/
def writeAll (cap : Nat) : List Bool → Output → Write
  | [], o => .done o
  | b :: l, o => (writeBit cap b o).andThen (writeAll cap l)

@[simp] theorem Write.andThen_done (o : Output) (f : Output → Write) : (Write.done o).andThen f = f o := rfl
@[simp] theorem Write.andThen_overflow (o : Output) (f : Output → Write) : (Write.overflow o).andThen f = .overflow o := rfl

theorem Write.andThen_assoc (p : Write) (f g : Output → Write) :
    (p.andThen f).andThen g = p.andThen fun o => (f o).andThen g := by
  cases p <;> rfl

@[simp] theorem writeAll_nil (cap : Nat) (o : Output) : writeAll cap [] o = .done o := rfl

theorem writeAll_append (cap : Nat) (l l' : List Bool) (o : Output) :
    writeAll cap (l ++ l') o = (writeAll cap l o).andThen (writeAll cap l') := by
  induction l generalizing o with
  | nil => rfl
  | cons b l ih =>
    rw [List.cons_append, writeAll, writeAll, Write.andThen_assoc]
    congr 1
    funext o
    exact ih o

theorem writeAll_singleton (cap : Nat) (b : Bool) (o : Output) : writeAll cap [b] o = writeBit cap b o := by
  rw [writeAll]
  cases writeBit cap b o <;> rfl

/-- WriteBits(v, n) writes the n low bits of v (R109). -/
theorem writeBits_eq (cap v n : Nat) (o : Output) : writeBits cap v n o = writeAll cap (bitsOf v n) o := by
  induction n generalizing o with
  | zero => rfl
  | succ n ih =>
    rw [writeBits, bitsOf_succ, writeAll]
    congr 1
    funext o
    exact ih o

/-- LcEncode(R) writes the symbol of R (R135). -/
theorem lcEncode_eq (cap len : Nat) (o : Output) : lcEncode cap len o = writeAll cap (lcBits len) o := by
  rw [lcEncode, lcBits, lcSymbol, writeAll_append, writeBits_eq, bitsOf_zero_eq_replicate]
  congr 1
  funext o
  rw [writeAll]
  congr 1
  funext o
  rw [writeBits_eq]

theorem writeFields_eq (cap : Nat) (fields : List (Nat × Nat)) (o : Output) :
    writeFields cap fields o = writeAll cap (fields.flatMap fun f => bitsOf f.1 f.2) o := by
  induction fields generalizing o with
  | nil => rfl
  | cons f fields ih =>
    rw [writeFields, List.flatMap_cons, writeAll_append, writeBits_eq]
    congr 1
    funext o
    exact ih o

/-! ## What a word, a bit and a list of bits do -/

/-- From `o` to `o'` the writer appended exactly the bits `l`, and changed no other byte of DST (R108). -/
structure Appends (o : Output) (l : List Bool) (o' : Output) : Prop where
  ok : o'.wr.Ok
  bits : o'.bits = o.bits ++ l
  len : o'.wr.len.toNat = o.wr.len.toNat + o.wr.grown l.length
  cnt : o'.wr.cnt.toNat = (o.wr.cnt.toNat + l.length) % 16
  frame : ∀ a, a < o.wr.len.toNat ∨ o'.wr.len.toNat ≤ a → o'.dst.read a = o.dst.read a

@[simp] theorem length_outputBits (o : Output) : o.bits.length = 8 * o.wr.len.toNat + o.wr.cnt.toNat := by
  simp [Output.bits]

theorem Writer.grown_add (o : Writer) (n m : Nat) (o' : Writer) (h : o'.cnt.toNat = (o.cnt.toNat + n) % 16) :
    o.grown (n + m) = o.grown n + o'.grown m := by
  unfold Writer.grown
  omega

theorem Appends.refl {o : Output} (h : o.wr.Ok) : Appends o [] o :=
  ⟨h, by simp, by have := o.wr.cnt.isLt; simp [Writer.grown]; omega, by have := o.wr.cnt.isLt; simp; omega, fun _ _ => rfl⟩

theorem Appends.trans {o o' o'' : Output} {l l' : List Bool} (h : Appends o l o') (h' : Appends o' l' o'') :
    Appends o (l ++ l') o'' := by
  have hl := h.len
  have hl' := h'.len
  refine ⟨h'.ok, by rw [h'.bits, h.bits, List.append_assoc], ?_, ?_, fun a ha => ?_⟩
  · rw [List.length_append, o.wr.grown_add _ _ o'.wr h.cnt]
    omega
  · rw [h'.cnt, h.cnt, List.length_append]
    omega
  · rw [h'.frame a (by omega), h.frame a (by omega)]

/-- Storing a completed word (R108): its 16 bits follow the bytes written, its two bytes are all that changes. -/
theorem Output.emit_done {cap : Nat} {o : Output} {word : BitVec 16} (hcap : cap < 2 ^ 32)
    (h : o.wr.len.toNat + 2 ≤ cap) :
    ∃ dst, o.emit cap word = .done { dst := dst, wr := { len := o.wr.len + 2#32, buf := 0#16, cnt := 0#4 } } ∧
      (o.wr.len + 2#32).toNat = o.wr.len.toNat + 2 ∧
      byteBits dst 0 (o.wr.len.toNat + 2) = byteBits o.dst 0 o.wr.len.toNat ++ bitsOf word.toNat 16 ∧
      (∀ a, a < o.wr.len.toNat ∨ o.wr.len.toNat + 2 ≤ a → dst.read a = o.dst.read a) ∧
      ∀ n, o.dst.Ok n → o.wr.len.toNat + 2 ≤ n → dst.Ok n := by
  refine ⟨o.dst.writeList o.wr.len.toNat [word.extractLsb' 8 8, word.extractLsb' 0 8], ?_, ?_, ?_, ?_, ?_⟩
  · rw [Output.emit, if_neg (by omega)]
  · rw [BitVec.toNat_add]
    simp
    omega
  · rw [byteBits_add]
    congr 1
    · refine byteBits_congr fun i hi => ?_
      rw [Memory.read_writeList, if_neg (by omega)]
    · have hw : word = word.extractLsb' 8 8 ++ word.extractLsb' 0 8 := by
        refine BitVec.eq_of_toNat_eq ?_
        rw [BitVec.toNat_append]
        simp only [BitVec.extractLsb'_toNat, Nat.shiftRight_zero]
        rw [← Nat.shiftLeft_add_eq_or_of_lt (Nat.mod_lt _ (by norm_num)), Nat.shiftLeft_eq, Nat.shiftRight_eq_div_pow]
        have := word.isLt
        omega
      conv_rhs => rw [hw]
      rw [bitsOf_pair, byteBits_succ, byteBits_succ, byteBits_zero, Memory.read_writeList, Memory.read_writeList,
        if_pos (by simp), if_pos (by simp)]
      simp
  · intro a ha
    rw [Memory.read_writeList, if_neg (by simp; omega)]
  · intro n hn hl
    exact Memory.Ok.writeList hn (by simpa using hl)

/-- WR_BUF with one more bit at the right, as a number. -/
theorem Writer.append_toNat {o : Writer} (h : o.Ok) (b : Bool) : (o.append b).toNat = 2 * o.buf.toNat + b.toNat := by
  have hc := o.cnt.isLt
  have hb : o.buf.toNat < 2 ^ 15 := lt_of_lt_of_le h (pow_le_pow_right₀ (by norm_num) (by omega))
  have hd : (o.buf <<< 1).toNat = 2 * o.buf.toNat := by
    rw [BitVec.toNat_shiftLeft, Nat.shiftLeft_eq]
    omega
  have hz : ((BitVec.ofBool b).zeroExtend 16).toNat = b.toNat := by
    cases b <;> rfl
  rw [Writer.append, BitVec.toNat_or, hd, hz]
  cases b with
  | false => simp
  | true =>
    have := Nat.two_pow_add_eq_or_of_lt (i := 1) (b := 1) (by norm_num) o.buf.toNat
    simp at this ⊢
    omega

/-- WriteBit appends its bit when it completes no word, or one that fits (R108). -/
theorem writeBit_done {cap : Nat} {o : Output} (hcap : cap < 2 ^ 32) (h : o.wr.Ok) (b : Bool)
    (hf : o.wr.len.toNat + o.wr.grown 1 ≤ cap) : ∃ o', writeBit cap b o = .done o' ∧ Appends o [b] o' := by
  have ha := Writer.append_toNat h b
  have hc := o.wr.cnt.isLt
  unfold writeBit
  split
  · rename_i h15
    have h15' : o.wr.cnt.toNat = 15 := by rw [h15]; rfl
    have hg : o.wr.grown 1 = 2 := by rw [Writer.grown, h15']
    obtain ⟨dst, h1, h2, h3, h4, -⟩ := Output.emit_done (o := o) (word := o.wr.append b) hcap (by omega)
    refine ⟨_, h1, ⟨by simp, ?_, by rw [h2, List.length_singleton, hg], ?_, ?_⟩⟩
    · rw [Output.bits, h2, h3, ha, Output.bits, h15', bitsOf_double]
      simp
    · rw [h15']
      simp
    · intro a hx
      simp only [h2] at hx
      exact h4 a hx
  · rename_i h15
    have h15' : o.wr.cnt.toNat < 15 := by
      have : o.wr.cnt.toNat ≠ 15 := fun e => h15 (BitVec.eq_of_toNat_eq e)
      omega
    have hg : o.wr.grown 1 = 0 := by
      rw [Writer.grown]
      omega
    have hc1 : (o.wr.cnt + 1#4).toNat = o.wr.cnt.toNat + 1 := by
      rw [BitVec.toNat_add]
      simp
      omega
    refine ⟨_, rfl, ⟨?_, ?_, by rw [List.length_singleton, hg]; rfl, ?_, fun _ _ => rfl⟩⟩
    · simp only [Writer.Ok, hc1, ha, pow_succ]
      have : o.wr.buf.toNat < 2 ^ o.wr.cnt.toNat := h
      cases b <;> simp <;> omega
    · simp only [Output.bits, hc1, ha, bitsOf_double, List.append_assoc]
    · simp only [hc1, List.length_singleton]
      omega

/-- `writeAll` appends all its bits when the words they complete fit. -/
theorem writeAll_done {cap : Nat} (hcap : cap < 2 ^ 32) (l : List Bool) {o : Output} (h : o.wr.Ok)
    (hf : o.wr.len.toNat + o.wr.grown l.length ≤ cap) : ∃ o', writeAll cap l o = .done o' ∧ Appends o l o' := by
  induction l generalizing o with
  | nil => exact ⟨o, rfl, Appends.refl h⟩
  | cons b l ih =>
    have hg := fun o' h => o.wr.grown_add 1 l.length o' h
    rw [List.length_cons, Nat.add_comm l.length 1] at hf
    have hm : o.wr.grown 1 ≤ o.wr.grown (1 + l.length) := by
      unfold Writer.grown
      omega
    obtain ⟨o1, h1, a1⟩ := writeBit_done hcap h b (by omega)
    have hg1 := hg o1.wr a1.cnt
    have hl1 := a1.len
    rw [List.length_singleton] at hl1
    obtain ⟨o2, h2, a2⟩ := ih a1.ok (by omega)
    exact ⟨o2, by rw [writeAll, h1, Write.andThen_done, h2], a1.trans a2⟩

/-- What the writer holds after OUTPUT_OVERFLOW in a list of bits (R108, 60_exceptions.md R280): the words that fit, and
the 15 bits before the one that completed the next word. -/
structure Overflows (cap : Nat) (o : Output) (l : List Bool) (o' : Output) : Prop where
  ok : o'.wr.Ok
  bits : o'.bits = (o.bits ++ l).take (8 * o'.wr.len.toNat + 15)
  len : o'.wr.len.toNat = o.wr.len.toNat + 2 * ((cap - o.wr.len.toNat) / 2)
  cnt : o'.wr.cnt = 15#4
  frame : ∀ a, a < o.wr.len.toNat ∨ o'.wr.len.toNat ≤ a → o'.dst.read a = o.dst.read a

/-- `writeAll` stops at the first word that does not fit. -/
theorem writeAll_overflow {cap : Nat} (hcap : cap < 2 ^ 32) (l : List Bool) {o : Output} (h : o.wr.Ok)
    (hl : o.wr.len.toNat ≤ cap) (hf : cap < o.wr.len.toNat + o.wr.grown l.length) :
    ∃ o', writeAll cap l o = .overflow o' ∧ Overflows cap o l o' := by
  induction l generalizing o with
  | nil =>
    have : o.wr.grown 0 = 0 := by
      have := o.wr.cnt.isLt
      rw [Writer.grown]
      omega
    rw [List.length_nil] at hf
    omega
  | cons b l ih =>
    rw [List.length_cons, Nat.add_comm l.length 1] at hf
    rcases Nat.lt_or_ge cap (o.wr.len.toNat + o.wr.grown 1) with h1 | h1
    · have hc := o.wr.cnt.isLt
      have h15 : o.wr.cnt.toNat = 15 := by
        rw [Writer.grown] at h1
        omega
      have h15' : o.wr.cnt = 15#4 := BitVec.eq_of_toNat_eq h15
      have hg : o.wr.grown 1 = 2 := by rw [Writer.grown, h15]
      refine ⟨o, ?_, ⟨h, ?_, by omega, h15', fun _ _ => rfl⟩⟩
      · rw [writeAll, writeBit, if_pos h15', Output.emit, if_pos (by omega)]
        rfl
      · rw [List.take_append_of_le_length (by rw [length_outputBits, h15]), List.take_of_length_le (by rw [length_outputBits, h15])]
    · obtain ⟨o1, w1, a1⟩ := writeBit_done hcap h b h1
      have hg1 := o.wr.grown_add 1 l.length o1.wr a1.cnt
      have hl1 := a1.len
      rw [List.length_singleton] at hl1
      obtain ⟨o2, w2, v2⟩ := ih a1.ok (by omega) (by omega)
      refine ⟨o2, by rw [writeAll, w1, Write.andThen_done, w2], ⟨v2.ok, ?_, ?_, v2.cnt, fun a ha => ?_⟩⟩
      · rw [v2.bits, a1.bits, List.append_assoc]
        rfl
      · rw [v2.len]
        have : o.wr.grown 1 % 2 = 0 := by
          rw [Writer.grown]
          omega
        omega
      · have := v2.len
        rw [v2.frame a (by omega), a1.frame a (by omega)]

/-- `writeAll` either appends all its bits or overflows. -/
theorem writeAll_cases {cap : Nat} (hcap : cap < 2 ^ 32) (l : List Bool) {o : Output} (h : o.wr.Ok)
    (hl : o.wr.len.toNat ≤ cap) :
    (∃ o', writeAll cap l o = .done o' ∧ Appends o l o' ∧ o'.wr.len.toNat ≤ cap) ∨
    ∃ o', writeAll cap l o = .overflow o' ∧ Overflows cap o l o' ∧ o'.wr.len.toNat ≤ cap := by
  rcases Nat.lt_or_ge cap (o.wr.len.toNat + o.wr.grown l.length) with hf | hf
  · obtain ⟨o', h1, h2⟩ := writeAll_overflow hcap l h hl hf
    have := h2.len
    exact .inr ⟨o', h1, h2, by omega⟩
  · obtain ⟨o', h1, h2⟩ := writeAll_done hcap l h hf
    have := h2.len
    exact .inl ⟨o', h1, h2, by omega⟩

/-- DST stays legal, whatever a list of bits does. -/
theorem writeBit_dst_ok {cap : Nat} {o o' : Output} {b : Bool} (h : o.dst.Ok cap)
    (he : writeBit cap b o = .done o' ∨ writeBit cap b o = .overflow o') : o'.dst.Ok cap := by
  unfold writeBit Output.emit at he
  split at he
  · split at he
    · rcases he with he | he
      · simp at he
      · obtain rfl := Write.overflow.inj he
        exact h
    · rcases he with he | he
      · obtain rfl := Write.done.inj he
        exact Memory.Ok.writeList h (by simp; omega)
      · simp at he
  · rcases he with he | he
    · obtain rfl := Write.done.inj he
      exact h
    · simp at he

theorem writeAll_dst_ok {cap : Nat} {l : List Bool} {o o' : Output} (h : o.dst.Ok cap)
    (he : writeAll cap l o = .done o' ∨ writeAll cap l o = .overflow o') : o'.dst.Ok cap := by
  induction l generalizing o with
  | nil =>
    rcases he with he | he
    · obtain rfl := Write.done.inj he
      exact h
    · simp at he
  | cons b l ih =>
    rw [writeAll] at he
    rcases hb : writeBit cap b o with o1 | o1
    · rw [hb] at he
      exact ih (writeBit_dst_ok h (.inl hb)) he
    · rw [hb] at he
      rcases he with he | he
      · simp at he
      · obtain rfl := Write.overflow.inj he
        exact writeBit_dst_ok h (.inr hb)

/-! ## Flush -/

/-- Flush with no pending bit (R110). -/
theorem flush_empty {cap : Nat} {o : Output} (h : o.wr.cnt = 0#4) : flush cap o = .done o := by
  rw [flush, if_pos h]

/-- Flush of pending bits whose word fits: zero bits up to the end of the word (R110). -/
theorem flush_done {cap : Nat} {o : Output} (hcap : cap < 2 ^ 32) (h : o.wr.Ok) (hc : o.wr.cnt ≠ 0#4)
    (hf : o.wr.len.toNat + 2 ≤ cap) :
    ∃ dst, flush cap o = .done { dst := dst, wr := { len := o.wr.len + 2#32, buf := 0#16, cnt := 0#4 } } ∧
      (o.wr.len + 2#32).toNat = o.wr.len.toNat + 2 ∧
      byteBits dst 0 (o.wr.len.toNat + 2) = o.bits ++ List.replicate (16 - o.wr.cnt.toNat) false ∧
      (∀ a, a < o.wr.len.toNat ∨ o.wr.len.toNat + 2 ≤ a → dst.read a = o.dst.read a) ∧
      ∀ n, o.dst.Ok n → o.wr.len.toNat + 2 ≤ n → dst.Ok n := by
  obtain ⟨dst, h1, h2, h3, h4, h5⟩ := Output.emit_done (o := o) (word := o.wr.buf <<< (16 - o.wr.cnt.toNat)) hcap hf
  refine ⟨dst, by rw [flush, if_neg hc, h1], h2, ?_, h4, h5⟩
  have hlt := o.wr.cnt.isLt
  have hw : (o.wr.buf <<< (16 - o.wr.cnt.toNat)).toNat = o.wr.buf.toNat * 2 ^ (16 - o.wr.cnt.toNat) := by
    rw [BitVec.toNat_shiftLeft, Nat.shiftLeft_eq, Nat.mod_eq_of_lt]
    have hb : o.wr.buf.toNat < 2 ^ o.wr.cnt.toNat := h
    calc o.wr.buf.toNat * 2 ^ (16 - o.wr.cnt.toNat)
        < 2 ^ o.wr.cnt.toNat * 2 ^ (16 - o.wr.cnt.toNat) := Nat.mul_lt_mul_of_pos_right hb (by positivity)
      _ = 2 ^ 16 := by rw [← pow_add]; congr 1; omega
  rw [h3, hw, Output.bits, List.append_assoc]
  congr 1
  have hs := bitsOf_shift o.wr.buf.toNat o.wr.cnt.toNat (16 - o.wr.cnt.toNat)
  rwa [show o.wr.cnt.toNat + (16 - o.wr.cnt.toNat) = 16 by omega] at hs

/-- Flush of pending bits whose word does not fit changes nothing (R108, R110). -/
theorem flush_overflow {cap : Nat} {o : Output} (hc : o.wr.cnt ≠ 0#4) (hf : cap < o.wr.len.toNat + 2) :
    flush cap o = .overflow o := by
  rw [flush, if_neg hc, Output.emit, if_pos hf]

/-- Everything Flush can do. -/
theorem flush_cases {cap : Nat} (hcap : cap < 2 ^ 32) {o : Output} (h : o.wr.Ok) :
    (flush cap o = .done o ∧ o.wr.cnt = 0#4) ∨ (flush cap o = .overflow o ∧ o.wr.cnt ≠ 0#4 ∧ cap < o.wr.len.toNat + 2) ∨
    ∃ o', flush cap o = .done o' ∧ Appends o (List.replicate (16 - o.wr.cnt.toNat) false) o' ∧ o'.wr.cnt = 0#4 ∧
      o.wr.cnt ≠ 0#4 ∧ o'.wr.len.toNat = o.wr.len.toNat + 2 ∧ o'.wr.len.toNat ≤ cap ∧ o'.wr.buf = 0#16 ∧
      (o.dst.Ok cap → o'.dst.Ok cap) := by
  by_cases hc : o.wr.cnt = 0#4
  · exact .inl ⟨flush_empty hc, hc⟩
  · rcases Nat.lt_or_ge cap (o.wr.len.toNat + 2) with hf | hf
    · exact .inr (.inl ⟨flush_overflow hc hf, hc, hf⟩)
    · obtain ⟨dst, h1, h2, h3, h4, h5⟩ := flush_done hcap h hc hf
      have hlt := o.wr.cnt.isLt
      have hpos : o.wr.cnt.toNat ≠ 0 := fun e => hc (BitVec.eq_of_toNat_eq (by simpa using e))
      refine .inr (.inr ⟨_, h1, ⟨by simp, ?_, ?_, ?_, ?_⟩, rfl, hc, h2, by rw [h2]; exact hf, rfl, fun hn => h5 cap hn hf⟩)
      · rw [Output.bits, h2, h3]
        simp
      · rw [h2, List.length_replicate, Writer.grown]
        omega
      · rw [List.length_replicate]
        simp
        omega
      · intro a ha
        exact h4 a (by simpa only [h2] using ha)

end Sys2Proof.Machine
end

