-- ==== Sys2Proof/Laws/Encoder.lean ====
section
/-! SUPPORT. The laws of the Variant B encoder (44_encoder.md): the maximal run, the bits of one run, and what the loop does on
a whole image. -/

namespace Sys2Proof.Machine

theorem runFrom_spec (pix : Memory 4) (pos : Nat) (c : Pixel) (m run : Nat) :
    run ≤ runFrom pix pos c m run ∧ runFrom pix pos c m run ≤ run + m ∧
      (∀ j, run ≤ j → j < runFrom pix pos c m run → pix.read (pos + j) = c) ∧
      (runFrom pix pos c m run < run + m → pix.read (pos + runFrom pix pos c m run) ≠ c) := by
  induction m generalizing run with
  | zero => exact ⟨le_refl _, le_refl _, fun j h1 h2 => by simp [runFrom] at h2; omega, fun h => by simp [runFrom] at h⟩
  | succ m ih =>
    rw [runFrom]
    by_cases h : pix.read (pos + run) = c
    · rw [if_pos h]
      obtain ⟨h1, h2, h3, h4⟩ := ih (run + 1)
      refine ⟨by omega, by omega, fun j hj1 hj2 => ?_, fun hlt => h4 (by omega)⟩
      rcases Nat.eq_or_lt_of_le hj1 with rfl | hj
      · exact h
      · exact h3 j hj hj2
    · rw [if_neg h]
      exact ⟨le_refl _, by omega, fun j h1 h2 => by omega, fun _ => h⟩

/-- The run at a position is maximal, at least one pixel long, and ends inside the image (R223). -/
theorem runLength_spec (pix : Memory 4) {pos : Nat} (hpos : pos < 4096) :
    1 ≤ runLength pix pos ∧ pos + runLength pix pos ≤ 4096 ∧
      (∀ j, j < runLength pix pos → pix.read (pos + j) = pix.read pos) ∧
      (pos + runLength pix pos < 4096 → pix.read (pos + runLength pix pos) ≠ pix.read pos) := by
  have he : runLength pix pos = runFrom pix pos (pix.read pos) (4096 - (pos + 1)) 1 := rfl
  obtain ⟨h1, h2, h3, h4⟩ := runFrom_spec pix pos (pix.read pos) (4096 - (pos + 1)) 1
  rw [← he] at h1 h2 h3 h4
  refine ⟨h1, by omega, fun j hj => ?_, fun h => h4 (by omega)⟩
  rcases Nat.eq_zero_or_pos j with rfl | hj0
  · rfl
  · exact h3 j hj0 hj

/-- The run ENC_B writes at a position (R222 to R225). -/
def runAt (pix : Memory 4) (pos : Nat) : RunB where
  v := pix.read pos
  flag := if probe pix pos then .left1 0#3 else .zero
  len := runLength pix pos

/-- A run is written as its bits (R222). -/
theorem writeRun_eq (cap : Nat) (pix : Memory 4) (pos : Nat) (o : Output) :
    writeRun cap pix pos o = writeAll cap (runAt pix pos).bits o := by
  have hflag : ∀ b o, writeFlag cap b o = writeAll cap (if b then FlagB.left1 0#3 else .zero).bits o := by
    intro b o
    cases b with
    | false => exact (writeAll_singleton cap false o).symm
    | true =>
      rw [writeFlag, if_pos rfl, if_pos rfl, FlagB.bits, List.cons_append, List.cons_append, List.nil_append, writeAll]
      congr 1
  rw [RunB.bits, writeAll_append, writeAll_append, Write.andThen_assoc, writeRun, writeBits_eq]
  congr 1
  funext o
  rw [hflag]
  congr 1
  funext o
  rw [lcEncode_eq]
  rfl

/-- A run of ENC_B takes at most 11 bits a pixel (R226). -/
theorem length_runAt_bits (pix : Memory 4) {pos : Nat} (hpos : pos < 4096) :
    (runAt pix pos).bits.length ≤ 11 * runLength pix pos := by
  have hf : (runAt pix pos).flag.bits.length ≤ 5 := by
    simp only [runAt]
    split <;> simp [FlagB.bits]
  have h1 := (runLength_spec pix hpos).1
  have hr := (lcK_range (runLength pix pos)).1
  have hl : (runAt pix pos).bits.length = 4 + (runAt pix pos).flag.bits.length + (2 * lcK (runLength pix pos) + 2) := by
    simp [RunB.bits, runAt, Nat.add_assoc]
  have hk : lcK (runLength pix pos) < 2 ^ lcK (runLength pix pos) := Nat.lt_two_pow_self
  rw [pow_succ] at hr
  omega

theorem LoopEnc.more_iff (x : LoopEnc) : LoopEnc.more x = true ↔ x.pos < 4096 := decide_eq_true_iff

/-- The loop over the rest of an image, with room for it: the image's runs, appended (R222 to R225). -/
theorem encodeLoop {cap : Nat} (hcap : cap < 2 ^ 32) (pix : Memory 4) (n : Nat) {pos : Nat} {o : Output} (hpos : pos ≤ 4096)
    (hn : 4096 - pos ≤ n) (h : o.wr.Ok) (hroom : o.wr.len.toNat + o.wr.grown (11 * (4096 - pos)) ≤ cap) :
    ∃ runs o', tickLoop LoopEnc.more (LoopEnc.turn cap pix) n { pos := pos, out := o }
        = (.normal, { pos := 4096, out := o' }) ∧
      encodesB pix runs pos ∧ Appends o (runs.flatMap RunB.bits) o' ∧
      (runs.flatMap RunB.bits).length ≤ 11 * (4096 - pos) ∧ runs.length ≤ 4096 - pos := by
  induction n generalizing pos o with
  | zero =>
    obtain rfl : pos = 4096 := by omega
    exact ⟨[], o, tickLoop_done 0 rfl, rfl, Appends.refl h, by simp, by simp⟩
  | succ n ih =>
    rcases Nat.eq_or_lt_of_le hpos with rfl | hlt
    · exact ⟨[], o, tickLoop_done _ rfl, rfl, Appends.refl h, by simp, by simp⟩
    · obtain ⟨h1, h2, h3, h4⟩ := runLength_spec pix hlt
      have hb := length_runAt_bits pix hlt
      have hg : o.wr.grown (runAt pix pos).bits.length ≤ o.wr.grown (11 * (4096 - pos)) := by
        unfold Writer.grown
        omega
      obtain ⟨o1, w1, a1⟩ := writeAll_done hcap (runAt pix pos).bits h (by omega)
      have hroom1 : o1.wr.len.toNat + o1.wr.grown (11 * (4096 - (pos + runLength pix pos))) ≤ cap := by
        have hadd := o.wr.grown_add (runAt pix pos).bits.length (11 * (4096 - (pos + runLength pix pos))) o1.wr a1.cnt
        have hm : o.wr.grown ((runAt pix pos).bits.length + 11 * (4096 - (pos + runLength pix pos)))
            ≤ o.wr.grown (11 * (4096 - pos)) := by
          unfold Writer.grown
          omega
        have := a1.len
        omega
      obtain ⟨runs, o2, e2, r2, a2, l2, n2⟩ := ih (by omega) (by omega) a1.ok hroom1
      refine ⟨runAt pix pos :: runs, o2, ?_, ?_, ?_, ?_, ?_⟩
      · rw [tickLoop_again n ((LoopEnc.more_iff _).2 hlt) (y := { pos := pos + runLength pix pos, out := o1 }), e2]
        simp only [LoopEnc.turn, writeRun_eq, w1]
      · refine ⟨hlt, rfl, h1, h2, h3, h4, ?_, r2⟩
        simp only [runAt, probe, decide_eq_true_eq, show Config.imgSize = 4096 from rfl]
      · rw [List.flatMap_cons]
        exact a1.trans a2
      · rw [List.flatMap_cons, List.length_append]
        omega
      · rw [List.length_cons]
        omega

/-- A turn either appends a run and moves on by its length, or overflows. -/
theorem LoopEnc.turn_cases {cap : Nat} (hcap : cap < 2 ^ 32) (pix : Memory 4) {x : LoopEnc} (h : x.out.wr.Ok)
    (hl : x.out.wr.len.toNat ≤ cap) :
    (∃ o', LoopEnc.turn cap pix x = .again { pos := x.pos + runLength pix x.pos, out := o' } ∧
      Appends x.out (runAt pix x.pos).bits o' ∧ o'.wr.len.toNat ≤ cap) ∨
    ∃ o', LoopEnc.turn cap pix x = .stop (.raised .outputOverflow) { x with out := o' } ∧
      Overflows cap x.out (runAt pix x.pos).bits o' ∧ o'.wr.len.toNat ≤ cap := by
  rcases writeAll_cases hcap (runAt pix x.pos).bits h hl with ⟨o', w, a⟩ | ⟨o', w, a⟩
  · exact .inl ⟨o', by simp only [LoopEnc.turn, writeRun_eq, w], a⟩
  · exact .inr ⟨o', by simp only [LoopEnc.turn, writeRun_eq, w], a⟩

end Sys2Proof.Machine
end

