-- ==== Sys2Proof/Laws/HostPort.lean ====
section
/-! SUPPORT. The laws of the host's accesses (20_memory.md R66, R67): where a register and a pixel lie, that an access reaches
only entries the block has, and what a step is for each outcome of the host's action. -/

namespace Sys2Proof.Machine

/-- An address is looked up by its offset from SF1PC_BASE (R66). -/
theorem locate_base (c : Config) (off size : Nat) : locate c (c.base + off) size = locateOffset c off size := by
  simp [locate]

/-- A register is reached at its own offset by a word access (10_state.md R22). -/
theorem locate_reg (c : Config) (r : RegName) : locate c (c.base + r.offset) 4 = .ok (.reg r) := by
  have h : r.offset < 0x54 ∧ r.offset % 4 = 0 ∧ regAt r.offset = some r := by cases r <;> decide
  rw [locate_base, locateOffset, if_pos h.1, regAccess, h.2.2]
  simp [wordAccess, h.2.1]

/-- An aligned word access reaches its entry (R67). -/
theorem wordAccess_entry {first : Nat} (h : first % 4 = 0) (i : Nat) (t : Nat → Target) :
    wordAccess (first + 4 * i) 4 (t ((first + 4 * i - first) / 4)) = .ok (t i) := by
  rw [wordAccess, if_pos ⟨rfl, by omega⟩, Nat.add_sub_cancel_left, Nat.mul_div_cancel_left i (by norm_num)]

/-- A byte access reaches its entry (R67). -/
theorem byteAccess_entry (first i : Nat) (t : Nat → Target) : byteAccess 1 (t (first + i - first)) = .ok (t i) := by
  rw [byteAccess, if_pos rfl, Nat.add_sub_cancel_left]

/-! Where each window lies, and the width of its accesses (R66, R67). -/

theorem locate_palram (c : Config) {i : Nat} (hi : i < 16) :
    locate c (c.base + (0x100 + 4 * i)) 4 = .ok (.palram i) := by
  rw [locate_base, locateOffset]
  split_ifs <;> first | omega | exact wordAccess_entry rfl i .palram

theorem locate_palb (c : Config) {i : Nat} (hi : i < 32) :
    locate c (c.base + (0x140 + i)) 1 = .ok (.palb i) := by
  rw [locate_base, locateOffset]
  split_ifs <;> first | omega | exact byteAccess_entry _ i .palb

theorem locate_warnlog (c : Config) {i : Nat} (hi : i < c.warnCap) :
    locate c (c.base + (0x200 + 4 * i)) 4 = .ok (.warnlog i) := by
  rw [locate_base, locateOffset]
  split_ifs <;> first | omega | exact wordAccess_entry rfl i .warnlog

theorem locate_blinkTbl {c : Config} (hw : c.warnCap ≤ 64) {i : Nat} (hi : i < 1020) :
    locate c (c.base + (0x400 + i)) 1 = .ok (.blinkTbl i) := by
  rw [locate_base, locateOffset]
  split_ifs <;> first | omega | exact byteAccess_entry _ i .blinkTbl

theorem locate_talkTbl {c : Config} (hw : c.warnCap ≤ 64) {i : Nat} (hi : i < 1020) :
    locate c (c.base + (0x800 + i)) 1 = .ok (.talkTbl i) := by
  rw [locate_base, locateOffset]
  split_ifs <;> first | omega | exact byteAccess_entry _ i .talkTbl

theorem locate_pix {c : Config} (hw : c.warnCap ≤ 64) {i : Nat} (hi : i < c.pixCap) :
    locate c (c.base + (0x10000 + i)) 1 = .ok (.pix i) := by
  rw [locate_base, locateOffset]
  split_ifs <;> first | omega | exact byteAccess_entry _ i .pix

theorem locate_src {c : Config} (h : c.Legal) {i : Nat} (hi : i < c.srcCap) :
    locate c (c.base + (0x1000000 + i)) 1 = .ok (.src i) := by
  have caps := h
  rw [Config.Legal] at caps
  rw [locate_base, locateOffset]
  split_ifs <;> first | omega | exact byteAccess_entry _ i .src

theorem locate_dst {c : Config} (h : c.Legal) {i : Nat} (hi : i < c.dstCap) :
    locate c (c.base + (0x2000000 + i)) 1 = .ok (.dst i) := by
  have caps := h
  rw [Config.Legal] at caps
  rw [locate_base, locateOffset]
  split_ifs <;> first | omega | exact byteAccess_entry _ i .dst

/-- The entry is one the block has (10_state.md R38 to R44). -/
def Target.within (c : Config) : Target → Prop
  | .reg _ => True
  | .palram i => i < Config.palramSize
  | .palb i => i < Config.palbSize
  | .warnlog i => i < c.warnCap
  | .blinkTbl i => i < Config.tableSize
  | .talkTbl i => i < Config.tableSize
  | .pix i => i < c.pixCap
  | .src i => i < c.srcCap
  | .dst i => i < c.dstCap

theorem wordAccess_ok {off size : Nat} {t t' : Target} (h : wordAccess off size t = .ok t') : t' = t := by
  rw [wordAccess] at h
  split at h
  · exact (Except.ok.inj h).symm
  · simp at h

theorem byteAccess_ok {size : Nat} {t t' : Target} (h : byteAccess size t = .ok t') : t' = t := by
  rw [byteAccess] at h
  split at h
  · exact (Except.ok.inj h).symm
  · simp at h

/-- An access that is not refused reaches an entry the block has (R66). -/
theorem locate_within {c : Config} {addr size : Nat} {t : Target} (h : locate c addr size = .ok t) : t.within c := by
  rw [locate] at h
  split at h
  · simp at h
  · generalize addr - c.base = off at h
    rw [locateOffset] at h
    split at h
    · rw [regAccess] at h
      split at h
      · rw [wordAccess_ok h]
        trivial
      · simp at h
    all_goals repeat' split at h
    all_goals first
      | (have := wordAccess_ok h; subst this; simp only [Target.within, Config.palramSize]; omega)
      | (have := byteAccess_ok h; subst this; simp only [Target.within, Config.palbSize, Config.tableSize]; omega)
      | simp at h

/-- What a host read does when it reaches something (70_reset_and_hazards.md R306, R307). -/
theorem step_read {s : State} {addr size : Nat} {rest : List HostAction} {t : Target}
    (hp : s.program = .read addr size :: rest) (hl : locate s.cfg addr size = .ok t)
    (hb : s.busy = false ∨ t = .reg .status) :
    step s = .next { s with program := rest, replies := ({ s with program := rest } : State).readTarget t :: s.replies } := by
  have h : ¬(s.busy = true ∧ t ≠ .reg .status) := by rcases hb with hb | hb <;> simp [hb]
  simp only [step, State.fetch, hp, State.hostAction, State.hostRead, hl, if_neg h]

/-- What a host write of a value does when it reaches something that is not CMD (R307). -/
theorem step_write {s : State} {addr size : Nat} {v : Word} {rest : List HostAction} {t : Target}
    (hp : s.program = .write addr size (.lit v) :: rest) (hl : locate s.cfg addr size = .ok t) (hb : s.busy = false)
    (ht : t ≠ .reg .cmd) : step s = .next (({ s with program := rest } : State).writeTarget t v) := by
  simp only [step, State.fetch, hp, State.hostAction, State.hostWrite, hl, hb, State.hostValue, if_neg ht]
  rfl

/-- An access that reaches nothing is refused (R66, R67). -/
theorem step_unreached {s : State} {addr size : Nat} {x : HostValue} {rest : List HostAction} {r : Refusal}
    (hp : s.program = .read addr size :: rest ∨ s.program = .write addr size x :: rest)
    (hl : locate s.cfg addr size = .error r) : step s = .refused r := by
  rcases hp with hp | hp
  · simp only [step, State.fetch, hp, State.hostAction, State.hostRead, hl]
  · simp only [step, State.fetch, hp, State.hostAction, State.hostWrite, hl]

/-- A step whose action is no command (20_memory.md R71). -/
theorem step_done {s s' : State} (h : s.fetch = .done s') : step s = .next s' := by rw [step, h]

theorem step_refuse {s : State} {r : Refusal} (h : s.fetch = .refuse r) : step s = .refused r := by rw [step, h]

/-- A step whose action writes a command word to CMD. -/
theorem step_command {s s' : State} {w : Word} {i : Instr} (h : s.fetch = .command w s') (hd : decode w = .ok i) :
    step s = exec i s' := by simp only [step, h, hd]

theorem step_illegal {s s' : State} {w : Word} {e : DecodeError} (h : s.fetch = .command w s') (hd : decode w = .error e) :
    step s = .next s'.illegalCommand := by simp only [step, h, hd]

end Sys2Proof.Machine
end

