-- ==== Sys2Proof/Laws/Locality.lean ====
section
/-! SUPPORT. What the primitives depend on: every reader primitive on the bytes of SRC below SRC_LEN only (10_state.md R38), and
every writer primitive on no byte of DST (10_state.md R39, 20_memory.md R65). -/

namespace Sys2Proof.Machine

/-- The two sources are the same below SRC_LEN. -/
structure Source.Agree (q q' : Source) : Prop where
  len : q.len = q'.len
  oddTail : q.oddTail = q'.oddTail
  mem : ∀ a, a < q.len.toNat → q.mem.read a = q'.mem.read a

variable {q q' : Source}

theorem refill_agree (h : q.Agree q') : refill q = refill q' := by
  funext r
  unfold refill
  rw [← h.len, ← h.oddTail]
  split
  · rw [h.mem _ (by omega), h.mem _ (by omega)]
  · split
    · rw [h.mem _ (by omega)]
    · rfl

theorem readBit_agree (h : q.Agree q') : readBit q = readBit q' := by
  funext r
  rw [readBit, readBit, refill_agree h]

theorem readBits_agree (h : q.Agree q') (n : Nat) : readBits q n = readBits q' n := by
  have key : ∀ v, readBitsFrom q n v = readBitsFrom q' n v := by
    induction n with
    | zero => exact fun v => rfl
    | succ n ih =>
      intro v
      funext r
      rw [readBitsFrom, readBitsFrom, readBit_agree h]
      simp only [ih]
  funext r
  rw [readBits, readBits, key]

theorem lcDecodeSat_agree (h : q.Agree q') : lcDecodeSat q = lcDecodeSat q' := by
  have hz : ∀ m k, countZeros q m k = countZeros q' m k := by
    intro m
    induction m with
    | zero => exact fun k => rfl
    | succ m ih =>
      intro k
      funext r
      rw [countZeros, countZeros, readBit_agree h]
      simp only [ih]
  have hd : lcDecode q = lcDecode q' := by
    funext r
    rw [lcDecode, lcDecode, hz, show bitsLeft q r = bitsLeft q' r by rw [bitsLeft, bitsLeft, h.len]]
    simp only [readBits_agree h]
  funext r
  rw [lcDecodeSat, lcDecodeSat, hd]

theorem readHeader_agree (h : q.Agree q') : readHeader q = readHeader q' := by
  funext r
  rw [readHeader, readHeader]
  simp only [readBits_agree h]

theorem decodeBodyA_agree (h : q.Agree q') (limit width size : Nat) :
    decodeBodyA q limit width size = decodeBodyA q' limit width size := by
  have hs : readSel q = readSel q' := by
    funext r
    rw [readSel, readSel]
    simp only [readBit_agree h]
  have ht : LoopA.turn q width size = LoopA.turn q' width size := by
    funext x
    simp only [LoopA.turn, LoopA.jumpTurn, LoopA.predictTurn, lcDecodeSat_agree h, readBits_agree h, readBit_agree h, hs]
  funext c
  rw [decodeBodyA, decodeBodyA, ht]

theorem decodeBodyB_agree (h : q.Agree q') (limit : Nat) : decodeBodyB q limit = decodeBodyB q' limit := by
  have hc : readCopyDown q = readCopyDown q' := by
    funext r
    rw [readCopyDown, readCopyDown]
    simp only [readBit_agree h]
  have ht : LoopB.turn q = LoopB.turn q' := by
    funext x
    simp only [LoopB.turn, flagPart, runPart, lcDecodeSat_agree h, readBits_agree h, readBit_agree h, hc]
  funext c
  simp only [decodeBodyB, readBits_agree h, ht]

/-! ## Writers -/

/-- The two outputs began on the DSTs `m` and `m'`, have the same writer registers, and every byte either is the same in
both or is still the one each began with. -/
structure Output.Alike (m m' : Memory 8) (o o' : Output) : Prop where
  wr : o.wr = o'.wr
  dst : ∀ a, o'.dst.read a = o.dst.read a ∨ (o'.dst.read a = m'.read a ∧ o.dst.read a = m.read a)

/-- The two results are of the same kind, with alike outputs. -/
def Write.Alike (m m' : Memory 8) : Write → Write → Prop
  | .done o, .done o' => o.Alike m m' o'
  | .overflow o, .overflow o' => o.Alike m m' o'
  | .done _, .overflow _ => False
  | .overflow _, .done _ => False

variable {m m' : Memory 8}

/-- The same bytes stored in both memories. -/
theorem writeList_alike {d d' : Memory 8} (off : Nat) (bytes : List Byte)
    (h : ∀ a, d'.read a = d.read a ∨ (d'.read a = m'.read a ∧ d.read a = m.read a)) (a : Nat) :
    (d'.writeList off bytes).read a = (d.writeList off bytes).read a ∨
    ((d'.writeList off bytes).read a = m'.read a ∧ (d.writeList off bytes).read a = m.read a) := by
  rw [Memory.read_writeList, Memory.read_writeList]
  split
  · exact .inl rfl
  · exact h a

theorem Write.Alike.andThen {p p' : Write} {f f' : Output → Write} (h : p.Alike m m' p')
    (hf : ∀ o o' : Output, o.Alike m m' o' → (f o).Alike m m' (f' o')) : (p.andThen f).Alike m m' (p'.andThen f') := by
  rcases p with o | o <;> rcases p' with o' | o'
  · exact hf o o' h
  · exact h.elim
  · exact h.elim
  · exact h

theorem emit_alike (cap : Nat) (word : BitVec 16) {o o' : Output} (h : o.Alike m m' o') :
    (o.emit cap word).Alike m m' (o'.emit cap word) := by
  rw [Output.emit, Output.emit, h.wr]
  split
  · exact h
  · exact ⟨rfl, writeList_alike _ _ h.dst⟩

theorem writeBit_alike (cap : Nat) (b : Bool) {o o' : Output} (h : o.Alike m m' o') :
    (writeBit cap b o).Alike m m' (writeBit cap b o') := by
  rw [writeBit, writeBit, h.wr]
  split
  · exact emit_alike cap _ h
  · exact ⟨rfl, h.dst⟩

theorem writeBits_alike (cap v n : Nat) {o o' : Output} (h : o.Alike m m' o') :
    (writeBits cap v n o).Alike m m' (writeBits cap v n o') := by
  induction n generalizing o o' with
  | zero => exact h
  | succ n ih => exact (writeBit_alike cap _ h).andThen fun _ _ h => ih h

theorem flush_alike (cap : Nat) {o o' : Output} (h : o.Alike m m' o') : (flush cap o).Alike m m' (flush cap o') := by
  rw [flush, flush, h.wr]
  split
  · exact h
  · exact emit_alike cap _ h

theorem lcEncode_alike (cap len : Nat) {o o' : Output} (h : o.Alike m m' o') :
    (lcEncode cap len o).Alike m m' (lcEncode cap len o') :=
  (writeBits_alike cap _ _ h).andThen fun _ _ h =>
    (writeBit_alike cap _ h).andThen fun _ _ h => writeBits_alike cap _ _ h

theorem writeRun_alike (cap : Nat) (pix : Memory 4) (pos : Nat) {o o' : Output} (h : o.Alike m m' o') :
    (writeRun cap pix pos o).Alike m m' (writeRun cap pix pos o') := by
  refine (writeBits_alike cap _ _ h).andThen fun o o' h => ?_
  refine Write.Alike.andThen ?_ fun _ _ h => lcEncode_alike cap _ h
  rw [writeFlag, writeFlag]
  split
  · exact (writeBit_alike cap _ h).andThen fun _ _ h =>
      (writeBit_alike cap _ h).andThen fun _ _ h => writeBits_alike cap _ _ h
  · exact writeBit_alike cap _ h

end Sys2Proof.Machine
end

