-- ==== Sys2Proof/Laws/Palette.lean ====
section
/-! SUPPORT. The laws of the palette codec (42_palette.md): the channels of an entry, the levels, the nibbles and the fields as
numbers, and what PALRAM and PALB read as after a whole table is decoded or encoded. -/

namespace Sys2Proof.Machine

/-- The four channels of an entry (10_state.md R41). -/
theorem rgba_channels (r g b a : Byte) :
    redOf (rgba r g b a) = r ∧ greenOf (rgba r g b a) = g ∧ blueOf (rgba r g b a) = b ∧ alphaOf (rgba r g b a) = a := by
  have hr := r.isLt
  have hg := g.isLt
  have hb := b.isLt
  have ha := a.isLt
  have h : (rgba r g b a).toNat = ((r.toNat * 2 ^ 8 + g.toNat) * 2 ^ 8 + b.toNat) * 2 ^ 8 + a.toNat := by
    rw [rgba, BitVec.toNat_append, BitVec.toNat_append, BitVec.toNat_append, ← Nat.shiftLeft_add_eq_or_of_lt hg,
      ← Nat.shiftLeft_add_eq_or_of_lt hb, ← Nat.shiftLeft_add_eq_or_of_lt ha]
    simp only [Nat.shiftLeft_eq]
  refine ⟨?_, ?_, ?_, ?_⟩ <;> refine BitVec.eq_of_toNat_eq ?_
  · rw [redOf, BitVec.extractLsb'_toNat, Nat.shiftRight_eq_div_pow, h]
    omega
  · rw [greenOf, BitVec.extractLsb'_toNat, Nat.shiftRight_eq_div_pow, h]
    omega
  · rw [blueOf, BitVec.extractLsb'_toNat, Nat.shiftRight_eq_div_pow, h]
    omega
  · rw [alphaOf, BitVec.extractLsb'_toNat, Nat.shiftRight_eq_div_pow, h]
    omega

/-- An entry is its four channels. -/
theorem rgba_eta (e : Word) : rgba (redOf e) (greenOf e) (blueOf e) (alphaOf e) = e := by
  refine BitVec.eq_of_toNat_eq ?_
  have he := e.isLt
  rw [rgba, BitVec.toNat_append, BitVec.toNat_append, BitVec.toNat_append,
    ← Nat.shiftLeft_add_eq_or_of_lt (greenOf e).isLt, ← Nat.shiftLeft_add_eq_or_of_lt (blueOf e).isLt,
    ← Nat.shiftLeft_add_eq_or_of_lt (alphaOf e).isLt]
  simp only [Nat.shiftLeft_eq, redOf, greenOf, blueOf, alphaOf, BitVec.extractLsb'_toNat, Nat.shiftRight_eq_div_pow]
  omega

/-- The levels of convention A (R150). -/
theorem levelA_toNat (n : BitVec 4) : (levelA n).toNat = 17 * n.toNat := by
  have := n.isLt
  rw [levelA, BitVec.toNat_ofNat, Nat.mod_eq_of_lt (by omega)]

/-- The levels of convention B (R152). -/
theorem levelB_toNat (f : BitVec 3) : (levelB f).toNat = (255 * f.toNat + 3) / 7 := by
  have := f.isLt
  rw [levelB, BitVec.toNat_ofNat, Nat.mod_eq_of_lt (by omega)]

/-- The nibble of a channel (R154). -/
theorem nibA_toNat (c : Byte) : (nibA c).toNat = (c.toNat + 8) / 17 := by
  have := c.isLt
  rw [nibA, BitVec.toNat_ofNat, Nat.mod_eq_of_lt (by omega)]

/-- The field of a channel (R155). -/
theorem quantB_toNat (mode : PalBEncMode) (c : Byte) :
    (quantB mode c).toNat = if mode = .round then (7 * c.toNat + 127) / 255 else c.toNat / 2 ^ 5 := by
  have := c.isLt
  cases mode with
  | round =>
    rw [quantB, BitVec.toNat_ofNat, if_pos rfl]
    omega
  | top3 =>
    rw [quantB, BitVec.extractLsb'_toNat, Nat.shiftRight_eq_div_pow, if_neg (by decide)]
    omega

/-- The convention B word as a number (R151). -/
theorem wordB_toNat (mode : PalBEncMode) (e : Word) :
    (wordB mode e).toNat = 2 ^ 9 * (quantB mode (blueOf e)).toNat + 2 ^ 5 * (quantB mode (greenOf e)).toNat
      + 2 * (quantB mode (redOf e)).toNat := by
  have h1 := (quantB mode (blueOf e)).isLt
  have h2 := (quantB mode (greenOf e)).isLt
  have h3 := (quantB mode (redOf e)).isLt
  rw [wordB]
  simp only [BitVec.toNat_append, BitVec.toNat_ofNat]
  rw [← Nat.shiftLeft_add_eq_or_of_lt h1, ← Nat.shiftLeft_add_eq_or_of_lt (Nat.mod_lt _ (by norm_num)),
    ← Nat.shiftLeft_add_eq_or_of_lt h2, ← Nat.shiftLeft_add_eq_or_of_lt (Nat.mod_lt _ (by norm_num)),
    ← Nat.shiftLeft_add_eq_or_of_lt h3, ← Nat.shiftLeft_add_eq_or_of_lt (Nat.mod_lt _ (by norm_num))]
  simp only [Nat.shiftLeft_eq]
  omega

/-- PALRAM after a whole table is decoded (R159, R160). -/
theorem State.read_decodePalette (s : State) (dec : Byte → Byte → Nat → Word) (i : Nat) :
    (s.decodePalette dec).mem.palram.read i =
      if i < 16 then dec (s.mem.palb.read (2 * i)) (s.mem.palb.read (2 * i + 1)) i else s.mem.palram.read i := by
  show (Memory.writeList _ _ _).read i = _
  rw [Memory.read_writeList]
  simp only [List.length_map, List.length_range, Nat.zero_le, true_and, Nat.zero_add, Nat.sub_zero,
    show Config.palramSize = 16 from rfl]
  split
  · rw [List.getD_eq_getElem?_getD, List.getElem?_map, List.getElem?_range (by assumption)]
    rfl
  · rfl

/-- An entry of a list of pairs laid end to end. -/
theorem getD_flatMap_pairs {α β : Type} (f g : α → β) (l : List α) (d : β) (i : Nat) (h : i < l.length) :
    (l.flatMap fun x => [f x, g x]).getD (2 * i) d = f l[i] ∧ (l.flatMap fun x => [f x, g x]).getD (2 * i + 1) d = g l[i] := by
  induction l generalizing i with
  | nil => simp at h
  | cons x l ih =>
    cases i with
    | zero => exact ⟨rfl, rfl⟩
    | succ i =>
      rw [List.length_cons] at h
      have := ih i (by omega)
      simp only [List.flatMap_cons, List.cons_append, List.nil_append, show 2 * (i + 1) = 2 * i + 1 + 1 by omega,
        List.getD_cons_succ, List.getElem_cons_succ]
      exact this

/-- PALB after a whole table is encoded (R161, R162). -/
theorem State.read_encodePalette (s : State) (f g : Word → Byte) (i : Nat) (h : i < 16) :
    (s.encodePalette fun e => [f e, g e]).mem.palb.read (2 * i) = f (s.mem.palram.read i) ∧
    (s.encodePalette fun e => [f e, g e]).mem.palb.read (2 * i + 1) = g (s.mem.palram.read i) := by
  have hlen : ((List.range 16).flatMap fun j => [f (s.mem.palram.read j), g (s.mem.palram.read j)]).length = 32 := by
    simp
  have hp := getD_flatMap_pairs (fun j => f (s.mem.palram.read j)) (fun j => g (s.mem.palram.read j)) (List.range 16) 0#8 i
    (by simpa using h)
  have hr : ∀ a, (s.encodePalette fun e => [f e, g e]).mem.palb.read a
      = if a < 32 then ((List.range 16).flatMap fun j => [f (s.mem.palram.read j), g (s.mem.palram.read j)]).getD a 0#8
        else s.mem.palb.read a := by
    intro a
    show (Memory.writeList _ _ ((List.range 16).flatMap fun j => [f (s.mem.palram.read j), g (s.mem.palram.read j)])).read a = _
    rw [Memory.read_writeList, hlen]
    simp
  rw [hr, hr, if_pos (by omega), if_pos (by omega), hp.1, hp.2]
  simp

/-- PALB beyond the table is unchanged (R161, R162). -/
theorem State.read_encodePalette_above (s : State) (f g : Word → Byte) (a : Nat) (h : 32 ≤ a) :
    (s.encodePalette fun e => [f e, g e]).mem.palb.read a = s.mem.palb.read a := by
  show (Memory.writeList _ _ ((List.range 16).flatMap fun j => [f (s.mem.palram.read j), g (s.mem.palram.read j)])).read a = _
  rw [Memory.read_writeList, if_neg (by simp; omega)]

end Sys2Proof.Machine
end

