-- ==== Sys2Proof/Laws/PerInstr.lean ====
section
/-! SUPPORT. A statement for every command, one lemma a constructor: the four fields of the command word (30_encoding.md R80). -/

namespace Sys2Proof.Laws

/-- The encoded word of a command has RSV1 = 0, its count in N, RSV0 = 0 and its opcode in OPC (30_encoding.md R80). -/
def WordFields.Statement (i : Instr) : Prop :=
  wordRsv1 (encode i) = 0#8 ∧ wordCount (encode i) = i.countField ∧ wordRsv0 (encode i) = 0#8 ∧
  wordOpcode (encode i) = i.opcode

/-- The fields of a word built from four bytes. -/
theorem fields_of_bytes (a b c d : BitVec 8) :
    wordRsv1 (a ++ b ++ c ++ d) = a ∧ wordCount (a ++ b ++ c ++ d) = b ∧ wordRsv0 (a ++ b ++ c ++ d) = c ∧
      wordOpcode (a ++ b ++ c ++ d) = d := by
  have hb := b.isLt
  have hc := c.isLt
  have hd := d.isLt
  have ha := a.isLt
  have h : (a ++ b ++ c ++ d).toNat = ((a.toNat * 2 ^ 8 + b.toNat) * 2 ^ 8 + c.toNat) * 2 ^ 8 + d.toNat := by
    rw [BitVec.toNat_append, BitVec.toNat_append, BitVec.toNat_append, ← Nat.shiftLeft_add_eq_or_of_lt hb,
      ← Nat.shiftLeft_add_eq_or_of_lt hc, ← Nat.shiftLeft_add_eq_or_of_lt hd]
    simp only [Nat.shiftLeft_eq]
  refine ⟨?_, ?_, ?_, ?_⟩ <;> refine BitVec.eq_of_toNat_eq ?_
  · rw [wordRsv1, BitVec.extractLsb'_toNat, Nat.shiftRight_eq_div_pow, h]
    omega
  · rw [wordCount, BitVec.extractLsb'_toNat, Nat.shiftRight_eq_div_pow, h]
    omega
  · rw [wordRsv0, BitVec.extractLsb'_toNat, Nat.shiftRight_eq_div_pow, h]
    omega
  · rw [wordOpcode, BitVec.extractLsb'_toNat, Nat.shiftRight_eq_div_pow, h]
    omega

theorem WordFields.rdStart : WordFields.Statement .rdStart := fields_of_bytes _ _ _ _
theorem WordFields.rdBit : WordFields.Statement .rdBit := fields_of_bytes _ _ _ _
theorem WordFields.rdBits (n : BitVec 8) : WordFields.Statement (.rdBits n) := fields_of_bytes _ _ _ _
theorem WordFields.wrStart : WordFields.Statement .wrStart := fields_of_bytes _ _ _ _
theorem WordFields.wrBits (n : BitVec 8) : WordFields.Statement (.wrBits n) := fields_of_bytes _ _ _ _
theorem WordFields.wrFlush : WordFields.Statement .wrFlush := fields_of_bytes _ _ _ _
theorem WordFields.lcDec : WordFields.Statement .lcDec := fields_of_bytes _ _ _ _
theorem WordFields.lcEnc : WordFields.Statement .lcEnc := fields_of_bytes _ _ _ _
theorem WordFields.palDecA : WordFields.Statement .palDecA := fields_of_bytes _ _ _ _
theorem WordFields.palDecB : WordFields.Statement .palDecB := fields_of_bytes _ _ _ _
theorem WordFields.palEncA : WordFields.Statement .palEncA := fields_of_bytes _ _ _ _
theorem WordFields.palEncB : WordFields.Statement .palEncB := fields_of_bytes _ _ _ _
theorem WordFields.render : WordFields.Statement .render := fields_of_bytes _ _ _ _
theorem WordFields.decA : WordFields.Statement .decA := fields_of_bytes _ _ _ _
theorem WordFields.decB : WordFields.Statement .decB := fields_of_bytes _ _ _ _
theorem WordFields.encB : WordFields.Statement .encB := fields_of_bytes _ _ _ _
theorem WordFields.parse : WordFields.Statement .parse := fields_of_bytes _ _ _ _
theorem WordFields.serialize : WordFields.Statement .serialize := fields_of_bytes _ _ _ _

end Sys2Proof.Laws
end

