-- ==== Sys2Proof/Laws/State.lean ====
section
/-! SUPPORT. One lemma per field for each named update of the state, each true by `rfl`, and what a command's run comes to for
each way its body ends. -/

namespace Sys2Proof.Machine

/-! ### issue -/

@[simp] theorem State.issue_cfg (s : State) : s.issue.cfg = s.cfg := rfl
@[simp] theorem State.issue_busy (s : State) : s.issue.busy = true := rfl
@[simp] theorem State.issue_trunc (s : State) : s.issue.trunc = false := rfl
@[simp] theorem State.issue_err (s : State) : s.issue.err = none := rfl
@[simp] theorem State.issue_arg (s : State) : s.issue.arg = s.arg := rfl
@[simp] theorem State.issue_result (s : State) : s.issue.result = s.result := rfl
@[simp] theorem State.issue_srcLen (s : State) : s.issue.srcLen = s.srcLen := rfl
@[simp] theorem State.issue_rd (s : State) : s.issue.rd = s.rd := rfl
@[simp] theorem State.issue_wr (s : State) : s.issue.wr = s.wr := rfl
@[simp] theorem State.issue_imgW (s : State) : s.issue.imgW = s.imgW := rfl
@[simp] theorem State.issue_imgH (s : State) : s.issue.imgH = s.imgH := rfl
@[simp] theorem State.issue_graphicOff (s : State) : s.issue.graphicOff = s.graphicOff := rfl
@[simp] theorem State.issue_blinkN (s : State) : s.issue.blinkN = s.blinkN := rfl
@[simp] theorem State.issue_talkN (s : State) : s.issue.talkN = s.talkN := rfl
@[simp] theorem State.issue_marker (s : State) : s.issue.marker = s.marker := rfl
@[simp] theorem State.issue_warnCnt (s : State) : s.issue.warnCnt = s.warnCnt := rfl
@[simp] theorem State.issue_warnOvf (s : State) : s.issue.warnOvf = s.warnOvf := rfl
@[simp] theorem State.issue_mem (s : State) : s.issue.mem = s.mem := rfl
@[simp] theorem State.issue_program (s : State) : s.issue.program = s.program := rfl
@[simp] theorem State.issue_replies (s : State) : s.issue.replies = s.replies := rfl

/-! ### complete -/

@[simp] theorem State.complete_cfg (s : State) : s.complete.cfg = s.cfg := rfl
@[simp] theorem State.complete_busy (s : State) : s.complete.busy = false := rfl
@[simp] theorem State.complete_trunc (s : State) : s.complete.trunc = s.trunc := rfl
@[simp] theorem State.complete_err (s : State) : s.complete.err = s.err := rfl
@[simp] theorem State.complete_arg (s : State) : s.complete.arg = s.arg := rfl
@[simp] theorem State.complete_result (s : State) : s.complete.result = s.result := rfl
@[simp] theorem State.complete_srcLen (s : State) : s.complete.srcLen = s.srcLen := rfl
@[simp] theorem State.complete_rd (s : State) : s.complete.rd = s.rd := rfl
@[simp] theorem State.complete_wr (s : State) : s.complete.wr = s.wr := rfl
@[simp] theorem State.complete_imgW (s : State) : s.complete.imgW = s.imgW := rfl
@[simp] theorem State.complete_imgH (s : State) : s.complete.imgH = s.imgH := rfl
@[simp] theorem State.complete_graphicOff (s : State) : s.complete.graphicOff = s.graphicOff := rfl
@[simp] theorem State.complete_blinkN (s : State) : s.complete.blinkN = s.blinkN := rfl
@[simp] theorem State.complete_talkN (s : State) : s.complete.talkN = s.talkN := rfl
@[simp] theorem State.complete_marker (s : State) : s.complete.marker = s.marker := rfl
@[simp] theorem State.complete_warnCnt (s : State) : s.complete.warnCnt = s.warnCnt := rfl
@[simp] theorem State.complete_warnOvf (s : State) : s.complete.warnOvf = s.warnOvf := rfl
@[simp] theorem State.complete_mem (s : State) : s.complete.mem = s.mem := rfl
@[simp] theorem State.complete_program (s : State) : s.complete.program = s.program := rfl
@[simp] theorem State.complete_replies (s : State) : s.complete.replies = s.replies := rfl

/-! ### truncate -/

@[simp] theorem State.truncate_cfg (s : State) : s.truncate.cfg = s.cfg := rfl
@[simp] theorem State.truncate_busy (s : State) : s.truncate.busy = false := rfl
@[simp] theorem State.truncate_trunc (s : State) : s.truncate.trunc = true := rfl
@[simp] theorem State.truncate_err (s : State) : s.truncate.err = s.err := rfl
@[simp] theorem State.truncate_arg (s : State) : s.truncate.arg = s.arg := rfl
@[simp] theorem State.truncate_result (s : State) : s.truncate.result = s.result := rfl
@[simp] theorem State.truncate_srcLen (s : State) : s.truncate.srcLen = s.srcLen := rfl
@[simp] theorem State.truncate_rd (s : State) : s.truncate.rd = s.rd := rfl
@[simp] theorem State.truncate_wr (s : State) : s.truncate.wr = s.wr := rfl
@[simp] theorem State.truncate_imgW (s : State) : s.truncate.imgW = s.imgW := rfl
@[simp] theorem State.truncate_imgH (s : State) : s.truncate.imgH = s.imgH := rfl
@[simp] theorem State.truncate_graphicOff (s : State) : s.truncate.graphicOff = s.graphicOff := rfl
@[simp] theorem State.truncate_blinkN (s : State) : s.truncate.blinkN = s.blinkN := rfl
@[simp] theorem State.truncate_talkN (s : State) : s.truncate.talkN = s.talkN := rfl
@[simp] theorem State.truncate_marker (s : State) : s.truncate.marker = s.marker := rfl
@[simp] theorem State.truncate_warnCnt (s : State) : s.truncate.warnCnt = s.warnCnt := rfl
@[simp] theorem State.truncate_warnOvf (s : State) : s.truncate.warnOvf = s.warnOvf := rfl
@[simp] theorem State.truncate_mem (s : State) : s.truncate.mem = s.mem := rfl
@[simp] theorem State.truncate_program (s : State) : s.truncate.program = s.program := rfl
@[simp] theorem State.truncate_replies (s : State) : s.truncate.replies = s.replies := rfl

/-! ### raise -/

@[simp] theorem State.raise_cfg (s : State) (e : Failure) : (s.raise e).cfg = s.cfg := rfl
@[simp] theorem State.raise_busy (s : State) (e : Failure) : (s.raise e).busy = false := rfl
@[simp] theorem State.raise_trunc (s : State) (e : Failure) : (s.raise e).trunc = false := rfl
@[simp] theorem State.raise_err (s : State) (e : Failure) : (s.raise e).err = some e := rfl
@[simp] theorem State.raise_arg (s : State) (e : Failure) : (s.raise e).arg = s.arg := rfl
@[simp] theorem State.raise_result (s : State) (e : Failure) : (s.raise e).result = s.result := rfl
@[simp] theorem State.raise_srcLen (s : State) (e : Failure) : (s.raise e).srcLen = s.srcLen := rfl
@[simp] theorem State.raise_rd (s : State) (e : Failure) : (s.raise e).rd = s.rd := rfl
@[simp] theorem State.raise_wr (s : State) (e : Failure) : (s.raise e).wr = s.wr := rfl
@[simp] theorem State.raise_imgW (s : State) (e : Failure) : (s.raise e).imgW = s.imgW := rfl
@[simp] theorem State.raise_imgH (s : State) (e : Failure) : (s.raise e).imgH = s.imgH := rfl
@[simp] theorem State.raise_graphicOff (s : State) (e : Failure) : (s.raise e).graphicOff = s.graphicOff := rfl
@[simp] theorem State.raise_blinkN (s : State) (e : Failure) : (s.raise e).blinkN = s.blinkN := rfl
@[simp] theorem State.raise_talkN (s : State) (e : Failure) : (s.raise e).talkN = s.talkN := rfl
@[simp] theorem State.raise_marker (s : State) (e : Failure) : (s.raise e).marker = s.marker := rfl
@[simp] theorem State.raise_warnCnt (s : State) (e : Failure) : (s.raise e).warnCnt = s.warnCnt := rfl
@[simp] theorem State.raise_warnOvf (s : State) (e : Failure) : (s.raise e).warnOvf = s.warnOvf := rfl
@[simp] theorem State.raise_mem (s : State) (e : Failure) : (s.raise e).mem = s.mem := rfl
@[simp] theorem State.raise_program (s : State) (e : Failure) : (s.raise e).program = s.program := rfl
@[simp] theorem State.raise_replies (s : State) (e : Failure) : (s.raise e).replies = s.replies := rfl

/-! ### ended -/

@[simp] theorem State.ended_cfg (s : State) : s.ended.cfg = s.cfg := rfl
@[simp] theorem State.ended_busy (s : State) : s.ended.busy = false := rfl
@[simp] theorem State.ended_trunc (s : State) : s.ended.trunc = false := rfl
@[simp] theorem State.ended_err (s : State) : s.ended.err = none := rfl
@[simp] theorem State.ended_arg (s : State) : s.ended.arg = s.arg := rfl
@[simp] theorem State.ended_result (s : State) : s.ended.result = s.result := rfl
@[simp] theorem State.ended_srcLen (s : State) : s.ended.srcLen = s.srcLen := rfl
@[simp] theorem State.ended_rd (s : State) : s.ended.rd = s.rd := rfl
@[simp] theorem State.ended_wr (s : State) : s.ended.wr = s.wr := rfl
@[simp] theorem State.ended_imgW (s : State) : s.ended.imgW = s.imgW := rfl
@[simp] theorem State.ended_imgH (s : State) : s.ended.imgH = s.imgH := rfl
@[simp] theorem State.ended_graphicOff (s : State) : s.ended.graphicOff = s.graphicOff := rfl
@[simp] theorem State.ended_blinkN (s : State) : s.ended.blinkN = s.blinkN := rfl
@[simp] theorem State.ended_talkN (s : State) : s.ended.talkN = s.talkN := rfl
@[simp] theorem State.ended_marker (s : State) : s.ended.marker = s.marker := rfl
@[simp] theorem State.ended_warnCnt (s : State) : s.ended.warnCnt = s.warnCnt := rfl
@[simp] theorem State.ended_warnOvf (s : State) : s.ended.warnOvf = s.warnOvf := rfl
@[simp] theorem State.ended_mem (s : State) : s.ended.mem = s.mem := rfl
@[simp] theorem State.ended_program (s : State) : s.ended.program = s.program := rfl
@[simp] theorem State.ended_replies (s : State) : s.ended.replies = s.replies := rfl

/-! ### cutShort -/

@[simp] theorem State.cutShort_cfg (s : State) : s.cutShort.cfg = s.cfg := rfl
@[simp] theorem State.cutShort_busy (s : State) : s.cutShort.busy = false := rfl
@[simp] theorem State.cutShort_trunc (s : State) : s.cutShort.trunc = true := rfl
@[simp] theorem State.cutShort_err (s : State) : s.cutShort.err = none := rfl
@[simp] theorem State.cutShort_arg (s : State) : s.cutShort.arg = s.arg := rfl
@[simp] theorem State.cutShort_result (s : State) : s.cutShort.result = s.result := rfl
@[simp] theorem State.cutShort_srcLen (s : State) : s.cutShort.srcLen = s.srcLen := rfl
@[simp] theorem State.cutShort_rd (s : State) : s.cutShort.rd = s.rd := rfl
@[simp] theorem State.cutShort_wr (s : State) : s.cutShort.wr = s.wr := rfl
@[simp] theorem State.cutShort_imgW (s : State) : s.cutShort.imgW = s.imgW := rfl
@[simp] theorem State.cutShort_imgH (s : State) : s.cutShort.imgH = s.imgH := rfl
@[simp] theorem State.cutShort_graphicOff (s : State) : s.cutShort.graphicOff = s.graphicOff := rfl
@[simp] theorem State.cutShort_blinkN (s : State) : s.cutShort.blinkN = s.blinkN := rfl
@[simp] theorem State.cutShort_talkN (s : State) : s.cutShort.talkN = s.talkN := rfl
@[simp] theorem State.cutShort_marker (s : State) : s.cutShort.marker = s.marker := rfl
@[simp] theorem State.cutShort_warnCnt (s : State) : s.cutShort.warnCnt = s.warnCnt := rfl
@[simp] theorem State.cutShort_warnOvf (s : State) : s.cutShort.warnOvf = s.warnOvf := rfl
@[simp] theorem State.cutShort_mem (s : State) : s.cutShort.mem = s.mem := rfl
@[simp] theorem State.cutShort_program (s : State) : s.cutShort.program = s.program := rfl
@[simp] theorem State.cutShort_replies (s : State) : s.cutShort.replies = s.replies := rfl

/-! ### failed -/

@[simp] theorem State.failed_cfg (s : State) (e : Failure) : (s.failed e).cfg = s.cfg := rfl
@[simp] theorem State.failed_busy (s : State) (e : Failure) : (s.failed e).busy = false := rfl
@[simp] theorem State.failed_trunc (s : State) (e : Failure) : (s.failed e).trunc = false := rfl
@[simp] theorem State.failed_err (s : State) (e : Failure) : (s.failed e).err = some e := rfl
@[simp] theorem State.failed_arg (s : State) (e : Failure) : (s.failed e).arg = s.arg := rfl
@[simp] theorem State.failed_result (s : State) (e : Failure) : (s.failed e).result = s.result := rfl
@[simp] theorem State.failed_srcLen (s : State) (e : Failure) : (s.failed e).srcLen = s.srcLen := rfl
@[simp] theorem State.failed_rd (s : State) (e : Failure) : (s.failed e).rd = s.rd := rfl
@[simp] theorem State.failed_wr (s : State) (e : Failure) : (s.failed e).wr = s.wr := rfl
@[simp] theorem State.failed_imgW (s : State) (e : Failure) : (s.failed e).imgW = s.imgW := rfl
@[simp] theorem State.failed_imgH (s : State) (e : Failure) : (s.failed e).imgH = s.imgH := rfl
@[simp] theorem State.failed_graphicOff (s : State) (e : Failure) : (s.failed e).graphicOff = s.graphicOff := rfl
@[simp] theorem State.failed_blinkN (s : State) (e : Failure) : (s.failed e).blinkN = s.blinkN := rfl
@[simp] theorem State.failed_talkN (s : State) (e : Failure) : (s.failed e).talkN = s.talkN := rfl
@[simp] theorem State.failed_marker (s : State) (e : Failure) : (s.failed e).marker = s.marker := rfl
@[simp] theorem State.failed_warnCnt (s : State) (e : Failure) : (s.failed e).warnCnt = s.warnCnt := rfl
@[simp] theorem State.failed_warnOvf (s : State) (e : Failure) : (s.failed e).warnOvf = s.warnOvf := rfl
@[simp] theorem State.failed_mem (s : State) (e : Failure) : (s.failed e).mem = s.mem := rfl
@[simp] theorem State.failed_program (s : State) (e : Failure) : (s.failed e).program = s.program := rfl
@[simp] theorem State.failed_replies (s : State) (e : Failure) : (s.failed e).replies = s.replies := rfl

/-! ### setOutput -/

@[simp] theorem State.setOutput_cfg (s : State) (o : Output) : (s.setOutput o).cfg = s.cfg := rfl
@[simp] theorem State.setOutput_busy (s : State) (o : Output) : (s.setOutput o).busy = s.busy := rfl
@[simp] theorem State.setOutput_trunc (s : State) (o : Output) : (s.setOutput o).trunc = s.trunc := rfl
@[simp] theorem State.setOutput_err (s : State) (o : Output) : (s.setOutput o).err = s.err := rfl
@[simp] theorem State.setOutput_arg (s : State) (o : Output) : (s.setOutput o).arg = s.arg := rfl
@[simp] theorem State.setOutput_result (s : State) (o : Output) : (s.setOutput o).result = s.result := rfl
@[simp] theorem State.setOutput_srcLen (s : State) (o : Output) : (s.setOutput o).srcLen = s.srcLen := rfl
@[simp] theorem State.setOutput_rd (s : State) (o : Output) : (s.setOutput o).rd = s.rd := rfl
@[simp] theorem State.setOutput_wr (s : State) (o : Output) : (s.setOutput o).wr = o.wr := rfl
@[simp] theorem State.setOutput_imgW (s : State) (o : Output) : (s.setOutput o).imgW = s.imgW := rfl
@[simp] theorem State.setOutput_imgH (s : State) (o : Output) : (s.setOutput o).imgH = s.imgH := rfl
@[simp] theorem State.setOutput_graphicOff (s : State) (o : Output) : (s.setOutput o).graphicOff = s.graphicOff := rfl
@[simp] theorem State.setOutput_blinkN (s : State) (o : Output) : (s.setOutput o).blinkN = s.blinkN := rfl
@[simp] theorem State.setOutput_talkN (s : State) (o : Output) : (s.setOutput o).talkN = s.talkN := rfl
@[simp] theorem State.setOutput_marker (s : State) (o : Output) : (s.setOutput o).marker = s.marker := rfl
@[simp] theorem State.setOutput_warnCnt (s : State) (o : Output) : (s.setOutput o).warnCnt = s.warnCnt := rfl
@[simp] theorem State.setOutput_warnOvf (s : State) (o : Output) : (s.setOutput o).warnOvf = s.warnOvf := rfl
@[simp] theorem State.setOutput_mem (s : State) (o : Output) : (s.setOutput o).mem = { s.mem with dst := o.dst } := rfl
@[simp] theorem State.setOutput_program (s : State) (o : Output) : (s.setOutput o).program = s.program := rfl
@[simp] theorem State.setOutput_replies (s : State) (o : Output) : (s.setOutput o).replies = s.replies := rfl

/-! ### setCanvas -/

@[simp] theorem State.setCanvas_cfg (s : State) (c : Canvas) : (s.setCanvas c).cfg = s.cfg := rfl
@[simp] theorem State.setCanvas_busy (s : State) (c : Canvas) : (s.setCanvas c).busy = s.busy := rfl
@[simp] theorem State.setCanvas_trunc (s : State) (c : Canvas) : (s.setCanvas c).trunc = s.trunc := rfl
@[simp] theorem State.setCanvas_err (s : State) (c : Canvas) : (s.setCanvas c).err = s.err := rfl
@[simp] theorem State.setCanvas_arg (s : State) (c : Canvas) : (s.setCanvas c).arg = s.arg := rfl
@[simp] theorem State.setCanvas_result (s : State) (c : Canvas) : (s.setCanvas c).result = s.result := rfl
@[simp] theorem State.setCanvas_srcLen (s : State) (c : Canvas) : (s.setCanvas c).srcLen = s.srcLen := rfl
@[simp] theorem State.setCanvas_rd (s : State) (c : Canvas) : (s.setCanvas c).rd = c.rd := rfl
@[simp] theorem State.setCanvas_wr (s : State) (c : Canvas) : (s.setCanvas c).wr = s.wr := rfl
@[simp] theorem State.setCanvas_imgW (s : State) (c : Canvas) : (s.setCanvas c).imgW = s.imgW := rfl
@[simp] theorem State.setCanvas_imgH (s : State) (c : Canvas) : (s.setCanvas c).imgH = s.imgH := rfl
@[simp] theorem State.setCanvas_graphicOff (s : State) (c : Canvas) : (s.setCanvas c).graphicOff = s.graphicOff := rfl
@[simp] theorem State.setCanvas_blinkN (s : State) (c : Canvas) : (s.setCanvas c).blinkN = s.blinkN := rfl
@[simp] theorem State.setCanvas_talkN (s : State) (c : Canvas) : (s.setCanvas c).talkN = s.talkN := rfl
@[simp] theorem State.setCanvas_marker (s : State) (c : Canvas) : (s.setCanvas c).marker = s.marker := rfl
@[simp] theorem State.setCanvas_warnCnt (s : State) (c : Canvas) : (s.setCanvas c).warnCnt = s.warnCnt := rfl
@[simp] theorem State.setCanvas_warnOvf (s : State) (c : Canvas) : (s.setCanvas c).warnOvf = s.warnOvf := rfl
@[simp] theorem State.setCanvas_mem (s : State) (c : Canvas) : (s.setCanvas c).mem = { s.mem with pix := c.pix } := rfl
@[simp] theorem State.setCanvas_program (s : State) (c : Canvas) : (s.setCanvas c).program = s.program := rfl
@[simp] theorem State.setCanvas_replies (s : State) (c : Canvas) : (s.setCanvas c).replies = s.replies := rfl

/-! ### How a run ends -/

@[simp] theorem State.finish_normal (s : State) : s.finish .normal = s.complete := rfl
@[simp] theorem State.finish_truncated (s : State) : s.finish .truncated = s.truncate := rfl
@[simp] theorem State.finish_raised (s : State) (e : Failure) : s.finish (.raised e) = s.raise e := rfl

@[simp] theorem State.issue_source (s : State) : s.issue.source = s.source := rfl
@[simp] theorem State.issue_output (s : State) : s.issue.output = s.output := rfl

/-- A command always answers a next state: its body's, with the STATUS of the way the body ended (R276). -/
theorem State.run_eq (s : State) (body : State → Ending × State) :
    s.run body = .next ((body s.issue).2.finish (body s.issue).1) := rfl

theorem State.run_of {s t : State} {body : State → Ending × State} {e : Ending} (h : body s.issue = (e, t)) :
    s.run body = .next (t.finish e) := by
  rw [State.run_eq, h]

/-- What a next state of a command is. -/
theorem State.run_next {s t : State} {body : State → Ending × State} (h : s.run body = .next t) :
    ∃ e u, body s.issue = (e, u) ∧ t = u.finish e := by
  rw [State.run_eq] at h
  exact ⟨_, _, rfl, (Host.Outcome.next.inj h).symm⟩

/-- The state an illegal word leaves (60_exceptions.md R281). -/
theorem State.illegalCommand_eq (s : State) : s.illegalCommand = s.failed .illegalCommand := rfl

end Sys2Proof.Machine
end

