-- ==== Sys2Proof/Tests/Slice0.lean ====
section
/-! SUPPORT. Tests on small states. The expected values come from the vectors of 95_test_vectors.md, each named in a
comment. -/

namespace Sys2Proof.Tests

open Sys2Proof.Machine

-- One theorem after another: checked side by side, these keep too many threads waiting for the kernel.
set_option Elab.async false

/-! ## Helpers -/

/-- Right after reset with these bytes in SRC and SRC_LEN their number. -/
def load (bytes : List Byte) : State :=
  { State.reset with srcLen := BitVec.ofNat 32 bytes.length,
                     mem := { Memories.empty with src := Memory.ofList 65536 bytes } }

/-- The state a command leaves, if it completes. -/
def ran (i : Instr) (s : State) : Option State :=
  match exec i s with
  | .next t => some t
  | _ => none

/-- What a command leaves, seen through a view; `none` if it does not complete. -/
def saw {α : Type} (i : Instr) (s : State) (f : State → α) : Option α := (ran i s).map f

/-- The ramp `10 11 … 2F` that 95_test_vectors.md calls P. -/
def ramp : List Byte := (List.range 32).map fun i => BitVec.ofNat 8 (16 + i)

/-- Right after reset with this pair at PALB[2..3], entry 1. -/
def withPair (b0 b1 : Byte) : State :=
  { State.reset with mem := { Memories.empty with palb := Memory.cells 2 [b0, b1] } }

/-- Right after reset with this entry at PALRAM[1]. -/
def withEntry (e : Word) : State :=
  { State.reset with mem := { Memories.empty with palram := Memory.cells 1 [e] } }

/-- Right after reset with a 64 by 64 image, these pixels listed. -/
def withImage (pix : Memory 4) : State :=
  { State.reset with imgW := 64#16, imgH := 64#16, mem := { Memories.empty with pix := pix } }

/-! ## Well-formedness (30_encoding.md R81) -/

theorem test_wellFormed_refuses_rdBits_33 : (Instr.rdBits 33#8).wellFormed = false := by decide
theorem test_wellFormed_refuses_wrBits_33 : (Instr.wrBits 33#8).wellFormed = false := by decide
theorem test_wellFormed_admits_32 :
    (Instr.rdBits 32#8).wellFormed = true ∧ (Instr.wrBits 32#8).wellFormed = true := by decide

/-! ## Decode: words written out from 30_encoding.md R80, R82 and 95_test_vectors.md §2.1 -/

theorem test_decode_rdStart : decode 0x00000001#32 = .ok .rdStart := by decide
theorem test_decode_rdBit : decode 0x00000002#32 = .ok .rdBit := by decide
theorem test_decode_rdBits_4 : decode 0x00040003#32 = .ok (.rdBits 4#8) := by decide
theorem test_decode_rdBits_32 : decode 0x00200003#32 = .ok (.rdBits 32#8) := by decide
theorem test_decode_wrStart : decode 0x00000004#32 = .ok .wrStart := by decide
theorem test_decode_wrBits_16 : decode 0x00100005#32 = .ok (.wrBits 16#8) := by decide
theorem test_decode_wrFlush : decode 0x00000006#32 = .ok .wrFlush := by decide
theorem test_decode_lcDec : decode 0x00000008#32 = .ok .lcDec := by decide
theorem test_decode_lcEnc : decode 0x00000009#32 = .ok .lcEnc := by decide
theorem test_decode_palDecA : decode 0x00000010#32 = .ok .palDecA := by decide
theorem test_decode_palDecB : decode 0x00000011#32 = .ok .palDecB := by decide
theorem test_decode_palEncA : decode 0x00000012#32 = .ok .palEncA := by decide
theorem test_decode_palEncB : decode 0x00000013#32 = .ok .palEncB := by decide
theorem test_decode_render : decode 0x00000014#32 = .ok .render := by decide
theorem test_decode_decA : decode 0x00000020#32 = .ok .decA := by decide
theorem test_decode_decB : decode 0x00000021#32 = .ok .decB := by decide
theorem test_decode_encB : decode 0x00000028#32 = .ok .encB := by decide
theorem test_decode_parse : decode 0x00000030#32 = .ok .parse := by decide
theorem test_decode_serialize : decode 0x00000031#32 = .ok .serialize := by decide

theorem test_decode_refuses_rsv1 : decode 0x01000002#32 = .error .reservedField := by decide
theorem test_decode_refuses_rsv0 : decode 0x00000102#32 = .error .reservedField := by decide
theorem test_decode_refuses_opcodes :
    ([0x00#32, 0x07#32, 0x15#32, 0x22#32, 0x29#32, 0x32#32, 0xFF#32].map decode)
      = List.replicate 7 (.error .unknownOpcode) := by decide
theorem test_decode_refuses_count_on_rdBit : decode 0x00010002#32 = .error .countNotZero := by decide
theorem test_decode_refuses_rdBits_33 : decode 0x00210003#32 = .error .countTooLarge := by decide
theorem test_decodeTableWord : decodeTableWord 32 0x00040003 = some (.rdBits 4#8) := by decide

/-! ## One command -/

/-- §2.2: SRC_LEN = 4, ARG = 2. -/
theorem test_rdStart :
    saw .rdStart { load [1#8, 2#8, 3#8, 4#8] with arg := 2#32 } (fun t => (t.rd.off, t.rd.buf, t.rd.cnt, t.statusWord))
      = some (2#32, 0#16, 0#5, 0#32) := by decide
/-- §2.2: SRC = `80 00`. -/
theorem test_rdBit :
    saw .rdBit (load [0x80#8, 0x00#8]) (fun t => (t.result, t.rd.off, t.rd.cnt)) = some (1#32, 2#32, 15#5) := by decide
/-- §2.2: SRC = `AB` under USE: a whole byte from a refill of one. -/
theorem test_rdBit_odd_tail_use :
    saw .rdBit { load [0xAB#8] with cfg := { Config.default with oddTail := .use } }
      (fun t => (t.result, t.rd.off, t.rd.cnt, t.trunc)) = some (1#32, 1#32, 7#5, false) := by decide
/-- §2.2: SRC = `12 34 56 78`. -/
theorem test_rdBits_32 :
    saw (.rdBits 32#8) (load [0x12#8, 0x34#8, 0x56#8, 0x78#8]) (fun t => (t.result, t.rd.off, t.rd.cnt))
      = some (0x12345678#32, 4#32, 0#5) := by decide
/-- §2.2: N = 0 on an exhausted reader. -/
theorem test_rdBits_0_exhausted :
    saw (.rdBits 0#8) (load []) (fun t => (t.result, t.trunc)) = some (0#32, false) := by decide
/-- §2.2: pending bits are discarded, DST is not cleared. -/
theorem test_wrStart :
    saw .wrStart { State.reset with wr := { len := 2#32, buf := 0xF#16, cnt := 4#4 },
                                    mem := { Memories.empty with dst := [(0, 0xFF#8)] } }
      (fun t => (t.wr.len, t.wr.buf, t.wr.cnt, t.mem.dst)) = some (0#32, 0#16, 0#4, [(0, 0xFF#8)]) := by decide
/-- §2.2: after the 12 bits 0xABC, the 4 bits 0x5. -/
theorem test_wrBits_completes_word :
    saw (.wrBits 4#8) { State.reset with arg := 5#32, wr := { len := 0#32, buf := 0xABC#16, cnt := 12#4 } }
      (fun t => (t.mem.dst, t.wr.len, t.wr.cnt)) = some ([(0, 0xAB#8), (1, 0xC5#8)], 2#32, 0#4) := by decide
/-- §2.2: WR_LEN = DST_CAP = 65536 and 16 bits of 0xFFFF. -/
theorem test_wrBits_overflow :
    saw (.wrBits 16#8) { State.reset with arg := 0xFFFF#32, wr := { len := 65536#32, buf := 0#16, cnt := 0#4 } }
      (fun t => (t.statusWord, t.wr.len, t.wr.cnt, t.wr.buf, t.result))
      = some (0x50#32, 65536#32, 15#4, 0x7FFF#16, 0#32) := by decide
/-- §2.2: three pending bits 101. -/
theorem test_wrFlush :
    saw .wrFlush { State.reset with wr := { len := 0#32, buf := 5#16, cnt := 3#4 } }
      (fun t => (t.mem.dst, t.wr.len, t.wr.cnt)) = some ([(0, 0xA0#8)], 2#32, 0#4) := by decide
/-- §2.3: "0100" is 2. -/
theorem test_lcDec :
    saw .lcDec (load [0x40#8, 0x00#8]) (fun t => (t.result, t.rd.cnt)) = some (2#32, 12#5) := by decide +kernel
/-- §2.3: R = 2^32 + 1 saturates. -/
theorem test_lcDec_saturates :
    saw .lcDec (load [0#8, 0#8, 0#8, 1#8, 0#8, 0#8, 0#8, 3#8]) (fun t => t.result) = some 0xFFFFFFFF#32 := by
  decide +kernel
/-- §2.3: LC(4096) is 24 bits: `00 10` and eight bits of 0x02. -/
theorem test_lcEnc :
    saw .lcEnc { State.reset with arg := 4096#32 } (fun t => (t.mem.dst, t.wr.len, t.wr.buf, t.wr.cnt))
      = some ([(1, 0x10#8)], 2#32, 0x02#16, 8#4) := by decide +kernel
/-- §2.4: `0E A4` at entry 1. -/
theorem test_palDecA :
    saw .palDecA (withPair 0x0E#8 0xA4#8) (fun t => t.mem.palram.read 1) = some 0x44AAEEFF#32 := by decide +kernel
/-- §2.4: `0F FF` at entry 0: alpha forced 0. -/
theorem test_palDecA_entry_0 :
    saw .palDecA { State.reset with mem := { Memories.empty with palb := Memory.cells 0 [0x0F#8, 0xFF#8] } }
      (fun t => t.mem.palram.read 0) = some 0xFFFFFF00#32 := by decide +kernel
/-- §2.4: `0E A4` at entry 1. -/
theorem test_palDecB :
    saw .palDecB (withPair 0x0E#8 0xA4#8) (fun t => t.mem.palram.read 1) = some 0x49B6FFFF#32 := by decide +kernel
/-- §2.4: bits 8, 4 and 0 of the word are ignored (`01 11`). -/
theorem test_palDecB_ignored_bits :
    saw .palDecB (withPair 0x01#8 0x11#8) (fun t => t.mem.palram.read 1) = some 0x000000FF#32 := by decide +kernel
/-- §2.4: 0x44AAEEFF gives `0E A4`. -/
theorem test_palEncA :
    saw .palEncA (withEntry 0x44AAEEFF#32) (fun t => t.mem.palb) = some [(2, 0x0E#8), (3, 0xA4#8)] := by decide +kernel
/-- §2.4: 0x49B6FFFF rounds to `0F B4`. -/
theorem test_palEncA_rounds :
    saw .palEncA (withEntry 0x49B6FFFF#32) (fun t => t.mem.palb) = some [(2, 0x0F#8), (3, 0xB4#8)] := by decide +kernel
/-- §2.4: 0x14141400 under ROUND gives `02 22`. -/
theorem test_palEncB_round :
    saw .palEncB (withEntry 0x14141400#32) (fun t => t.mem.palb) = some [(2, 0x02#8), (3, 0x22#8)] := by decide +kernel
/-- §2.4: 0x14141400 under TOP3 gives `00 00`. -/
theorem test_palEncB_top3 :
    saw .palEncB { withEntry 0x14141400#32 with cfg := { Config.default with palBEnc := .top3 } } (fun t => t.mem.palb)
      = some [] := by decide +kernel
/-- §2.4: RENDER of two pixels, the first of index 0. -/
theorem test_render :
    saw .render { State.reset with imgW := 2#16, imgH := 1#16,
                                   mem := { Memories.empty with pix := [(1, 1#4)],
                                                                palram := [(0, 0x11223344#32), (1, 0x44AAEEFF#32)] } }
      (fun t => (t.mem.dst.readList 0 8, t.result, t.wr.len))
      = some ([0x11#8, 0x22#8, 0x33#8, 0x00#8, 0x44#8, 0xAA#8, 0xEE#8, 0xFF#8], 8#32, 8#32) := by decide +kernel
/-- §2.4: 65 by 65. -/
theorem test_render_capacity :
    saw .render { State.reset with imgW := 65#16, imgH := 65#16 } (fun t => (t.statusWord, t.mem.dst))
      = some (0x60#32, []) := by decide +kernel
/-- §2.5, first row. -/
theorem test_decA :
    saw .decA (load [0x01#8, 0x01#8, 0xD7#8, 0x41#8, 0x68#8, 0x1F#8, 0x80#8, 0x00#8])
      (fun t => (t.statusWord, t.mem.pix, t.imgW, t.rd.off, t.rd.cnt))
      = some (0#32, [(0, 5#4), (3, 10#4), (8, 5#4), (15, 5#4)], 8#16, 8#32, 15#5) := by decide +kernel
/-- §2.5: the copy-downs of offset 2, right and left. -/
theorem test_decA_offset_2 :
    saw .decA (load [0x01#8, 0x01#8, 0x79#8, 0x88#8, 0x60#8, 0x1F#8, 0x00#8, 0x00#8])
      (fun t => (t.statusWord, t.mem.pix, t.rd.off, t.rd.cnt))
      = some (0#32, [(4, 9#4), (14, 9#4), (20, 9#4)], 8#32, 15#5) := by decide +kernel
/-- §2.6: an offset 2 copy-down, then the end of the stream. -/
theorem test_decB_truncated :
    saw .decB (load [0x1A#8, 0x86#8]) (fun t => (t.statusWord, t.mem.pix, t.rd.off, t.rd.cnt, t.imgW))
      = some (2#32, [(0, 6#4), (62, 6#4)], 2#32, 0#5, 64#16) := by decide +kernel
/-- §2.6, first row. -/
theorem test_decB :
    saw .decB (load [0x00#8, 0x00#8, 0x20#8, 0x04#8]) (fun t => (t.statusWord, t.mem.pix, t.rd.off, t.rd.cnt))
      = some (0#32, [], 4#32, 1#5) := by decide +kernel
/-- §2.7: PIX[1] = 3 and PIX[64] = 3: a copy-down mark. -/
theorem test_encB_marks :
    saw .encB (withImage [(1, 3#4), (64, 3#4)]) (fun t => (t.statusWord, t.mem.dst.readList 0 10, t.result, t.wr.len))
      = some (0#32, [0x01#8, 0x9E#8, 0x30#8, 0x02#8, 0x01#8, 0xB0#8, 0x00#8, 0x1F#8, 0x82#8, 0x00#8], 10#32, 10#32) := by
  decide +kernel
/-- §2.7: PIX[4032] = 4 and PIX[4095] = 4: the probe stops at the end of the image. -/
theorem test_encB_last_row :
    saw .encB (withImage [(4032, 4#4), (4095, 4#4)]) (fun t => (t.mem.dst.readList 0 8, t.result))
      = some ([0x00#8, 0x00#8, 0x7E#8, 0x12#8, 0x63#8, 0x00#8, 0x20#8, 0x23#8], 8#32) := by decide +kernel
/-- §2.8 and E2: one blink record, no warning. -/
theorem test_parse :
    saw .parse (load ([0x00#8, 0x01#8, 0x00#8, 0x00#8, 0x06#8, 0x00#8, 0x00#8, 0x00#8] ++ ramp ++
        [0x08#8, 0x08#8, 0x00#8, 0x00#8, 0x20#8, 0x04#8]))
      (fun t => ((t.statusWord, t.warnStatWord, t.blinkN, t.mem.blinkTbl) ==
        (0#32, 0#32, 1#8, [(2, 0x06#8)]), t.mem.palb.readList 0 32, t.marker, t.graphicOff, t.result))
      = some (true, ramp, 0x0808#16, 40#32, 40#32) := by decide +kernel
/-- §2.8: the 14-byte row, three warnings. -/
theorem test_parse_warnings :
    saw .parse (load ([0x01#8, 0x00#8, 0x00#8, 0x00#8] ++ ramp.take 10))
      (fun t => (t.mem.palb.readList 0 32, t.marker, t.warnCnt, t.mem.warnlog))
      = some (ramp.take 10 ++ List.replicate 22 0#8, 0#16, 3#8,
          [(0, 0x01000000#32), (1, 0x05000004#32), (2, 0x06000024#32)]) := by decide +kernel
/-- §2.8: E2's container after the edit BLINK_N ← 0. -/
theorem test_serialize :
    saw .serialize { load (List.replicate 40 0x77#8 ++ [0x08#8, 0x08#8, 0x00#8, 0x00#8, 0x20#8, 0x04#8]) with
        graphicOff := 40#32,
        mem := { Memories.empty with
          src := Memory.ofList 65536 (List.replicate 40 0x77#8 ++ [0x08#8, 0x08#8, 0x00#8, 0x00#8, 0x20#8, 0x04#8]),
          palb := Memory.ofList 32 ramp } }
      (fun t => (t.statusWord, t.mem.dst.readList 0 43, t.result, t.wr.len))
      = some (0#32, [0#8, 0#8, 0#8, 0#8] ++ ramp ++ [0x08#8, 0x08#8, 0x00#8, 0x00#8, 0x20#8, 0x04#8, 0x00#8],
          36#32, 42#32) := by decide +kernel
/-- §2.8: SRC_LEN = 65536 and GRAPHIC_OFF = 0: one command too long for DST. -/
theorem test_serialize_overflow :
    saw .serialize { State.reset with srcLen := 65536#32 } (fun t => (t.statusWord, t.mem.dst, t.result))
      = some (0x50#32, [], 0#32) := by decide +kernel

/-! ## One step -/

/-- §2.1: an illegal word is ILLEGAL_COMMAND, and the next command clears ERR (P5). -/
theorem test_step_illegal :
    (match step (State.reset.withFetchWord 32 0x07) with | .next t => some t.statusWord | _ => none) = some 0x40#32 := by
  decide +kernel
/-- §2.9: PARAM after reset. -/
theorem test_reset_param : State.reset.readReg .param = 0x00101000#32 := by decide
/-- A word placed by `withFetchWord` runs as the next step. -/
theorem test_step_runs_word :
    (match step ((load [0xA5#8, 0x0F#8]).withFetchWord 32 0x00040003) with | .next t => some t.result | _ => none)
      = some 0xA#32 := by decide +kernel

/-! ## Streams for the witnesses: the SRC bytes of a given bit string -/

/-- The bytes of a bit string of whole bytes. -/
def pack : List Bool → List Byte
  | a :: b :: c :: d :: e :: f :: g :: h :: rest => BitVec.ofNat 8 (natOfBits [a, b, c, d, e, f, g, h]) :: pack rest
  | _ => []

theorem bits_pack (n : Nat) (l : List Bool) (h : l.length = 8 * n) :
    (pack l).flatMap (fun b => bitsOf b.toNat 8) = l ∧ (pack l).length = n := by
  induction n generalizing l with
  | zero => obtain rfl : l = [] := List.length_eq_zero_iff.1 (by simpa using h); exact ⟨rfl, rfl⟩
  | succ n ih =>
    match l, h with
    | a :: b :: c :: d :: e :: f :: g :: k :: rest, h =>
      obtain ⟨h1, h2⟩ := ih rest (by simp only [List.length_cons] at h; omega)
      refine ⟨?_, by simp [pack, h2]⟩
      have := bitsOf_natOfBits [a, b, c, d, e, f, g, k]
      rw [pack, List.flatMap_cons, h1, BitVec.toNat_ofNat, bitsOf_mod]
      exact congrArg (· ++ rest) this

theorem readList_ofList {w : Nat} (cap : Nat) (vs : List (BitVec w)) (h : vs.length ≤ cap) :
    (Memory.ofList cap vs).readList 0 vs.length = vs := by
  apply List.ext_getElem
  · simp
  · intro i _ h2
    simp [Memory.readList, Memory.read_ofList, Nat.lt_of_lt_of_le h2 h, h2, List.getD_eq_getElem?_getD]

/-- A state whose SRC holds these bits. -/
theorem stream_load (n : Nat) (l : List Bool) (h : l.length = 16 * n) (hn : n ≤ 32768) :
    (load (pack l)).streamAtArg = l := by
  obtain ⟨h1, h2⟩ := bits_pack (2 * n) l (by omega)
  have hu : usableBytes (load (pack l)).source 0 = (pack l).length := by
    simp only [usableBytes, State.source, load, State.reset, Config.default, BitVec.toNat_ofNat]
    omega
  have : (load (pack l)).streamAtArg = byteBits (Memory.ofList 65536 (pack l)) 0 (usableBytes (load (pack l)).source 0) := rfl
  rw [this, hu, byteBits, readList_ofList _ _ (by omega), h1]

theorem runB_length (x : RunB) : 7 ≤ x.bits.length := by
  obtain ⟨v, flag, len⟩ := x
  cases flag <;> simp [RunB.bits, FlagB.bits, lcBits] <;> omega

/-! ## The hypotheses of each obligation are met somewhere -/

theorem witness_DecodeOfEncode : (Instr.rdBits 32#8).wellFormed = true ∧ Instr.serialize.wellFormed = true := by decide
theorem witness_DecodedWordIsItsEncoding :
    decode 0x00200005#32 = .ok (.wrBits 32#8) ∧ decode 0x00000005#32 = .ok (.wrBits 0#8) := by decide

/-- The state whose next host action writes this word to CMD. -/
def issuing (w : Word) : State := { State.reset with program := [.write 0 4 (.lit w)] }

theorem witness_StepRunsDecodedCommand :
    (issuing 0x28#32).busy = false ∧
    (issuing 0x28#32).program = .write (issuing 0x28#32).cfg.base 4 (.lit 0x28#32) :: [] ∧
    decode 0x28#32 = .ok .encB := by decide
/-- One word for each check of R81. -/
theorem witness_IllegalWordOnlySetsStatus :
    ([0x01000002#32, 0x00000102#32, 0x00000007#32, 0x00010002#32, 0x00210003#32, 0xFFFF0005#32].all fun w =>
      decide ((issuing w).busy = false ∧
        (issuing w).program = .write (issuing w).cfg.base 4 (.lit w) :: [] ∧ illegalWord w)) = true := by
  decide
theorem witness_OnlyReadersSetTrunc :
    (∃ t, exec .rdBit (load []) = .next t ∧ t.trunc = true) ∧
    (Instr.rdBits 1#8).wellFormed = true ∧ (Instr.rdBits 1#8).mayTruncate = true ∧ Instr.rdBits 1#8 ≠ .rdBits 0#8 :=
  ⟨⟨_, rfl, by decide⟩, by decide, by decide, by decide⟩

/-- A Variant A stream that stays in its prediction sub-loop. -/
def endless : State := { load ([1#8, 1#8] ++ List.replicate 40 0xFF#8) with cfg := { Config.default with iterFactor := 2 } }

theorem witness_FailuresPerCommand :
    endless.cfg.Legal ∧
    (∃ t, exec .decA endless = .next t ∧ t.err = some .runtimeInvariantFailure) ∧
    (∃ t, exec .encB State.reset = .next t ∧ t.err = some .formatViolation) ∧
    (∃ t, exec .parse State.reset = .next t ∧ t.err = some .containerTruncated) ∧
    (∃ t, exec .serialize { State.reset with srcLen := 65536#32 } = .next t ∧ t.err = some .outputOverflow) ∧
    ∃ t, exec .render { State.reset with imgW := 65#16, imgH := 65#16 } = .next t ∧ t.err = some .capacityExceeded := by
  refine ⟨by decide, ?_, ?_, ?_, ?_, ?_⟩ <;> exact ⟨_, rfl, by decide +kernel⟩
theorem witness_ResultWrittenOnlyAsStated :
    (∃ t, exec .rdStart State.reset = .next t ∧ Instr.rdStart.writesResult = false) ∧
    ∃ t, exec .encB State.reset = .next t ∧ t.err ≠ none :=
  ⟨⟨_, rfl, rfl⟩, ⟨_, rfl, by decide +kernel⟩⟩
theorem witness_CommandsChangeOnlyTheirState (i : Instr) : ∃ t, exec i State.reset = .next t := by
  cases i <;> exact ⟨_, rfl⟩
theorem witness_NoReadOfSrcAtOrAboveSrcLen :
    (∀ a, a < (load [1#8, 2#8]).srcLen.toNat →
      Memory.read [(0, 1#8), (1, 2#8), (2, 0xFF#8)] a = (load [1#8, 2#8]).mem.src.read a) ∧
    ∃ t, exec .decB (load [1#8, 2#8]) = .next t :=
  ⟨by decide, _, rfl⟩
theorem witness_NoReadOfDst : ∃ t, exec .wrFlush State.reset = .next t := ⟨_, rfl⟩
theorem witness_EveryStepKeepsInvariant : (issuing 0x28#32).Inv ∧ ∃ t, step (issuing 0x28#32) = .next t :=
  ⟨by decide, _, rfl⟩
/-- The smallest and the largest values of the parameters (00_scope.md R9). -/
theorem witness_AnyDrawIsLegal :
    Config.Legal ⟨2, 16384, 4096, 7, 2, .use, .top3, 0⟩ ∧
    Config.Legal ⟨2 ^ 24, 2 ^ 24, 2 ^ 22, 64, 300, .drop, .round, 0x10000⟩ := by decide

/-- One non-zero entry drawn for each memory. -/
def draw : Draw := ⟨[1#8], [2#8], [3#4], [4#32], [5#8], [6#8], [7#8], [8#32]⟩

theorem witness_PlatformResetStep :
    ({ State.reset with program := [.reset draw] }).program = .reset draw :: [] ∧ 0 < draw.src.length ∧
    0 < draw.dst.length ∧ 0 < draw.pix.length ∧ 0 < draw.palram.length ∧ 0 < draw.palb.length ∧
    0 < draw.blinkTbl.length ∧ 0 < draw.talkTbl.length ∧ 0 < draw.warnlog.length ∧ 0 < State.reset.cfg.warnCap := by
  decide

/-! ### Bit Cursor -/

theorem witness_RdBitDeliversNextBit :
    (load [0x80#8, 0#8]).rd.Ok ∧ (load [0x80#8, 0#8]).pending = true :: List.replicate 15 false ∧
    (load [0x80#8]).pending = [] := by decide
theorem witness_RdBitsDeliversField :
    (load [1#8, 2#8, 3#8, 4#8]).rd.Ok ∧ (32#8).toNat ≤ 32 ∧ (32#8).toNat ≤ (load [1#8, 2#8, 3#8, 4#8]).pending.length ∧
    (0#8).toNat ≤ (load []).pending.length := by decide
theorem witness_RdBitsExhausted :
    (load [1#8, 2#8]).rd.Ok ∧ (17#8).toNat ≤ 32 ∧ (load [1#8, 2#8]).pending.length < (17#8).toNat ∧
    (load []).pending.length < (1#8).toNat := by decide
theorem witness_ReaderMovesOnlyForward :
    Instr.rdBit ≠ .rdStart ∧ Instr.rdBit ≠ .decA ∧ Instr.rdBit ≠ .decB ∧ ∃ t, exec .rdBit (load [1#8, 2#8]) = .next t :=
  ⟨by decide, by decide, by decide, _, rfl⟩

/-- Right after reset, with this writer. -/
def writing (len : Word) (buf : BitVec 16) (cnt : BitVec 4) : State := { State.reset with wr := ⟨len, buf, cnt⟩ }

/-- The last words of DST, and no word at its end. -/
theorem witness_WrBitsAppendsField :
    (writing 65532#32 0#16 0#4).cfg.Legal ∧ (writing 65532#32 0#16 0#4).wr.Ok ∧
    (writing 65532#32 0#16 0#4).wr.len.toNat + (writing 65532#32 0#16 0#4).wr.grown (32#8).toNat ≤ 65536 ∧
    (writing 65536#32 5#16 3#4).wr.Ok ∧
    (writing 65536#32 5#16 3#4).wr.len.toNat + (writing 65536#32 5#16 3#4).wr.grown (0#8).toNat ≤ 65536 := by decide
theorem witness_WrBitsOverflow :
    (writing 65534#32 1#16 1#4).cfg.Legal ∧ (writing 65534#32 1#16 1#4).wr.Ok ∧
    (writing 65534#32 1#16 1#4).wr.len.toNat ≤ 65536 ∧
    65536 < (writing 65534#32 1#16 1#4).wr.len.toNat + (writing 65534#32 1#16 1#4).wr.grown (32#8).toNat ∧
    65536 < (writing 65535#32 0x7FFF#16 15#4).wr.len.toNat + (writing 65535#32 0x7FFF#16 15#4).wr.grown (1#8).toNat := by
  decide
theorem witness_WrFlushPadsLastWord :
    (writing 65534#32 5#16 3#4).cfg.Legal ∧ (writing 65536#32 0#16 0#4).wr.Ok ∧ (writing 65536#32 0#16 0#4).wr.cnt = 0#4 ∧
    (writing 65534#32 5#16 3#4).wr.Ok ∧ (writing 65534#32 5#16 3#4).wr.cnt ≠ 0#4 ∧
    (writing 65534#32 5#16 3#4).wr.len.toNat + 2 ≤ 65536 ∧
    (writing 65535#32 5#16 3#4).wr.Ok ∧ 65536 < (writing 65535#32 5#16 3#4).wr.len.toNat + 2 := by decide
/-- The fields of widths 4 and 3, copied to SRC offset 3. -/
theorem witness_ReaderReadsBackWriter :
    writeFields 65536 [(0xFA, 4), (5, 3)] (writing 7#32 1#16 1#4).output.init = .done ⟨[], ⟨0#32, 0x55#16, 7#4⟩⟩ ∧
    flush 65536 ⟨[], ⟨0#32, 0x55#16, 7#4⟩⟩ = .done ⟨[(0, 0xAA#8)], ⟨2#32, 0#16, 0#4⟩⟩ ∧
    (∀ i, i < 2 → (⟨[(3, 0xAA#8)], 5#32, .use⟩ : Source).mem.read ((3#32).toNat + i) = Memory.read [(0, 0xAA#8)] i) ∧
    (3#32).toNat + (2#32).toNat ≤ (5#32).toNat := by decide

/-! ### Length Code -/

/-- The last length of k = 0, the first of k = 1, and the last of k = 30. -/
theorem witness_LcKIsTheRangeOfItsValue :
    (2 ^ (0 + 1) - 2 ≤ 1 ∧ 1 < 2 ^ (0 + 2) - 2) ∧ (2 ^ (1 + 1) - 2 ≤ 2 ∧ 2 < 2 ^ (1 + 2) - 2) ∧
    (2 ^ (30 + 1) - 2 ≤ 2 ^ 32 - 3 ∧ 2 ^ 32 - 3 < 2 ^ (30 + 2) - 2) := by decide
/-- The shortest and the longest symbol, and the longest with room for one word only. -/
theorem witness_LcEncWritesSymbol :
    State.reset.cfg.Legal ∧ State.reset.wr.Ok ∧ 0 < 2 ^ (0 + 1) ∧ State.reset.arg.toNat = 2 ^ (0 + 1) - 2 + 0 ∧
    State.reset.wr.len.toNat + State.reset.wr.grown (2 * 0 + 2) ≤ 65536 ∧
    1 < 2 ^ (31 + 1) ∧ (0xFFFFFFFF#32).toNat = 2 ^ (31 + 1) - 2 + 1 ∧
    (writing 65528#32 0#16 0#4).wr.Ok ∧
    (writing 65528#32 0#16 0#4).wr.len.toNat + (writing 65528#32 0#16 0#4).wr.grown (2 * 31 + 2) ≤ 65536 ∧
    (writing 65534#32 1#16 1#4).wr.Ok ∧ (writing 65534#32 1#16 1#4).wr.len.toNat ≤ 65536 ∧
    65536 < (writing 65534#32 1#16 1#4).wr.len.toNat + (writing 65534#32 1#16 1#4).wr.grown (2 * 31 + 2) := by decide
/-- The shortest symbol, and one that saturates. -/
theorem witness_LcDecReadsSymbol :
    (load [0x80#8, 0#8]).rd.Ok ∧ (load [0x80#8, 0#8]).pending = lcSymbol 0 0 ++ List.replicate 14 false ∧
    2 ^ 32 - 1 < 2 ^ (31 + 1) ∧
    (load [0#8, 0#8, 0#8, 1#8, 0xFF#8, 0xFF#8, 0xFF#8, 0xFF#8]).pending = lcSymbol 31 (2 ^ 32 - 1) ++ [] := by
  decide +kernel
theorem witness_LcDecExhausted :
    (load [0#8, 0#8]).rd.Ok ∧ ∀ k v rest, v < 2 ^ (k + 1) → (load [0#8, 0#8]).pending ≠ lcSymbol k v ++ rest := by
  refine ⟨by decide, fun k v rest _ h => ?_⟩
  have h1 : true ∈ (load [0#8, 0#8]).pending := h ▸ by simp [lcSymbol]
  revert h1
  decide
theorem witness_LengthCodeRoundTrip :
    State.reset.cfg.Legal ∧ State.reset.wr = ⟨0#32, 0#16, 0#4⟩ ∧
    ∃ t u, exec .lcEnc State.reset = .next t ∧ exec .wrFlush t = .next u ∧ (load [0x80#8, 0#8]).srcLen = u.wr.len ∧
      (load [0x80#8, 0#8]).rd = Reader.init 0#32 ∧
      ∀ a, a < u.wr.len.toNat → (load [0x80#8, 0#8]).mem.src.read a = u.mem.dst.read a :=
  ⟨by decide, rfl, _, _, rfl, rfl, by decide +kernel, rfl, by decide +kernel⟩

/-! ### Palette -/

/-- Sixteen entries of convention A's levels. -/
def tableA : List Word := (List.range 16).map fun i =>
  BitVec.ofNat 32 (2 ^ 24 * (17 * i) + 2 ^ 16 * (17 * (15 - i)) + 2 ^ 8 * (17 * i) + if i = 0 then 0 else 255)

/-- Sixteen entries of convention B's levels. -/
def tableB : List Word := (List.range 16).map fun i =>
  BitVec.ofNat 32 (2 ^ 24 * ((255 * (i % 8) + 3) / 7) + 2 ^ 16 * ((255 * (7 - i % 8) + 3) / 7)
    + 2 ^ 8 * ((255 * (i % 8) + 3) / 7) + if i = 0 then 0 else 255)

/-- Right after reset with this PALRAM. -/
def withTable (l : List Word) : State := { State.reset with mem := { Memories.empty with palram := Memory.ofList 16 l } }

theorem witness_PaletteRoundTripA : ∀ i, i < 16 → ∃ r g b : Nat, r < 16 ∧ g < 16 ∧ b < 16 ∧
    (withTable tableA).mem.palram.read i =
      BitVec.ofNat 32 (2 ^ 24 * (17 * r) + 2 ^ 16 * (17 * g) + 2 ^ 8 * (17 * b) + (if i = 0 then 0 else 255)) :=
  fun i hi => ⟨i, 15 - i, i, hi, by omega, hi, by revert i; decide +kernel⟩
theorem witness_PaletteRoundTripB : ∀ i, i < 16 → ∃ r g b : Nat, r < 8 ∧ g < 8 ∧ b < 8 ∧
    (withTable tableB).mem.palram.read i =
      BitVec.ofNat 32 (2 ^ 24 * ((255 * r + 3) / 7) + 2 ^ 16 * ((255 * g + 3) / 7) + 2 ^ 8 * ((255 * b + 3) / 7)
        + (if i = 0 then 0 else 255)) :=
  fun i hi => ⟨i % 8, 7 - i % 8, i % 8, by omega, by omega, by omega, by revert i; decide +kernel⟩
/-- Every pixel of PIX and every byte of DST, and an empty image. -/
theorem witness_RenderWritesRgba :
    Config.Legal ⟨2, 16384, 4096, 7, 2, .drop, .round, 0⟩ ∧ (64#16).toNat * (64#16).toNat ≤ 4096 ∧
    4 * ((64#16).toNat * (64#16).toNat) ≤ 16384 ∧ (0#16).toNat * (64#16).toNat ≤ 4096 := by decide
/-- 65 by 65 pixels of 4096; and 128 by 64 of 8192 into 16384 bytes (95_test_vectors.md §2.4). -/
theorem witness_RenderRefusesLargeImages :
    4096 < (65#16).toNat * (65#16).toNat ∧
    ((128#16).toNat * (64#16).toNat ≤ 8192 ∧ 16384 < 4 * ((128#16).toNat * (64#16).toNat)) := by decide

/-! ### Image decoder and encoder -/

/-- One run of an offset 2 copy-down that fills the image (95_test_vectors.md §2.6). -/
theorem witness_DecBPaintsItsRuns :
    (load [0x1A#8, 0x80#8, 0x00#8, 0x80#8, 0x10#8, 0x00#8]).streamAtArg
      = [false, false] ++ [RunB.mk 6#4 (.left2 false 0#3) 4096].flatMap RunB.bits ++ List.replicate 11 false ∧
    finishesB [RunB.mk 6#4 (.left2 false 0#3) 4096] 0 ∧
    [RunB.mk 6#4 (.left2 false 0#3) 4096].length ≤ State.reset.cfg.iterFactor * 4097 :=
  ⟨by decide +kernel, by simp [finishesB], by decide⟩
/-- Right after reset with ODD_TAIL_MODE = USE and these bytes in SRC. -/
def loadUse (bytes : List Byte) : State := { load bytes with cfg := { Config.default with oddTail := .use } }

/-- No bit and one bit short of the discard bits; a cut between two runs; one in a run's first bit (95_test_vectors.md §2.6);
and one in the repeat count of a run whose copy-down was read. -/
theorem witness_DecBTruncated :
    (load []).streamAtArg.length < 2 ∧ (load [0xFF#8]).streamAtArg.length < 2 ∧
    ((load [0x01#8, 0x02#8]).streamAtArg
        = [false, false] ++ [RunB.mk 0#4 .zero 0, ⟨0#4, .zero, 0⟩].flatMap RunB.bits ++ [] ∧
      (∀ (x : RunB) (l : List Bool), [] ≠ x.bits ++ l)) ∧
    ((load [0x1A#8, 0x86#8]).streamAtArg
        = [false, false] ++ [RunB.mk 6#4 (.left2 false 0#3) 1].flatMap RunB.bits ++ [false] ∧
      (∀ (x : RunB) (l : List Bool), [false] ≠ x.bits ++ l) ∧ endB [RunB.mk 6#4 (.left2 false 0#3) 1] < 4096 ∧
      [RunB.mk 6#4 (.left2 false 0#3) 1].length < State.reset.cfg.iterFactor * 4097) ∧
    (load [0x1B#8, 0x00#8]).streamAtArg
        = [false, false] ++ [].flatMap RunB.bits ++ [false, true, true, false, true, true] ++ List.replicate 8 false ∧
      ∀ (x : RunB) (l : List Bool),
        [false, true, true, false, true, true] ++ List.replicate 8 false ≠ x.bits ++ l := by
  have short : ∀ (c : List Bool), c.length < 7 → ∀ (x : RunB) (l : List Bool), c ≠ x.bits ++ l := fun c hc x l h => by
    have h1 := congrArg List.length h
    have h2 := runB_length x
    rw [List.length_append] at h1
    omega
  refine ⟨by decide, by decide, ⟨by decide +kernel, short _ (by decide)⟩,
    ⟨by decide +kernel, short _ (by decide), by decide, by decide⟩, by decide +kernel, fun x l h => ?_⟩
  have h1 := congrArg (List.drop 4) h
  obtain ⟨v, flag, len⟩ := x
  cases flag with
  | left1 sent =>
    have h2 := congrArg (List.drop 9) h
    have h3 : true ∈ List.drop 9 (RunB.bits ⟨v, .left1 sent, len⟩ ++ l) := by
      simp [RunB.bits, FlagB.bits, bitsOf, lcBits, lcSymbol]
    rw [← h2] at h3
    revert h3
    decide
  | _ => simp [RunB.bits, FlagB.bits, bitsOf] at h1

/-- L runs of zero length (95_test_vectors.md §2.6, last row); L jumps of 0 before an image without pixels; and a jump
with L − 1 selections in an image of 8 by 8. -/
theorem witness_DecodersIterationCeiling :
    (∃ runs : List RunB, (∃ s : State, s.cfg = Config.default ∧
        s.streamAtArg = [false, false] ++ runs.flatMap RunB.bits ++ List.replicate 14 false) ∧
      endB runs < 4096 ∧ runs.length = Config.default.iterFactor * 4097) ∧
    (∃ s : State, s.cfg = { Config.default with iterFactor := 2 } ∧
      s.streamAtArg = bitsOf 0 8 ++ bitsOf 0 8 ++ [StepA.mk 0 0#4 none, ⟨0, 0#4, none⟩].flatMap StepA.bits ++
        (none : Option StepA).elim [] StepA.openBits ++ [false, false]) ∧
    endA ([StepA.mk 0 0#4 none, ⟨0, 0#4, none⟩] ++ (none : Option StepA).toList) < (8 * 0 * (8 * 0) : Nat) ∧
    ([StepA.mk 0 0#4 none, ⟨0, 0#4, none⟩].map StepA.ticks).sum + (none : Option StepA).elim 0 StepA.openTicks
      = 2 * (8 * 0 * (8 * 0) + 1) ∧
    endless.streamAtArg = bitsOf 1 8 ++ bitsOf 1 8 ++ [].flatMap StepA.bits ++
      (some (StepA.mk 1 15#4 (some (List.replicate 129 .same)))).elim [] StepA.openBits ++ List.replicate 184 true ∧
    8 * 1 * (8 * 1) ≤ endless.cfg.pixCap ∧
    endA ([] ++ (some (StepA.mk 1 15#4 (some (List.replicate 129 .same)))).toList) < (8 * 1 * (8 * 1) : Nat) ∧
    ([].map StepA.ticks).sum + (some (StepA.mk 1 15#4 (some (List.replicate 129 .same)))).elim 0 StepA.openTicks
      = endless.cfg.iterFactor * (8 * 1 * (8 * 1) + 1) := by
  have hl : (RunB.mk 0#4 .zero 0).bits.length = 7 := by decide
  have hbits : ∀ n, ((List.replicate n (RunB.mk 0#4 .zero 0)).flatMap RunB.bits).length = 7 * n := fun n => by
    simp only [List.length_flatMap, List.map_replicate, hl, List.sum_replicate, smul_eq_mul, Nat.mul_comm]
  have hend : ∀ n, endB (List.replicate n (RunB.mk 0#4 .zero 0)) = 0 := fun n => by
    simp only [endB, List.map_replicate, List.sum_replicate, smul_eq_mul, Nat.mul_zero]
  refine ⟨⟨List.replicate 65552 ⟨0#4, .zero, 0⟩, ⟨load (pack _), rfl, stream_load 28680 _ ?_ (by norm_num)⟩, ?_, ?_⟩,
    ⟨{ load [0#8, 0#8, 0x81#8, 0x00#8] with cfg := { Config.default with iterFactor := 2 } }, rfl, by decide +kernel⟩,
    by decide, by decide, by decide +kernel, by decide, by decide +kernel, by decide +kernel⟩
  · rw [List.length_append, List.length_append, hbits, List.length_replicate]
    rfl
  · rw [hend]
    norm_num
  · rw [List.length_replicate]
    rfl

/-- The stream of 95_test_vectors.md §2.5's first row, and one of an image without pixels. -/
theorem witness_DecAPaintsItsSteps :
    8 * 1 * (8 * 1) ≤ State.reset.cfg.pixCap ∧
    (load [0x01#8, 0x01#8, 0xD7#8, 0x41#8, 0x68#8, 0x1F#8, 0x80#8, 0x00#8]).streamAtArg
      = bitsOf 1 8 ++ bitsOf 1 8 ++ [StepA.mk 1 5#4 (some [.same, .left1]), ⟨3, 10#4, none⟩].flatMap StepA.bits
        ++ lcBits 61 ++ List.replicate 15 false ∧
    finishesA (8 * 1 * (8 * 1)) [StepA.mk 1 5#4 (some [.same, .left1]), ⟨3, 10#4, none⟩] (-1) 61 ∧
    ([StepA.mk 1 5#4 (some [.same, .left1]), ⟨3, 10#4, none⟩].map StepA.ticks).sum + 1 ≤ 16 * (8 * 1 * (8 * 1) + 1) ∧
    (load [0#8, 0#8, 0xC0#8, 0#8]).streamAtArg
      = bitsOf 0 8 ++ bitsOf 0 8 ++ [].flatMap StepA.bits ++ lcBits 1 ++ List.replicate 14 false ∧
    finishesA (8 * 0 * (8 * 0)) [] (-1) 1 :=
  ⟨by decide, by decide +kernel, by simp [finishesA], by decide, by decide +kernel, by simp [finishesA]⟩
/-- A header cut short; then, in an image of 8 by 8, cuts before a jump, in a pixel, before a prediction flag and in a
selection. -/
theorem witness_DecATruncated :
    ((load [1#8]).streamAtArg.length < 16 ∧ (loadUse [1#8]).streamAtArg.length < 16) ∧
    ((load [1#8, 1#8]).streamAtArg = bitsOf 1 8 ++ bitsOf 1 8 ++ [].flatMap StepA.bits ++ (CutA.inJump []).bits ∧
      endA [] < (8 * 1 * (8 * 1) : Nat) ∧ (CutA.inJump []).Fits (8 * 1 * (8 * 1)) (endA []) ∧
      ([].map StepA.ticks).sum + (CutA.inJump []).ticks ≤ 16 * (8 * 1 * (8 * 1) + 1)) ∧
    ((loadUse [1#8, 1#8, 0x23#8]).streamAtArg = bitsOf 1 8 ++ bitsOf 1 8 ++ [].flatMap StepA.bits ++
        (CutA.inJump [false, false, true, false, false, false, true, true]).bits ∧
      (CutA.inJump [false, false, true, false, false, false, true, true]).Fits (8 * 1 * (8 * 1)) (endA [])) ∧
    ((loadUse [1#8, 1#8, 0x45#8]).streamAtArg
        = bitsOf 1 8 ++ bitsOf 1 8 ++ [].flatMap StepA.bits ++ (CutA.atFlag 2 5#4).bits ∧
      (CutA.atFlag 2 5#4).Fits (8 * 1 * (8 * 1)) (endA [])) ∧
    (loadUse [1#8, 1#8, 0xD6#8]).streamAtArg = bitsOf 1 8 ++ bitsOf 1 8 ++ [].flatMap StepA.bits ++
        (CutA.inSelect ⟨1, 5#4, some []⟩ [false]).bits ∧
      (CutA.inSelect ⟨1, 5#4, some []⟩ [false]).Fits (8 * 1 * (8 * 1)) (endA []) := by
  refine ⟨by decide, ⟨by decide +kernel, by decide, ⟨fun j rest h => ?_, fun j v rest h => ?_⟩, by decide⟩,
    ⟨by decide +kernel, fun j rest h => ?_, fun j v rest h => ?_⟩, ⟨by decide +kernel, show endA [] + 2 < _ by decide⟩,
    by decide +kernel, by decide, fun d rest h => ?_, fun rest h => ?_⟩
  · simp [lcBits, lcSymbol] at h
  · simp [lcBits, lcSymbol] at h
  · have h1 := congrArg List.length h
    have h2 := (lcK_range j).2
    have h3 : 2 ^ (lcK j + 2) ≤ 2 ^ 5 := by
      simp [lcBits] at h1
      exact Nat.pow_le_pow_right (by norm_num) (by omega)
    simp only [endA]
    simp
    omega
  · have h1 := congrArg List.length h
    rcases hk : lcK j with _ | _ | k
    · simp [lcBits, lcSymbol, hk] at h
    · simp [lcBits, lcSymbol, hk] at h
    · simp [lcBits, hk] at h1
      omega
  · cases d <;> simp [SelA.bits] at h
  · simp at h
/-- 72 by 64 pixels of 4096 (95_test_vectors.md §2.5). -/
theorem witness_DecACapacityExceeded :
    State.reset.cfg.pixCap < 8 * 9 * (8 * 8) ∧
    (load [0x09#8, 0x08#8, 0#8, 0#8]).streamAtArg = bitsOf 9 8 ++ bitsOf 8 8 ++ List.replicate 16 false := by
  decide +kernel
theorem witness_EncBWritesMaximalRuns :
    (withImage [(0, 5#4)]).cfg.Legal ∧ (withImage [(0, 5#4)]).imgW = 64#16 ∧ (withImage [(0, 5#4)]).imgH = 64#16 := by
  decide
theorem witness_EncBChecksDimensions :
    ({ withImage [] with imgH := 63#16 }).imgH ≠ 64#16 ∧ State.reset.imgW ≠ 64#16 := by decide
theorem witness_ImageRoundTrip :
    (withImage []).cfg.Legal ∧ (withImage []).imgW = 64#16 ∧ (withImage []).imgH = 64#16 ∧
    ∃ t, exec .encB (withImage []) = .next t ∧ (load [0#8, 0#8, 0x20#8, 4#8]).cfg.Legal ∧
      (load [0#8, 0#8, 0x20#8, 4#8]).arg = 0#32 ∧ (load [0#8, 0#8, 0x20#8, 4#8]).srcLen = t.wr.len ∧
      ∀ a, a < t.wr.len.toNat → (load [0#8, 0#8, 0x20#8, 4#8]).mem.src.read a = t.mem.dst.read a :=
  ⟨by decide, rfl, rfl, _, rfl, by decide, rfl, by decide +kernel, by decide +kernel⟩

/-! ### Container -/

/-- E2's container (95_test_vectors.md §1). -/
def scenario : List Byte :=
  [0x00#8, 0x01#8, 0x00#8, 0x00#8, 0x06#8, 0x00#8, 0x00#8, 0x00#8] ++ ramp ++
    [0x08#8, 0x08#8, 0x00#8, 0x00#8, 0x20#8, 0x04#8]

/-- A whole container, and the shortest one with both headers. -/
theorem witness_ParseReadsContainer :
    (load scenario).cfg.Legal ∧ 2 ≤ (load scenario).srcLen.toNat ∧
    (load scenario).talkOff + 2 ≤ (load scenario).srcLen.toNat ∧
    (load [0#8, 0#8, 0#8, 0#8]).talkOff + 2 = (load [0#8, 0#8, 0#8, 0#8]).srcLen.toNat ∧
    1 < (load [1#8, 0#8, 0#8, 0#8]).warnings.length := by decide +kernel
theorem witness_ParseTruncatedContainer :
    (load [0#8]).cfg.Legal ∧ (load [0#8]).srcLen.toNat < 2 ∧ 2 ≤ (load [0#8, 0#8, 0#8]).srcLen.toNat ∧
    (load [0#8, 0#8, 0#8]).srcLen.toNat < (load [0#8, 0#8, 0#8]).talkOff + 2 ∧
    0 < (load [1#8, 2#8, 0#8, 0#8, 6#8, 0#8]).blinkWarnings.length ∧
    (load [1#8, 2#8, 0#8, 0#8, 6#8, 0#8]).srcLen.toNat < (load [1#8, 2#8, 0#8, 0#8, 6#8, 0#8]).talkOff + 2 := by
  decide +kernel
/-- Exactly DST_CAP bytes, with 4 records of blink and none of talk. -/
theorem witness_SerializeWritesContainer :
    (load []).cfg.Legal ∧ 52 = (2 + 4 * (4#8).toNat) + (2 + 4 * (0#8).toNat) + 32 ∧
    65484 = (65536#32).toNat - (52#32).toNat ∧ 52 + 65484 ≤ (load []).cfg.dstCap := by decide
theorem witness_SerializeOverflow :
    (load []).cfg.dstCap < (2 + 4 * (4#8).toNat) + (2 + 4 * (0#8).toNat) + 32 + ((65536#32).toNat - (51#32).toNat) := by
  decide
theorem witness_ParseSerializeRoundTrip :
    (load scenario).cfg.Legal ∧ 2 ≤ (load scenario).srcLen.toNat ∧
    (load scenario).talkOff + 2 ≤ (load scenario).srcLen.toNat ∧ (load scenario).warnings = [] ∧
    (load scenario).srcLen.toNat ≤ (load scenario).cfg.dstCap := by decide +kernel

/-- SRC with two trailing bytes, GRAPHIC_OFF at the first of them. -/
def trailing : State := { load [0x08#8, 0x09#8] with blinkN := 1#8 }

/-- What SERIALIZE writes for it. -/
def rebuilt : State := load (0#8 :: 1#8 :: List.replicate 38 0#8 ++ [0x08#8, 0x09#8])

theorem witness_ReparseAfterSerialize :
    trailing.cfg.Legal ∧ trailing.graphicOff.toNat + 2 ≤ trailing.srcLen.toNat ∧
    ∃ t, exec .serialize trailing = .next t ∧ t.err = none ∧ rebuilt.cfg.Legal ∧ rebuilt.srcLen = t.wr.len ∧
      ∀ a, a < t.wr.len.toNat → rebuilt.mem.src.read a = t.mem.dst.read a :=
  ⟨by decide, by decide, _, rfl, by decide +kernel, by decide, by decide +kernel, by decide +kernel⟩

/-! ### Host accesses -/

/-- Right after reset, with this one action to come. -/
def planned (a : HostAction) : State := { State.reset with program := [a] }

/-- STATUS while busy; the first and the last register, and the last entry of each window. -/
theorem witness_HostReadHasNoSideEffect :
    State.reset.cfg.Legal ∧ State.reset.busy = false ∧
    ({ planned (.read 4 4) with busy := true }).program = .read (State.reset.cfg.base + 0x004) 4 :: [] ∧
    (planned (.read 0 4)).program = .read (State.reset.cfg.base + 0x000) 4 :: [] ∧
    (planned (.read 0x50 4)).program = .read (State.reset.cfg.base + 0x050) 4 :: [] ∧
    (15 < 16 ∧ (planned (.read 0x13C 4)).program = .read (State.reset.cfg.base + (0x100 + 4 * 15)) 4 :: []) ∧
    (31 < 32 ∧ (planned (.read 0x15F 1)).program = .read (State.reset.cfg.base + (0x140 + 31)) 1 :: []) ∧
    (15 < State.reset.cfg.warnCap ∧
      (planned (.read 0x23C 4)).program = .read (State.reset.cfg.base + (0x200 + 4 * 15)) 4 :: []) ∧
    (1019 < 1020 ∧ (planned (.read 0x7FB 1)).program = .read (State.reset.cfg.base + (0x400 + 1019)) 1 :: []) ∧
    (1019 < 1020 ∧ (planned (.read 0xBFB 1)).program = .read (State.reset.cfg.base + (0x800 + 1019)) 1 :: []) ∧
    (4095 < State.reset.cfg.pixCap ∧
      (planned (.read 0x10FFF 1)).program = .read (State.reset.cfg.base + (0x10000 + 4095)) 1 :: []) ∧
    (65535 < State.reset.cfg.srcCap ∧
      (planned (.read 0x100FFFF 1)).program = .read (State.reset.cfg.base + (0x1000000 + 65535)) 1 :: []) ∧
    (65535 < State.reset.cfg.dstCap ∧
      (planned (.read 0x200FFFF 1)).program = .read (State.reset.cfg.base + (0x2000000 + 65535)) 1 :: []) := by decide
theorem witness_HostWritesRegisters :
    RegName.srcLen ≠ .cmd ∧ RegName.pixCapR ≠ .cmd ∧ ({ State.reset with program := [.write 0x10 4 (.lit 0xFFFFFFFF#32)] }).program
      = .write (State.reset.cfg.base + RegName.srcLen.offset) 4 (.lit 0xFFFFFFFF#32) :: [] := by decide
/-- The first entry of the palette's windows, and the last one of the others. -/
theorem witness_HostWritesWindows :
    State.reset.cfg.Legal ∧ State.reset.busy = false ∧
    (0 < 16 ∧ (planned (.write 0x100 4 (.lit 7#32))).program
      = .write (State.reset.cfg.base + (0x100 + 4 * 0)) 4 (.lit 7#32) :: []) ∧
    (0 < 32 ∧ (planned (.write 0x140 1 (.lit 7#32))).program
      = .write (State.reset.cfg.base + (0x140 + 0)) 1 (.lit 7#32) :: []) ∧
    (15 < State.reset.cfg.warnCap ∧ (planned (.write 0x23C 4 (.lit 7#32))).program
      = .write (State.reset.cfg.base + (0x200 + 4 * 15)) 4 (.lit 7#32) :: []) ∧
    (1019 < 1020 ∧ (planned (.write 0x7FB 1 (.lit 7#32))).program
      = .write (State.reset.cfg.base + (0x400 + 1019)) 1 (.lit 7#32) :: []) ∧
    (1019 < 1020 ∧ (planned (.write 0xBFB 1 (.lit 7#32))).program
      = .write (State.reset.cfg.base + (0x800 + 1019)) 1 (.lit 7#32) :: []) ∧
    (4095 < State.reset.cfg.pixCap ∧ (planned (.write 0x10FFF 1 (.lit 0xF5#32))).program
      = .write (State.reset.cfg.base + (0x10000 + 4095)) 1 (.lit 0xF5#32) :: []) ∧
    (65535 < State.reset.cfg.srcCap ∧ (planned (.write 0x100FFFF 1 (.lit 7#32))).program
      = .write (State.reset.cfg.base + (0x1000000 + 65535)) 1 (.lit 7#32) :: []) ∧
    (65535 < State.reset.cfg.dstCap ∧ (planned (.write 0x200FFFF 1 (.lit 7#32))).program
      = .write (State.reset.cfg.base + (0x2000000 + 65535)) 1 (.lit 7#32) :: []) := by decide
/-- The first and the last offset of every gap, wrong widths and alignments at both ends of every window, an address below
SF1PC_BASE, and a read while busy. -/
theorem witness_HostDutyViolationsAreRefused :
    State.reset.cfg.Legal ∧ 0xFFF < ({ Config.default with base := 0x1000 }).base ∧
    (planned (.read 0x54 4)).program = .read (State.reset.cfg.base + 0x54) 4 :: [] ∧
    (∀ off ∈ [0x54, 0xFF, 0x160, 0x1FF, 0x240, 0x3FF, 0x7FC, 0x7FF, 0xBFC, 0xFFFF, 0x11000, 0xFFFFFF, 0x1010000,
        0x1FFFFFF, 0x2010000],
      (0x54 ≤ off ∧ off < 0x100) ∨ (0x160 ≤ off ∧ off < 0x200) ∨ (0x200 + 4 * State.reset.cfg.warnCap ≤ off ∧ off < 0x400) ∨
      (0x7FC ≤ off ∧ off < 0x800) ∨ (0xBFC ≤ off ∧ off < 0x10000) ∨
      (0x10000 + State.reset.cfg.pixCap ≤ off ∧ off < 0x1000000) ∨
      (0x1000000 + State.reset.cfg.srcCap ≤ off ∧ off < 0x2000000) ∨ 0x2000000 + State.reset.cfg.dstCap ≤ off) ∧
    (∀ x ∈ [(0x00, 1), (0x53, 4), (0x100, 8), (0x13F, 4), (0x200, 2), (0x23E, 4)],
      (x.1 < 0x54 ∨ (0x100 ≤ x.1 ∧ x.1 < 0x140) ∨ (0x200 ≤ x.1 ∧ x.1 < 0x200 + 4 * State.reset.cfg.warnCap)) ∧
      (x.2 ≠ 4 ∨ x.1 % 4 ≠ 0)) ∧
    (∀ off ∈ [0x140, 0x15F, 0x400, 0x7FB, 0x800, 0xBFB, 0x10000, 0x10FFF, 0x1000000, 0x100FFFF, 0x2000000, 0x200FFFF],
      ((0x140 ≤ off ∧ off < 0x160) ∨ (0x400 ≤ off ∧ off < 0x7FC) ∨ (0x800 ≤ off ∧ off < 0xBFC) ∨
      (0x10000 ≤ off ∧ off < 0x10000 + State.reset.cfg.pixCap) ∨
      (0x1000000 ≤ off ∧ off < 0x1000000 + State.reset.cfg.srcCap) ∨
      (0x2000000 ≤ off ∧ off < 0x2000000 + State.reset.cfg.dstCap)) ∧ 4 ≠ 1) ∧
    ({ planned (.read 8 4) with busy := true }).busy = true ∧
    HostAction.read 8 4 ≠ .read (State.reset.cfg.base + 4) 4 := by
  decide

end Sys2Proof.Tests
end

section
/-! SUPPORT. Every primitive of the reader, the writer and the loops keeps its part of a legal state (10_state.md R29, R30;
60_exceptions.md R280), whatever it answers. -/

namespace Sys2Proof.Machine

/-! ## The reader -/

/-- The reader that a primitive leaves, with a value or at exhaustion, is legal. -/
def Read.Ok {α : Type} : Read α → Prop
  | .got _ r => r.Ok
  | .exhausted r => r.Ok

theorem Read.Ok.got {α : Type} {p : Read α} {v : α} {r : Reader} (h : p.Ok) (hp : p = .got v r) : r.Ok := by
  rw [hp] at h
  exact h

theorem Read.Ok.exhausted {α : Type} {p : Read α} {r : Reader} (h : p.Ok) (hp : p = .exhausted r) : r.Ok := by
  rw [hp] at h
  exact h

theorem Read.Ok.andThen {α β : Type} {p : Read α} {f : α → Reader → Read β} (h : p.Ok)
    (hf : ∀ v r, r.Ok → (f v r).Ok) : (p.andThen f).Ok := by
  cases p with
  | got v r => exact hf v r h
  | exhausted r => exact h

theorem readBit_ok (q : Source) {r : Reader} (h : r.Ok) : (readBit q r).Ok := by
  rcases hb : pendingBits q r with _ | ⟨b, l⟩
  · rw [(readBit_nil h hb).1]
    exact h
  · obtain ⟨r', hr, hd, -⟩ := readBit_cons h hb
    rw [hr]
    exact hd.ok

theorem readBits_ok (q : Source) {r : Reader} (h : r.Ok) (n : Nat) : (readBits q n r).Ok := by
  rcases readBits_cases q h n with ⟨r', hr, hd, -⟩ | ⟨r', hr, hd, -⟩ <;> rw [hr]
  · exact hd.ok
  · exact hd.delivers.ok

theorem lcDecodeSat_ok (q : Source) {r : Reader} (h : r.Ok) : (lcDecodeSat q r).Ok := by
  rcases lcDecodeSat_cases q h with ⟨len, rest, r', -, hr, hd, -⟩ | ⟨r', hr, hd, -⟩ <;> rw [hr]
  · exact hd.ok
  · exact hd.delivers.ok

theorem readSel_ok (q : Source) {r : Reader} (h : r.Ok) : (readSel q r).Ok := by
  rcases readSel_cases q h with ⟨v, l, r', hr, hd⟩ | ⟨r', hr, hd⟩ <;> rw [hr]
  · exact hd.ok
  · exact hd.delivers.ok

theorem readHeader_ok (q : Source) {r : Reader} (h : r.Ok) : (readHeader q r).Ok :=
  (readBits_ok q h 8).andThen fun _ _ h => (readBits_ok q h 8).andThen fun _ _ h => h

/-! ## The writer -/

/-- The output side of a legal state: the writer's buffer (R30), WR_LEN within DST (R280), and DST itself. -/
structure Output.Ok (cap : Nat) (o : Output) : Prop where
  wr : o.wr.Ok
  len : o.wr.len.toNat ≤ cap
  dst : o.dst.Ok cap

/-- The output side that a writer primitive leaves, done or at OUTPUT_OVERFLOW, is legal. -/
def Write.Ok (cap : Nat) : Write → Prop
  | .done o => o.Ok cap
  | .overflow o => o.Ok cap

theorem Write.Ok.done {cap : Nat} {p : Write} {o : Output} (h : p.Ok cap) (hp : p = .done o) : o.Ok cap := by
  rw [hp] at h
  exact h

theorem Write.Ok.overflow {cap : Nat} {p : Write} {o : Output} (h : p.Ok cap) (hp : p = .overflow o) : o.Ok cap := by
  rw [hp] at h
  exact h

theorem Output.Ok.init {cap : Nat} {o : Output} (h : o.Ok cap) : o.init.Ok cap :=
  ⟨Nat.one_pos, Nat.zero_le _, h.dst⟩

theorem writeAll_ok {cap : Nat} (hcap : cap < 2 ^ 32) (l : List Bool) {o : Output} (h : o.Ok cap) :
    (writeAll cap l o).Ok cap := by
  rcases writeAll_cases hcap l h.wr h.len with ⟨o', hw, ha, hl⟩ | ⟨o', hw, ha, hl⟩ <;> rw [hw]
  · exact ⟨ha.ok, hl, writeAll_dst_ok h.dst (.inl hw)⟩
  · exact ⟨ha.ok, hl, writeAll_dst_ok h.dst (.inr hw)⟩

theorem writeBits_ok {cap : Nat} (hcap : cap < 2 ^ 32) (v n : Nat) {o : Output} (h : o.Ok cap) :
    (writeBits cap v n o).Ok cap := by
  rw [writeBits_eq]
  exact writeAll_ok hcap _ h

theorem lcEncode_ok {cap : Nat} (hcap : cap < 2 ^ 32) (len : Nat) {o : Output} (h : o.Ok cap) :
    (lcEncode cap len o).Ok cap := by
  rw [lcEncode_eq]
  exact writeAll_ok hcap _ h

theorem writeRun_ok {cap : Nat} (hcap : cap < 2 ^ 32) (pix : Memory 4) (pos : Nat) {o : Output} (h : o.Ok cap) :
    (writeRun cap pix pos o).Ok cap := by
  rw [writeRun_eq]
  exact writeAll_ok hcap _ h

theorem flush_ok {cap : Nat} (hcap : cap < 2 ^ 32) {o : Output} (h : o.Ok cap) : (flush cap o).Ok cap := by
  rcases flush_cases hcap h.wr with ⟨hw, -⟩ | ⟨hw, -⟩ | ⟨o', hw, ha, -, -, -, hl, -, hd⟩ <;> rw [hw]
  · exact h
  · exact h
  · exact ⟨ha.ok, hl, hd h.dst⟩

/-! ## The loops -/

/-- Whatever a turn of a loop does next, the loop state it leaves has the property. -/
def Turn.All {σ : Type} (P : σ → Prop) : Turn σ → Prop
  | .again x => P x
  | .stop _ x => P x

/-- What every turn keeps from a state in which the loop goes on, the whole loop keeps. -/
theorem tickLoop_keeps {σ : Type} {more : σ → Bool} {turn : σ → Turn σ} {P : σ → Prop}
    (hturn : ∀ x, more x = true → P x → (turn x).All P) (n : Nat) {x : σ} (h : P x) : P (tickLoop more turn n x).2 := by
  refine tickLoop_invariant (fun x y hm hx ht => ?_) (fun x e y hm hx ht => ?_) n h
  · have hall := hturn x hm hx
    rwa [ht] at hall
  · have hall := hturn x hm hx
    rwa [ht] at hall

/-- The part of a legal state that a decode loop changes: the reader and PIX. -/
structure Canvas.Ok (cap : Nat) (c : Canvas) : Prop where
  rd : c.rd.Ok
  pix : c.pix.Ok cap

/-- A jump of DEC_A keeps the reader and PIX legal, wherever the stream ends in it (43_decoder.md R187 to R190). -/
theorem LoopA.jumpTurn_ok (q : Source) {cap size : Nat} (hcap : size ≤ cap) {x : LoopA} (h : x.canvas.Ok cap) :
    (x.jumpTurn q size).All fun y => y.canvas.Ok cap := by
  have hjump := lcDecodeSat_ok q h.rd
  unfold LoopA.jumpTurn
  split
  next r hr => exact ⟨hjump.exhausted hr, h.pix⟩
  next jump r hr =>
    have hpixel := readBits_ok q (hjump.got hr) 4
    dsimp only
    split
    · exact ⟨hjump.got hr, h.pix⟩
    split
    next r hr => exact ⟨hpixel.exhausted hr, h.pix⟩
    next v r hr =>
      have hflag := readBit_ok q (hpixel.got hr)
      have hpix := storePixel_ok hcap h.pix (x.pos + (jump : Int)) (toPixel v)
      split
      next r hr => exact ⟨hflag.exhausted hr, hpix⟩
      next f r hr => exact ⟨hflag.got hr, hpix⟩

/-- So does a pass of its prediction sub-loop (R191 to R193). -/
theorem LoopA.predictTurn_ok (q : Source) (width : Nat) {cap size : Nat} (hcap : size ≤ cap) (pos2 : Int) {x : LoopA}
    (h : x.canvas.Ok cap) : (x.predictTurn q width size pos2).All fun y => y.canvas.Ok cap := by
  have hsel := readSel_ok q h.rd
  unfold LoopA.predictTurn
  split
  next r hr => exact ⟨hsel.exhausted hr, h.pix⟩
  next r hr => exact ⟨hsel.got hr, h.pix⟩
  next d r hr => exact ⟨hsel.got hr, storePixel_ok hcap h.pix _ _⟩

theorem LoopA.turn_ok (q : Source) (width : Nat) {cap size : Nat} (hcap : size ≤ cap) {x : LoopA}
    (h : x.canvas.Ok cap) : (x.turn q width size).All fun y => y.canvas.Ok cap := by
  unfold LoopA.turn
  split
  · exact LoopA.jumpTurn_ok q hcap h
  · exact LoopA.predictTurn_ok q width hcap _ h

theorem decodeBodyA_ok (q : Source) (limit width : Nat) {cap size : Nat} (hcap : size ≤ cap) {c : Canvas}
    (h : c.Ok cap) : (decodeBodyA q limit width size c).2.Ok cap :=
  tickLoop_keeps (P := fun x : LoopA => x.canvas.Ok cap) (fun _ _ hx => LoopA.turn_ok q width hcap hx) limit h

theorem flagPart_ok (q : Source) {cap : Nat} (hcap : Config.imgSize ≤ cap) (pos : Nat) (v : Pixel) (f : Bool) {c : Canvas}
    (h : c.Ok cap) : (flagPart q pos v f c).2.Ok cap := by
  obtain ⟨e, r, hf, hr⟩ := flagPart_cases q h.rd pos v c.pix f
  rw [hf]
  refine ⟨?_, copyDownLeft_ok hcap h.pix _ _ _⟩
  rcases hr with ⟨-, x, -, hd⟩ | ⟨-, hd⟩
  · exact hd.ok
  · exact hd.delivers.ok

theorem runPart_ok (q : Source) {cap pos : Nat} (hcap : Config.imgSize ≤ cap) (hpos : pos < Config.imgSize) (v : Pixel)
    {c : Canvas} (h : c.Ok cap) : (runPart q pos v c).All fun y => y.canvas.Ok cap := by
  have hlen := lcDecodeSat_ok q h.rd
  unfold runPart
  split
  next r hr => exact ⟨hlen.exhausted hr, h.pix⟩
  next len r hr => exact ⟨hlen.got hr, replicateRun_ok hcap h.pix hpos len v⟩

/-- A turn of DEC_B below the end of the image keeps the reader and PIX legal, wherever the stream ends in it
(43_decoder.md R195, R198 to R202). -/
theorem LoopB.turn_ok (q : Source) {cap : Nat} (hcap : Config.imgSize ≤ cap) {x : LoopB} (hpos : x.pos < Config.imgSize)
    (h : x.canvas.Ok cap) : (x.turn q).All fun y => y.canvas.Ok cap := by
  have hpixel := readBits_ok q h.rd 4
  unfold LoopB.turn
  split
  next r hr => exact ⟨hpixel.exhausted hr, h.pix⟩
  next v r hr =>
    have hflag := readBit_ok q (hpixel.got hr)
    have hpix : (x.canvas.pix.write x.pos (toPixel v)).Ok cap := h.pix.write (hpos.trans_le hcap)
    dsimp only
    split
    next r hr => exact ⟨hflag.exhausted hr, hpix⟩
    next f r hr =>
      have hcanvas : Canvas.Ok cap ⟨r, x.canvas.pix.write x.pos (toPixel v)⟩ := ⟨hflag.got hr, hpix⟩
      have hpart := flagPart_ok q hcap x.pos (toPixel v) f hcanvas
      split
      next c hc =>
        rw [hc] at hpart
        exact runPart_ok q hcap hpos _ hpart
      next e c _ hc =>
        rw [hc] at hpart
        exact hpart

theorem decodeBodyB_ok (q : Source) (limit : Nat) {cap : Nat} (hcap : Config.imgSize ≤ cap) {c : Canvas} (h : c.Ok cap) :
    (decodeBodyB q limit c).2.Ok cap := by
  have hdiscard := readBits_ok q h.rd 2
  unfold decodeBodyB
  split
  next r hr => exact ⟨hdiscard.exhausted hr, h.pix⟩
  next v r hr =>
    exact tickLoop_keeps (P := fun x : LoopB => x.canvas.Ok cap)
      (fun x hm hx => LoopB.turn_ok q hcap ((LoopB.more_iff x).1 hm) hx) limit
      (Canvas.Ok.mk (c := ⟨r, c.pix⟩) (hdiscard.got hr) h.pix)

theorem LoopEnc.turn_ok {cap : Nat} (hcap : cap < 2 ^ 32) (pix : Memory 4) {x : LoopEnc} (h : x.out.Ok cap) :
    (x.turn cap pix).All fun y => y.out.Ok cap := by
  have hrun := writeRun_ok hcap pix x.pos h
  unfold LoopEnc.turn
  split
  next o ho => exact hrun.overflow ho
  next o ho => exact hrun.done ho

theorem encodeBody_ok {cap : Nat} (hcap : cap < 2 ^ 32) (limit : Nat) (pix : Memory 4) {o : Output} (h : o.Ok cap) :
    (encodeBody cap limit pix o).2.Ok cap := by
  have hdiscard := writeBits_ok hcap 0 2 h
  unfold encodeBody
  split
  next o ho => exact hdiscard.overflow ho
  next o ho =>
    exact tickLoop_keeps (P := fun x : LoopEnc => x.out.Ok cap) (fun _ _ hx => LoopEnc.turn_ok hcap pix hx) limit (hdiscard.done ho)

end Sys2Proof.Machine
end

section
/-! SUPPORT. The legal states without their STATUS, and what keeps them: the end of a command, a host access and the parts of a
parse. -/

namespace Sys2Proof.Machine

/-- The invariant of `State.Inv` without STATUS: what holds between the steps and inside a command as well. -/
structure State.Sound (s : State) : Prop where
  legal : s.cfg.Legal
  srcLen : s.srcLen.toNat ≤ s.cfg.srcCap
  rd : s.rd.Ok
  wr : s.wr.Ok
  wrLen : s.wr.len.toNat ≤ s.cfg.dstCap
  warnCnt : s.warnCnt.toNat ≤ s.cfg.warnCap
  src : s.mem.src.Ok s.cfg.srcCap
  dst : s.mem.dst.Ok s.cfg.dstCap
  pix : s.mem.pix.Ok s.cfg.pixCap
  palram : s.mem.palram.Ok Config.palramSize
  palb : s.mem.palb.Ok Config.palbSize
  blinkTbl : s.mem.blinkTbl.Ok Config.tableSize
  talkTbl : s.mem.talkTbl.Ok Config.tableSize
  warnlog : s.mem.warnlog.Ok s.cfg.warnCap

/-- A legal state is a sound state with an idle STATUS. -/
theorem State.inv_iff (s : State) :
    s.Inv ↔ s.busy = false ∧ ¬(s.trunc = true ∧ s.err ≠ none) ∧ s.Sound := by
  constructor
  · rintro ⟨hlegal, hbusy, hstatus, hlen, hrd, hwr, hwl, hwc, hsrc, hdst, hpix, hpalram, hpalb, hblink, htalk, hlog⟩
    exact ⟨hbusy, hstatus, hlegal, hlen, hrd, hwr, hwl, hwc, hsrc, hdst, hpix, hpalram, hpalb, hblink, htalk, hlog⟩
  · rintro ⟨hbusy, hstatus, h⟩
    exact ⟨h.legal, hbusy, hstatus, h.srcLen, h.rd, h.wr, h.wrLen, h.warnCnt, h.src, h.dst, h.pix, h.palram, h.palb,
      h.blinkTbl, h.talkTbl, h.warnlog⟩

theorem State.Inv.sound {s : State} (h : s.Inv) : s.Sound := by
  obtain ⟨-, -, hsound⟩ := s.inv_iff.1 h
  exact hsound

theorem State.Sound.dstCap_lt {s : State} (h : s.Sound) : s.cfg.dstCap < 2 ^ 32 := by
  obtain ⟨-, ⟨-, hdst⟩, -⟩ := h.legal
  omega

theorem State.Sound.imgSize_le {s : State} (h : s.Sound) : Config.imgSize ≤ s.cfg.pixCap := by
  obtain ⟨-, -, ⟨hpix, -⟩, -⟩ := h.legal
  exact hpix

theorem State.Sound.output {s : State} (h : s.Sound) : s.output.Ok s.cfg.dstCap := ⟨h.wr, h.wrLen, h.dst⟩

/-! ## While a command runs -/

/-- The states a command's body goes through: sound, and no failure recorded yet (60_exceptions.md R274, R276). -/
structure State.Running (s : State) : Prop where
  sound : s.Sound
  err : s.err = none

theorem State.Sound.issue {s : State} (h : s.Sound) : s.issue.Running := ⟨{ h with }, rfl⟩

/-- Each of the three endings of R276 leaves a legal state. -/
theorem State.Running.finish {s : State} (h : s.Running) (e : Ending) : (s.finish e).Inv := by
  obtain ⟨hs, herr⟩ := h
  rw [State.inv_iff]
  cases e with
  | normal => exact ⟨rfl, fun ⟨_, hne⟩ => hne herr, { hs with }⟩
  | truncated => exact ⟨rfl, fun ⟨_, hne⟩ => hne herr, { hs with }⟩
  | raised e => exact ⟨rfl, fun ⟨htrunc, _⟩ => Bool.false_ne_true htrunc, { hs with }⟩

/-- A word that names no command leaves a legal state (60_exceptions.md R281). -/
theorem State.Sound.illegalCommand {s : State} (h : s.Sound) : s.illegalCommand.Inv :=
  h.issue.finish (.raised .illegalCommand)

theorem State.Running.setOutput {s : State} (h : s.Running) {o : Output} (ho : o.Ok s.cfg.dstCap) :
    (s.setOutput o).Running :=
  ⟨{ h.sound with wr := ho.wr, wrLen := ho.len, dst := ho.dst }, h.err⟩

theorem State.Running.setCanvas {s : State} (h : s.Running) {c : Canvas} (hc : c.Ok s.cfg.pixCap) :
    (s.setCanvas c).Running :=
  ⟨{ h.sound with rd := hc.rd, pix := hc.pix }, h.err⟩

theorem State.Running.endRead {s : State} (h : s.Running) {p : Read Nat} (hp : p.Ok) : (s.endRead p).2.Running := by
  cases p with
  | got v r => exact ⟨{ h.sound with rd := hp }, h.err⟩
  | exhausted r => exact ⟨{ h.sound with rd := hp }, h.err⟩

theorem State.Running.endWrite {s : State} (h : s.Running) {p : Write} (hp : p.Ok s.cfg.dstCap) :
    (s.endWrite p).2.Running := by
  cases p with
  | done o => exact h.setOutput hp
  | overflow o => exact h.setOutput hp

/-- The final Flush of ENC_B, or the end of a body that stopped before it (44_encoder.md R226). -/
theorem State.Running.endEncode {s : State} (h : s.Running) {out : Ending × Output} (ho : out.2.Ok s.cfg.dstCap) :
    (s.endEncode out).2.Running := by
  obtain ⟨e, o⟩ := out
  cases e with
  | normal =>
    have hflush := flush_ok h.sound.dstCap_lt ho
    rcases hw : flush s.cfg.dstCap o with o' | o' <;> rw [hw] at hflush <;> simp only [State.endEncode, hw]
    · have hout := h.setOutput hflush
      exact ⟨{ hout.sound with }, hout.err⟩
    · exact h.setOutput hflush
  | truncated => exact h.setOutput ho
  | raised e => exact h.setOutput ho

/-- A command that fills DST from byte 0 with whole bytes (42_palette.md R164, 45_container.md R256). -/
theorem State.Running.writeWhole {s : State} (h : s.Running) {bytes : List Byte} {len : Nat} (result : Word)
    (hlen : bytes.length = len) (hcap : len ≤ s.cfg.dstCap) :
    ({ s with mem := { s.mem with dst := s.mem.dst.writeList 0 bytes }, wr := Writer.whole len, result := result } :
      State).Running := by
  have hdst : (s.mem.dst.writeList 0 bytes).Ok s.cfg.dstCap := h.sound.dst.writeList (by omega)
  have hwhole : (Writer.whole len).len.toNat ≤ s.cfg.dstCap := (Nat.mod_le len _).trans hcap
  exact ⟨{ h.sound with wr := Nat.one_pos, wrLen := hwhole, dst := hdst }, h.err⟩

/-! ## The parts of a parse (45_container.md R241 to R250) -/

theorem State.Running.warn {s : State} (h : s.Running) (c : Warning) (off : Nat) : (s.warn c off).Running := by
  unfold State.warn
  split
  next hroom =>
    have hcnt : (s.warnCnt + 1#8).toNat ≤ s.cfg.warnCap := by
      rw [BitVec.toNat_add]
      exact (Nat.mod_le _ _).trans hroom
    exact ⟨{ h.sound with warnCnt := hcnt, warnlog := h.sound.warnlog.write hroom }, h.err⟩
  next => exact ⟨{ h.sound with }, h.err⟩

theorem State.Running.warnIf {s : State} (h : s.Running) (p : Bool) (c : Warning) (off : Nat) :
    (s.warnIf p c off).Running := by
  cases p with
  | false => exact h
  | true => exact h.warn c off

theorem State.Running.clearWarnings {s : State} (h : s.Running) : s.clearWarnings.Running :=
  ⟨{ h.sound with warnCnt := Nat.zero_le _ }, h.err⟩

theorem State.Running.setTable {s : State} (h : s.Running) (t : FrameTable) {bs : List Byte} (n : Nat)
    (hbs : bs.length ≤ Config.tableSize) : (s.setTable t bs n).Running := by
  cases t with
  | blink => exact ⟨{ h.sound with blinkTbl := h.sound.blinkTbl.writeList (by omega) }, h.err⟩
  | talk => exact ⟨{ h.sound with talkTbl := h.sound.talkTbl.writeList (by omega) }, h.err⟩

theorem State.Running.parseTable {s : State} (h : s.Running) (t : FrameTable) (off : Nat) :
    (s.parseTable t off).Running := by
  have hstored := s.stored_le off
  refine ((h.warnIf _ _ _).setTable t _ ?_).warnIf _ _ _
  rw [Memory.length_readList, Config.tableSize]
  omega

theorem State.Running.parsePalette {s : State} (h : s.Running) (off : Nat) : (s.parsePalette off).Running := by
  have hbytes : 0 + (s.paletteBytes off).length ≤ Config.palbSize := by simp [Config.palbSize]
  have hstore : ({ s with mem := { s.mem with palb := s.mem.palb.writeList 0 (s.paletteBytes off) } } : State).Running :=
    ⟨{ h.sound with palb := h.sound.palb.writeList hbytes }, h.err⟩
  exact hstore.warnIf _ _ _

theorem State.Running.parseMarker {s : State} (h : s.Running) (off : Nat) : (s.parseMarker off).Running := by
  have hstore : ({ s with graphicOff := toWord off, marker := s.markerAt off } : State).Running := ⟨{ h.sound with }, h.err⟩
  unfold State.parseMarker
  dsimp only
  split
  · exact hstore.warn _ _
  · exact hstore.warnIf _ _ _

theorem State.Running.parseRest {s : State} (h : s.Running) (talk : Nat) : (s.parseRest talk).Running := by
  have hparts := ((h.parseTable .talk talk).parsePalette (s.nextBlock talk)).parseMarker
    (s.nextBlock talk + Config.palbSize)
  exact ⟨{ hparts.sound with }, hparts.err⟩

/-- PARSE keeps a running state sound, with both headers present or truncated at either (R243, R251). -/
theorem State.Running.parseBody {s : State} (h : s.Running) : s.parseBody.2.Running := by
  unfold State.parseBody
  dsimp only
  split
  · have hblink := h.clearWarnings.parseTable .blink 0
    split
    · exact hblink.parseRest _
    · exact hblink
  · exact h.clearWarnings

/-! ## The platform and the host -/

/-- The state after a reset with legal parameters is legal, whatever the memories are drawn as (10_state.md R49, R50). -/
theorem State.afterReset_inv {c : Config} (hc : c.Legal) (d : Draw) : (State.afterReset c d).Inv :=
  ⟨hc, rfl, fun ⟨_, hne⟩ => hne rfl, Nat.zero_le _, Reader.ok_init 0#32, Nat.one_pos, Nat.zero_le _, Nat.zero_le _,
    Memory.ok_ofList _ _, Memory.ok_ofList _ _, Memory.ok_ofList _ _, Memory.ok_ofList _ _,
    Memory.ok_ofList _ _, Memory.ok_ofList _ _, Memory.ok_ofList _ _, Memory.ok_ofList _ _⟩

/-- A host write of a register keeps a sound state sound: SRC_LEN is capped at SRC_CAP (R28). -/
theorem State.Sound.writeReg {s : State} (h : s.Sound) (r : RegName) (v : Word) : (s.writeReg r v).Sound := by
  cases r
  case srcLen =>
    have hlen : (toWord (min v.toNat s.cfg.srcCap)).toNat ≤ s.cfg.srcCap :=
      (Nat.mod_le _ _).trans (Nat.min_le_right _ _)
    exact { h with srcLen := hlen }
  all_goals exact { h with }

/-- A host write keeps a sound state sound: what it reaches lies inside its window (20_memory.md R66). -/
theorem State.Sound.writeTarget {s : State} (h : s.Sound) {t : Target} (ht : t.within s.cfg) (v : Word) :
    (s.writeTarget t v).Sound := by
  cases t with
  | reg r => exact h.writeReg r v
  | palram i => exact { h with palram := h.palram.write ht }
  | palb i => exact { h with palb := h.palb.write ht }
  | warnlog i => exact h
  | blinkTbl i => exact { h with blinkTbl := h.blinkTbl.write ht }
  | talkTbl i => exact { h with talkTbl := h.talkTbl.write ht }
  | pix i => exact { h with pix := h.pix.write ht }
  | src i => exact { h with src := h.src.write ht }
  | dst i => exact { h with dst := h.dst.write ht }

/-- No host write stores into STATUS (10_state.md R22). -/
theorem State.writeTarget_status (s : State) (t : Target) (v : Word) :
    (s.writeTarget t v).busy = s.busy ∧ (s.writeTarget t v).trunc = s.trunc ∧ (s.writeTarget t v).err = s.err := by
  cases t with
  | reg r => cases r <;> exact ⟨rfl, rfl, rfl⟩
  | _ => exact ⟨rfl, rfl, rfl⟩

theorem State.Inv.writeTarget {s : State} (h : s.Inv) {t : Target} (ht : t.within s.cfg) (v : Word) :
    (s.writeTarget t v).Inv := by
  obtain ⟨hbusy, hstatus, hsound⟩ := s.inv_iff.1 h
  obtain ⟨ebusy, etrunc, eerr⟩ := s.writeTarget_status t v
  rw [State.inv_iff, ebusy, etrunc, eerr]
  exact ⟨hbusy, hstatus, hsound.writeTarget ht v⟩

/-- The state an action leaves, or issues its command word in, is legal; a refused action leaves none. -/
def HostEffect.Inv : HostEffect → Prop
  | .done s => s.Inv
  | .refuse _ => True
  | .command _ s => s.Inv

theorem State.Inv.hostRead {s : State} (h : s.Inv) (addr size : Nat) : (s.hostRead addr size).Inv := by
  unfold State.hostRead
  split
  · trivial
  split
  · trivial
  · exact h

theorem State.Inv.hostWrite {s : State} (h : s.Inv) (addr size : Nat) (x : HostValue) :
    (s.hostWrite addr size x).Inv := by
  unfold State.hostWrite
  split
  next => trivial
  next t ht =>
    split
    · trivial
    split
    · trivial
    split
    · exact h
    · exact h.writeTarget (locate_within ht) _

theorem State.Inv.hostAction {s : State} (h : s.Inv) (a : HostAction) : (s.hostAction a).Inv := by
  cases a with
  | read addr size => exact h.hostRead addr size
  | write addr size x => exact h.hostWrite addr size x
  | reset d => exact State.afterReset_inv h.sound.legal d

theorem State.Inv.fetch {s : State} (h : s.Inv) : s.fetch.Inv := by
  unfold State.fetch
  split
  · exact h
  next a rest _ =>
    have hs : ({ s with program := rest } : State).Inv := h
    exact hs.hostAction a

end Sys2Proof.Machine
end

section
/-! SUPPORT. Every command leaves a legal state, one lemma a command. -/

namespace Sys2Proof.Machine

/-- A command whose body keeps the running states leaves a legal state. -/
theorem State.Sound.run {s t : State} (h : s.Sound) {body : State → Ending × State} (ht : s.run body = .next t)
    (hbody : ∀ u : State, u.Running → (body u).2.Running) : t.Inv := by
  obtain ⟨e, u, hu, rfl⟩ := State.run_next ht
  have hrun := hbody _ h.issue
  rw [hu] at hrun
  exact hrun.finish e

section
variable {s t : State}

theorem execRdStart_inv (hs : s.Sound) (ht : execRdStart s = .next t) : t.Inv :=
  hs.run ht fun _ h => ⟨{ h.sound with rd := Reader.ok_init _ }, h.err⟩

theorem execRdBit_inv (hs : s.Sound) (ht : execRdBit s = .next t) : t.Inv :=
  hs.run ht fun _ h => h.endRead ((readBit_ok _ h.sound.rd).andThen fun _ _ hr => hr)

theorem execRdBits_inv (n : BitVec 8) (hs : s.Sound) (ht : execRdBits n s = .next t) : t.Inv := by
  refine hs.run ht fun u h => ?_
  split
  · exact h
  · exact h.endRead (readBits_ok _ h.sound.rd _)

theorem execWrStart_inv (hs : s.Sound) (ht : execWrStart s = .next t) : t.Inv :=
  hs.run ht fun _ h => h.setOutput h.sound.output.init

theorem execWrBits_inv (n : BitVec 8) (hs : s.Sound) (ht : execWrBits n s = .next t) : t.Inv := by
  refine hs.run ht fun u h => ?_
  split
  · exact h
  · exact h.endWrite (writeBits_ok h.sound.dstCap_lt _ _ h.sound.output)

theorem execWrFlush_inv (hs : s.Sound) (ht : execWrFlush s = .next t) : t.Inv :=
  hs.run ht fun _ h => h.endWrite (flush_ok h.sound.dstCap_lt h.sound.output)

theorem execLcDec_inv (hs : s.Sound) (ht : execLcDec s = .next t) : t.Inv :=
  hs.run ht fun _ h => h.endRead (lcDecodeSat_ok _ h.sound.rd)

theorem execLcEnc_inv (hs : s.Sound) (ht : execLcEnc s = .next t) : t.Inv :=
  hs.run ht fun _ h => h.endWrite (lcEncode_ok h.sound.dstCap_lt _ h.sound.output)

/-- A palette decode stores the 16 entries of PALRAM (42_palette.md R159, R160). -/
theorem State.Running.decodePalette {s : State} (h : s.Running) (dec : Byte → Byte → Nat → Word) :
    (s.decodePalette dec).Running :=
  ⟨{ h.sound with palram := h.sound.palram.writeList (by simp) }, h.err⟩

theorem execPalDecA_inv (hs : s.Sound) (ht : execPalDecA s = .next t) : t.Inv :=
  hs.run ht fun _ h => h.decodePalette decodeEntryA

theorem execPalDecB_inv (hs : s.Sound) (ht : execPalDecB s = .next t) : t.Inv :=
  hs.run ht fun _ h => h.decodePalette decodeEntryB

/-- A palette encode of two bytes an entry stores the 32 bytes of PALB (R161, R162). -/
theorem State.Running.encodePalette {s : State} (h : s.Running) {enc : Word → List Byte}
    (henc : ∀ e, (enc e).length = 2) : (s.encodePalette enc).Running := by
  refine ⟨{ h.sound with palb := h.sound.palb.writeList ?_ }, h.err⟩
  simp [List.length_flatMap, henc, Config.palramSize, Config.palbSize]

theorem execPalEncA_inv (hs : s.Sound) (ht : execPalEncA s = .next t) : t.Inv :=
  hs.run ht fun _ h => h.encodePalette fun _ => rfl

theorem execPalEncB_inv (hs : s.Sound) (ht : execPalEncB s = .next t) : t.Inv :=
  hs.run ht fun _ h => h.encodePalette fun _ => rfl

theorem State.length_renderBytes (s : State) (size : Nat) : (s.renderBytes size).length = 4 * size := by
  simp [State.renderBytes, channels, List.length_flatMap, Nat.mul_comm]

theorem execRender_inv (hs : s.Sound) (ht : execRender s = .next t) : t.Inv := by
  refine hs.run ht fun u h => ?_
  dsimp only
  split
  · exact h
  split
  · exact h
  next hroom => exact h.writeWhole _ (u.length_renderBytes _) (not_lt.1 hroom)

/-- DEC_A: the header cut, the image too large for PIX, or the main loop within `size ≤ PIX_CAP` (43_decoder.md R184 to
R186). -/
theorem execDecA_inv (hs : s.Sound) (ht : execDecA s = .next t) : t.Inv := by
  refine hs.run ht fun u h => ?_
  have hheader := readHeader_ok u.source (Reader.ok_init u.argOffset)
  dsimp only
  split
  next r hr => exact ⟨{ h.sound with rd := hheader.exhausted hr }, h.err⟩
  next wu hu r hr =>
    split
    · exact ⟨{ h.sound with rd := hheader.got hr }, h.err⟩
    next hroom =>
      have hsize := not_lt.1 hroom
      have hcanvas : Canvas.Ok u.cfg.pixCap ⟨r, u.mem.pix.clear (8 * wu * (8 * hu))⟩ :=
        ⟨hheader.got hr, h.sound.pix.clear hsize⟩
      have hloop := h.setCanvas (decodeBodyA_ok u.source (tickLimit u.cfg (8 * wu * (8 * hu))) (8 * wu) hsize hcanvas)
      exact ⟨{ hloop.sound with }, hloop.err⟩

theorem execDecB_inv (hs : s.Sound) (ht : execDecB s = .next t) : t.Inv := by
  refine hs.run ht fun u h => ?_
  have hcap := h.sound.imgSize_le
  have hcanvas : Canvas.Ok u.cfg.pixCap ⟨Reader.init u.argOffset, u.mem.pix.clear Config.imgSize⟩ :=
    ⟨Reader.ok_init _, h.sound.pix.clear hcap⟩
  have hloop := h.setCanvas (decodeBodyB_ok u.source (tickLimit u.cfg Config.imgSize) hcap hcanvas)
  exact ⟨{ hloop.sound with }, hloop.err⟩

theorem execEncB_inv (hs : s.Sound) (ht : execEncB s = .next t) : t.Inv := by
  refine hs.run ht fun u h => ?_
  split
  · exact h
  · exact h.endEncode (encodeBody_ok h.sound.dstCap_lt _ _ h.sound.output.init)

theorem execParse_inv (hs : s.Sound) (ht : execParse s = .next t) : t.Inv :=
  hs.run ht fun _ h => h.parseBody

/-- The rebuilt container has the length SERIALIZE checks against DST_CAP (45_container.md R256). -/
theorem State.length_containerBytes (s : State) : s.containerBytes.length = s.newGraphicOff + s.trailing := by
  simp [State.containerBytes, State.newGraphicOff, frameBlock, Config.palbSize]
  omega

theorem execSerialize_inv (hs : s.Sound) (ht : execSerialize s = .next t) : t.Inv := by
  refine hs.run ht fun u h => ?_
  dsimp only
  split
  · exact h
  next hroom => exact h.writeWhole _ u.length_containerBytes (not_lt.1 hroom)

/-- Every command leaves a legal state from every sound one. -/
theorem exec_inv (i : Instr) (hs : s.Sound) (ht : exec i s = .next t) : t.Inv := by
  cases i with
  | rdStart => exact execRdStart_inv hs ht
  | rdBit => exact execRdBit_inv hs ht
  | rdBits n => exact execRdBits_inv n hs ht
  | wrStart => exact execWrStart_inv hs ht
  | wrBits n => exact execWrBits_inv n hs ht
  | wrFlush => exact execWrFlush_inv hs ht
  | lcDec => exact execLcDec_inv hs ht
  | lcEnc => exact execLcEnc_inv hs ht
  | palDecA => exact execPalDecA_inv hs ht
  | palDecB => exact execPalDecB_inv hs ht
  | palEncA => exact execPalEncA_inv hs ht
  | palEncB => exact execPalEncB_inv hs ht
  | render => exact execRender_inv hs ht
  | decA => exact execDecA_inv hs ht
  | decB => exact execDecB_inv hs ht
  | encB => exact execEncB_inv hs ht
  | parse => exact execParse_inv hs ht
  | serialize => exact execSerialize_inv hs ht

end

/-- Settles O14: the host's action keeps a legal state, and so does the command it issues or the illegal word it writes. -/
theorem everyStepKeepsInvariant : Obligations.EveryStepKeepsInvariant := by
  unfold Obligations.EveryStepKeepsInvariant
  intro s t hs ht
  have hfetch := hs.fetch
  rcases hf : s.fetch with u | r | ⟨w, u⟩ <;> rw [hf] at hfetch
  · rw [step_done hf] at ht
    exact Host.Outcome.next.inj ht ▸ hfetch
  · rw [step_refuse hf] at ht
    cases ht
  · have hsound := hfetch.sound
    rcases hd : decode w with e | i
    · rw [step_illegal hf hd] at ht
      exact Host.Outcome.next.inj ht ▸ hsound.illegalCommand
    · rw [step_command hf hd] at ht
      exact exec_inv i hsound ht

end Sys2Proof.Machine
end

section
/-! SUPPORT. What a command leaves alone (the owners of 10_state.md R22): which fields a body changes, by the parts of the state
it writes. -/

namespace Sys2Proof.Machine

/-! ## The parts of a parse -/

/-- The state with everything that PARSE owns but RESULT forgotten (10_state.md R22, 45_container.md R243). -/
def State.unparsed (s : State) : State :=
  { s with graphicOff := 0#32, blinkN := 0#8, talkN := 0#8, marker := 0#16, warnCnt := 0#8, warnOvf := false,
           mem := { s.mem with palb := [], blinkTbl := [], talkTbl := [], warnlog := [] } }

@[simp] theorem State.unparsed_warn (s : State) (c : Warning) (off : Nat) : (s.warn c off).unparsed = s.unparsed := by
  unfold State.warn
  split <;> rfl

@[simp] theorem State.unparsed_warnIf (s : State) (p : Bool) (c : Warning) (off : Nat) :
    (s.warnIf p c off).unparsed = s.unparsed := by
  cases p with
  | false => rfl
  | true => exact s.unparsed_warn c off

@[simp] theorem State.unparsed_clearWarnings (s : State) : s.clearWarnings.unparsed = s.unparsed := rfl

@[simp] theorem State.unparsed_setTable (s : State) (t : FrameTable) (bs : List Byte) (n : Nat) :
    (s.setTable t bs n).unparsed = s.unparsed := by
  cases t <;> rfl

@[simp] theorem State.unparsed_parseTable (s : State) (t : FrameTable) (off : Nat) :
    (s.parseTable t off).unparsed = s.unparsed := by
  simp only [State.parseTable, State.unparsed_warnIf, State.unparsed_setTable]

@[simp] theorem State.unparsed_parsePalette (s : State) (off : Nat) : (s.parsePalette off).unparsed = s.unparsed :=
  State.unparsed_warnIf _ _ _ _

@[simp] theorem State.unparsed_parseMarker (s : State) (off : Nat) : (s.parseMarker off).unparsed = s.unparsed := by
  unfold State.parseMarker
  dsimp only
  split
  · exact State.unparsed_warn _ _ _
  · exact State.unparsed_warnIf _ _ _ _

theorem State.unparsed_parseRest (s : State) (talk : Nat) :
    (s.parseRest talk).unparsed = { s.unparsed with result := (s.parseRest talk).result } := by
  have hparts : (((s.parseTable .talk talk).parsePalette (s.nextBlock talk)).parseMarker
      (s.nextBlock talk + Config.palbSize)).unparsed = s.unparsed := by simp
  exact congrArg (fun u : State => { u with result := (s.parseRest talk).result }) hparts

/-- A parse changes only what PARSE owns, and RESULT only if it ends normally (R243, R251). -/
theorem State.unparsed_parseBody (s : State) :
    s.parseBody.2.unparsed = { s.unparsed with result := s.parseBody.2.result } ∧
    (s.parseBody.1 = .normal ∨ s.parseBody.2.result = s.result) := by
  have hcut : ∀ {u : State} {e : Ending}, u.unparsed = s.unparsed →
      (e, u).2.unparsed = { s.unparsed with result := (e, u).2.result } ∧
      ((e, u).1 = .normal ∨ (e, u).2.result = s.result) := by
    intro u e h
    have hresult : u.unparsed.result = s.unparsed.result := by rw [h]
    exact ⟨h.trans (congrArg (fun v => { s.unparsed with result := v }) hresult.symm), .inr hresult⟩
  unfold State.parseBody
  dsimp only
  split
  · split
    · refine ⟨?_, .inl rfl⟩
      simpa using State.unparsed_parseRest (s.clearWarnings.parseTable .blink 0) (s.clearWarnings.nextBlock 0)
    · exact hcut (by simp)
  · exact hcut s.unparsed_clearWarnings

/-! ## The owners of the state -/

/-- What the body of command `i`, run on `s` and answering `out`, leaves alone: RESULT where the body raises or `i` never
writes it (10_state.md R27, 60_exceptions.md R274), and every part of the state that `i` does not own (R22, R38 to R44). -/
structure Leaves (i : Instr) (s : State) (out : Ending × State) : Prop where
  err : out.2.err = s.err
  result : i.writesResult = false ∨ (∃ e, out.1 = .raised e) → out.2.result = s.result
  cfg : out.2.cfg = s.cfg
  arg : out.2.arg = s.arg
  srcLen : out.2.srcLen = s.srcLen
  src : out.2.mem.src = s.mem.src
  program : out.2.program = s.program
  replies : out.2.replies = s.replies
  reader : i.usesReader = false → out.2.rd = s.rd
  writer : i.usesWriter = false → out.2.wr = s.wr ∧ out.2.mem.dst = s.mem.dst
  image : i ≠ .decA → i ≠ .decB → out.2.imgW = s.imgW ∧ out.2.imgH = s.imgH ∧ out.2.mem.pix = s.mem.pix
  parsed : i ≠ .parse → out.2.graphicOff = s.graphicOff ∧ out.2.blinkN = s.blinkN ∧ out.2.talkN = s.talkN ∧
    out.2.marker = s.marker ∧ out.2.warnCnt = s.warnCnt ∧ out.2.warnOvf = s.warnOvf ∧
    out.2.mem.blinkTbl = s.mem.blinkTbl ∧ out.2.mem.talkTbl = s.mem.talkTbl ∧ out.2.mem.warnlog = s.mem.warnlog
  palram : i ≠ .palDecA → i ≠ .palDecB → out.2.mem.palram = s.mem.palram
  palb : i ≠ .palEncA → i ≠ .palEncB → i ≠ .parse → out.2.mem.palb = s.mem.palb

namespace Leaves

variable {i : Instr} {s : State} {e : Ending}

/-- A command that fails before any effect. -/
theorem unchanged : Leaves i s (e, s) where
  err := rfl
  result _ := rfl
  cfg := rfl
  arg := rfl
  srcLen := rfl
  src := rfl
  program := rfl
  replies := rfl
  reader _ := rfl
  writer _ := ⟨rfl, rfl⟩
  image _ _ := ⟨rfl, rfl, rfl⟩
  parsed _ := ⟨rfl, rfl, rfl, rfl, rfl, rfl, rfl, rfl, rfl⟩
  palram _ _ := rfl
  palb _ _ _ := rfl

/-- A reading command changes the reader. -/
theorem setReader (hi : i.usesReader = true) (r : Reader) : Leaves i s (e, { s with rd := r }) :=
  { unchanged (i := i) (s := s) (e := e) with reader := fun h => absurd (hi.symm.trans h) Bool.noConfusion }

/-- A writing command changes DST and the writer. -/
theorem setOutput (hi : i.usesWriter = true) (o : Output) : Leaves i s (e, s.setOutput o) :=
  { unchanged (i := i) (s := s) (e := e) with writer := fun h => absurd (hi.symm.trans h) Bool.noConfusion }

/-- A command that writes RESULT does so when it does not raise. -/
theorem setResult {u : State} (hi : i.writesResult = true) (he : ∀ f, e ≠ .raised f) (h : Leaves i s (e, u)) (v : Word) :
    Leaves i s (e, { u with result := v }) := by
  refine { h with result := ?_ }
  rintro (hno | ⟨f, hf⟩)
  · exact absurd (hi.symm.trans hno) Bool.noConfusion
  · exact absurd hf (he f)

/-- The decoders change the reader and PIX, and set IMG_W and IMG_H. -/
theorem setCanvas (hi : i = .decA ∨ i = .decB) (c : Canvas) (w h : BitVec 16) :
    Leaves i s (e, { s.setCanvas c with imgW := w, imgH := h }) := by
  have hreader : i.usesReader = true := by rcases hi with rfl | rfl <;> rfl
  refine { setReader (s := s) (e := e) hreader c.rd with image := fun hA hB => ?_ }
  exact absurd hi (not_or.2 ⟨hA, hB⟩)

/-- The palette decoders change PALRAM. -/
theorem decodePalette (hi : i = .palDecA ∨ i = .palDecB) (dec : Byte → Byte → Nat → Word) :
    Leaves i s (e, s.decodePalette dec) :=
  { unchanged (i := i) (s := s) (e := e) with palram := fun hA hB => absurd hi (not_or.2 ⟨hA, hB⟩) }

/-- The palette encoders change PALB. -/
theorem encodePalette (hi : i = .palEncA ∨ i = .palEncB) (enc : Word → List Byte) :
    Leaves i s (e, s.encodePalette enc) :=
  { unchanged (i := i) (s := s) (e := e) with palb := fun hA hB _ => absurd hi (not_or.2 ⟨hA, hB⟩) }

theorem endRead (hr : i.usesReader = true) (hw : i.writesResult = true) (p : Read Nat) : Leaves i s (s.endRead p) := by
  cases p with
  | got v r => exact (setReader hr r).setResult hw (fun _ => Ending.noConfusion) _
  | exhausted r => exact (setReader hr r).setResult hw (fun _ => Ending.noConfusion) _

theorem endWrite (hi : i.usesWriter = true) (p : Write) : Leaves i s (s.endWrite p) := by
  cases p with
  | done o => exact setOutput hi o
  | overflow o => exact setOutput hi o

/-- ENC_B writes RESULT after its final Flush only (44_encoder.md R226). -/
theorem endEncode (out : Ending × Output) : Leaves .encB s (s.endEncode out) := by
  obtain ⟨e, o⟩ := out
  cases e with
  | normal =>
    rcases hw : flush s.cfg.dstCap o with o' | o' <;> simp only [State.endEncode, hw]
    · exact (setOutput rfl o').setResult rfl (fun _ => Ending.noConfusion) _
    · exact setOutput rfl o'
  | truncated => exact setOutput rfl o
  | raised f => exact setOutput rfl o

/-- RENDER and SERIALIZE store a block of DST, and set the writer and RESULT (42_palette.md R164, 45_container.md R256). -/
theorem writeWhole (hi : i.usesWriter = true) (hw : i.writesResult = true) (bytes : List Byte) (len : Nat) (v : Word) :
    Leaves i s (.normal, { s with mem := { s.mem with dst := s.mem.dst.writeList 0 bytes }, wr := Writer.whole len,
                                  result := v }) :=
  (setOutput hi ⟨s.mem.dst.writeList 0 bytes, Writer.whole len⟩).setResult hw (fun _ => Ending.noConfusion) v

theorem parseBody : Leaves .parse s s.parseBody := by
  obtain ⟨hkept, hresult⟩ := s.unparsed_parseBody
  have kept {β : Type} (f : State → β) :
      f s.parseBody.2.unparsed = f { s.unparsed with result := s.parseBody.2.result } := by rw [hkept]
  exact {
    err := kept State.err
    result := by
      rintro (hno | ⟨f, hf⟩)
      · cases hno
      · exact hresult.resolve_left (hf ▸ Ending.noConfusion)
    cfg := kept State.cfg
    arg := kept State.arg
    srcLen := kept State.srcLen
    src := kept fun u => u.mem.src
    program := kept State.program
    replies := kept State.replies
    reader := fun _ => kept State.rd
    writer := fun _ => ⟨kept State.wr, kept fun u => u.mem.dst⟩
    image := fun _ _ => ⟨kept State.imgW, kept State.imgH, kept fun u => u.mem.pix⟩
    parsed := fun hne => absurd rfl hne
    palram := fun _ _ => kept fun u => u.mem.palram
    palb := fun _ _ hne => absurd rfl hne }

end Leaves

/-! ## Every command -/

/-- A command is its body on the state after its issue, completed by the way the body ended (R276). -/
theorem leaves_of_run {i : Instr} {s t : State} {body : State → Ending × State} (ht : s.run body = .next t)
    (hbody : ∀ u, Leaves i u (body u)) : ∃ e u, Leaves i s.issue (e, u) ∧ t = u.finish e := by
  obtain ⟨e, u, hu, rfl⟩ := State.run_next ht
  exact ⟨e, u, hu ▸ hbody s.issue, rfl⟩

/-- DEC_A changes nothing but its reader before the image is known to fit PIX (43_decoder.md R184 to R186). -/
theorem execDecA_leaves {s t : State} (ht : execDecA s = .next t) :
    ∃ e u, Leaves .decA s.issue (e, u) ∧ t = u.finish e := by
  refine leaves_of_run ht fun u => ?_
  dsimp only
  split
  next r _ => exact .setCanvas (s := u) (.inl rfl) ⟨r, u.mem.pix⟩ 0#16 0#16
  · split
    · exact .setReader rfl _
    · exact .setCanvas (.inl rfl) _ _ _

/-- Every command leaves alone what it does not own. -/
theorem exec_leaves (i : Instr) {s t : State} (ht : exec i s = .next t) :
    ∃ e u, Leaves i s.issue (e, u) ∧ t = u.finish e := by
  unfold exec at ht
  cases i with
  | rdStart => exact leaves_of_run ht fun u => .setReader rfl _
  | rdBit => exact leaves_of_run ht fun u => .endRead rfl rfl _
  | rdBits n =>
    refine leaves_of_run ht fun u => ?_
    split
    · exact .unchanged
    · exact .endRead rfl rfl _
  | wrStart => exact leaves_of_run ht fun u => .setOutput rfl _
  | wrBits n =>
    refine leaves_of_run ht fun u => ?_
    split
    · exact .unchanged
    · exact .endWrite rfl _
  | wrFlush => exact leaves_of_run ht fun u => .endWrite rfl _
  | lcDec => exact leaves_of_run ht fun u => .endRead rfl rfl _
  | lcEnc => exact leaves_of_run ht fun u => .endWrite rfl _
  | palDecA => exact leaves_of_run ht fun u => .decodePalette (.inl rfl) _
  | palDecB => exact leaves_of_run ht fun u => .decodePalette (.inr rfl) _
  | palEncA => exact leaves_of_run ht fun u => .encodePalette (.inl rfl) _
  | palEncB => exact leaves_of_run ht fun u => .encodePalette (.inr rfl) _
  | render =>
    refine leaves_of_run ht fun u => ?_
    dsimp only
    split
    · exact .unchanged
    · split
      · exact .unchanged
      · exact .writeWhole rfl rfl _ _ _
  | decA => exact execDecA_leaves ht
  | decB => exact leaves_of_run ht fun u => .setCanvas (.inr rfl) _ _ _
  | encB =>
    refine leaves_of_run ht fun u => ?_
    split
    · exact .unchanged
    · exact .endEncode _
  | parse => exact leaves_of_run ht fun u => .parseBody
  | serialize =>
    refine leaves_of_run ht fun u => ?_
    dsimp only
    split
    · exact .unchanged
    · exact .writeWhole rfl rfl _ _ _

/-- Completion changes STATUS only (R24, 60_exceptions.md R276). -/
theorem State.finish_eq (s : State) (e : Ending) :
    ∃ trunc err, s.finish e = { s with busy := false, trunc := trunc, err := err } := by
  cases e with
  | normal => exact ⟨s.trunc, s.err, rfl⟩
  | truncated => exact ⟨true, s.err, rfl⟩
  | raised f => exact ⟨false, some f, rfl⟩

/-- Only a body that raises leaves a failure in STATUS.ERR (R276). -/
theorem State.finish_err {s : State} {e : Ending} (hs : s.err = none) (h : (s.finish e).err ≠ none) :
    ∃ f, e = .raised f := by
  cases e with
  | normal => exact absurd hs h
  | truncated => exact absurd hs h
  | raised f => exact ⟨f, rfl⟩

/-- Settles O11: the body leaves alone what the command does not own, and completion changes STATUS only. -/
theorem commandsChangeOnlyTheirState : Obligations.CommandsChangeOnlyTheirState := by
  unfold Obligations.CommandsChangeOnlyTheirState
  intro i s t ht
  obtain ⟨e, u, hu, rfl⟩ := exec_leaves i ht
  obtain ⟨trunc, err, hfinish⟩ := u.finish_eq e
  rw [hfinish]
  exact ⟨hu.cfg, hu.arg, hu.srcLen, hu.src, hu.program, hu.replies, hu.reader, hu.writer, hu.image, hu.parsed, hu.palram,
    hu.palb⟩

/-- Settles O10: a failure in STATUS.ERR is the body's own, since the issue clears ERR. -/
theorem resultWrittenOnlyAsStated : Obligations.ResultWrittenOnlyAsStated := by
  unfold Obligations.ResultWrittenOnlyAsStated
  intro i s t ht hkept
  obtain ⟨e, u, hu, rfl⟩ := exec_leaves i ht
  have hresult : u.result = s.result := hu.result (hkept.imp_right (State.finish_err hu.err))
  obtain ⟨trunc, err, hfinish⟩ := u.finish_eq e
  rw [hfinish]
  exact hresult

end Sys2Proof.Machine
end

section
/-! SUPPORT. Commands on states with other contents of SRC and DST: below SRC_LEN alone does SRC matter (10_state.md R38), and no
command reads DST (R39, 20_memory.md R65). -/

namespace Sys2Proof.Machine

/-- A command whose body does the same on another state, up to a change of state that completion respects, does the same on
it. -/
theorem State.run_image {s s' t : State} {body : State → Ending × State} {f : State → State}
    (hbody : body s'.issue = ((body s.issue).1, f (body s.issue).2)) (hf : ∀ u e, (f u).finish e = f (u.finish e))
    (ht : s.run body = .next t) : s'.run body = .next (f t) := by
  obtain ⟨e, u, hu, rfl⟩ := State.run_next ht
  rw [State.run_eq, hbody, hu, hf]

/-! ## Other contents -/

/-- The state with other contents of SRC and DST. -/
def State.withBuffers (s : State) (src dst : Memory 8) : State := { s with mem := { s.mem with src := src, dst := dst } }

/-- The state with other contents of SRC. -/
def State.withSrc (s : State) (src : Memory 8) : State := { s with mem := { s.mem with src := src } }

/-- The state with other contents of DST. -/
def State.withDst (s : State) (dst : Memory 8) : State := { s with mem := { s.mem with dst := dst } }

theorem State.withBuffers_finish (s : State) (src dst : Memory 8) (e : Ending) :
    (s.withBuffers src dst).finish e = (s.finish e).withBuffers src dst := by
  cases e <;> rfl

theorem State.withSrc_finish (s : State) (src : Memory 8) (e : Ending) :
    (s.withSrc src).finish e = (s.finish e).withSrc src := by
  cases e <;> rfl

/-- The memory holds what SRC holds below SRC_LEN. -/
def State.SrcIs (s : State) (src : Memory 8) : Prop := ∀ a, a < s.srcLen.toNat → src.read a = s.mem.src.read a

variable {s t : State} {src dst : Memory 8}

/-- The reader sees the same source (R38). -/
theorem State.SrcIs.source (h : s.SrcIs src) : (s.withBuffers src dst).source.Agree s.source := ⟨rfl, rfl, h⟩

theorem State.SrcIs.readList (h : s.SrcIs src) {base n : Nat} (hn : n ≤ s.srcLen.toNat - base) :
    src.readList base n = s.mem.src.readList base n :=
  Memory.readList_congr fun i hi => h (base + i) (by omega)

/-- What keeps SRC and SRC_LEN keeps the agreement; the parts of a parse do. -/
theorem State.SrcIs.of_unparsed {u : State} (h : s.SrcIs src) (hu : u.unparsed = s.unparsed) : u.SrcIs src := by
  have hlen : u.unparsed.srcLen = s.unparsed.srcLen := by rw [hu]
  have hmem : u.unparsed.mem.src = s.unparsed.mem.src := by rw [hu]
  intro a ha
  have hread : u.mem.src.read a = s.mem.src.read a := congrArg (Memory.read · a) hmem
  exact hread ▸ h a (hlen ▸ ha)

/-! ## The parts of a parse (45_container.md R241 to R250) -/

theorem State.withBuffers_warn (s : State) (c : Warning) (off : Nat) :
    (s.withBuffers src dst).warn c off = (s.warn c off).withBuffers src dst := by
  unfold State.warn
  split
  next h => rw [if_pos (show s.warnCnt.toNat < s.cfg.warnCap from h)]; rfl
  next h => rw [if_neg (show ¬s.warnCnt.toNat < s.cfg.warnCap from h)]; rfl

theorem State.withBuffers_warnIf (s : State) (p : Bool) (c : Warning) (off : Nat) :
    (s.withBuffers src dst).warnIf p c off = (s.warnIf p c off).withBuffers src dst := by
  cases p with
  | false => rfl
  | true => exact s.withBuffers_warn c off

theorem State.withBuffers_setTable (s : State) (t : FrameTable) (bs : List Byte) (n : Nat) :
    (s.withBuffers src dst).setTable t bs n = (s.setTable t bs n).withBuffers src dst := by
  cases t <;> rfl

/-- ParseTable with the memory it reads named: the marker warning leaves SRC alone. -/
theorem State.parseTable_def (s : State) (t : FrameTable) (off : Nat) :
    s.parseTable t off = ((s.warnIf (decide (s.mem.src.read off ≠ 0#8)) t.markerWarning off).setTable t
      (s.tableBytes off) (s.stored off)).warnIf (decide (s.stored off < s.declared off)) t.shortWarning off := by
  have hkept := s.unparsed_warnIf (decide (s.mem.src.read off ≠ 0#8)) t.markerWarning off
  have hsrc : (s.warnIf (decide (s.mem.src.read off ≠ 0#8)) t.markerWarning off).mem.src = s.mem.src := by
    simpa only [State.unparsed] using congrArg (fun u : State => u.mem.src) hkept
  rw [State.parseTable, hsrc, State.tableBytes]

/-- A frame block whose header is present lies below SRC_LEN as far as it is read (R244, R245). -/
theorem State.SrcIs.declared (h : s.SrcIs src) {off : Nat} (hoff : s.headerAt off = true) :
    (s.withBuffers src dst).declared off = s.declared off := by
  have hlen : off + 2 ≤ s.srcLen.toNat := of_decide_eq_true hoff
  exact congrArg BitVec.toNat (h (off + 1) (by omega))

theorem State.SrcIs.stored (h : s.SrcIs src) {off : Nat} (hoff : s.headerAt off = true) :
    (s.withBuffers src dst).stored off = s.stored off := by
  rw [State.stored, h.declared hoff]
  rfl

theorem State.SrcIs.tableBytes (h : s.SrcIs src) {off : Nat} (hoff : s.headerAt off = true) :
    (s.withBuffers src dst).tableBytes off = s.tableBytes off := by
  have hstored : s.stored off ≤ (s.srcLen.toNat - off - 2) / 4 := Nat.min_le_right _ _
  rw [State.tableBytes, h.stored hoff]
  exact h.readList (by omega)

theorem State.SrcIs.parseTable (h : s.SrcIs src) (t : FrameTable) {off : Nat} (hoff : s.headerAt off = true) :
    (s.withBuffers src dst).parseTable t off = (s.parseTable t off).withBuffers src dst := by
  have hlen : off + 2 ≤ s.srcLen.toNat := of_decide_eq_true hoff
  have hmarker : (s.withBuffers src dst).mem.src.read off = s.mem.src.read off := h off (by omega)
  rw [State.parseTable_def, State.parseTable_def, hmarker, h.tableBytes hoff, h.stored hoff, h.declared hoff,
    State.withBuffers_warnIf, State.withBuffers_setTable, State.withBuffers_warnIf]

/-- The state with these bytes in PALB (R249). -/
def State.storePalette (s : State) (bytes : List Byte) : State :=
  { s with mem := { s.mem with palb := s.mem.palb.writeList 0 bytes } }

/-- The state with these GRAPHIC_OFF and MARKER (R248, R250). -/
def State.storeMarker (s : State) (off : Nat) (marker : BitVec 16) : State :=
  { s with graphicOff := toWord off, marker := marker }

theorem State.parsePalette_def (s : State) (off : Nat) :
    s.parsePalette off = (s.storePalette (s.paletteBytes off)).warnIf
      (decide (min Config.palbSize (s.srcRest off) < Config.palbSize)) .paletteShort off := rfl

theorem State.parseMarker_def (s : State) (off : Nat) :
    s.parseMarker off = if s.srcRest off < 2 then (s.storeMarker off (s.markerAt off)).warn .markerShort off
      else (s.storeMarker off (s.markerAt off)).warnIf (decide (s.markerAt off ≠ 0x0808#16)) .markerMismatch off := rfl

theorem State.withBuffers_storePalette (s : State) (bytes : List Byte) :
    (s.withBuffers src dst).storePalette bytes = (s.storePalette bytes).withBuffers src dst := rfl

theorem State.withBuffers_storeMarker (s : State) (off : Nat) (marker : BitVec 16) :
    (s.withBuffers src dst).storeMarker off marker = (s.storeMarker off marker).withBuffers src dst := rfl

theorem State.withBuffers_srcRest (s : State) (off : Nat) : (s.withBuffers src dst).srcRest off = s.srcRest off := rfl

/-- Only the palette bytes present are read (R249). -/
theorem State.SrcIs.parsePalette (h : s.SrcIs src) (off : Nat) :
    (s.withBuffers src dst).parsePalette off = (s.parsePalette off).withBuffers src dst := by
  have hbytes : (s.withBuffers src dst).paletteBytes off = s.paletteBytes off :=
    congrArg (· ++ List.replicate (32 - min 32 (s.srcRest off)) 0#8) (h.readList (Nat.min_le_right _ _))
  rw [State.parsePalette_def, State.parsePalette_def, hbytes, State.withBuffers_srcRest, State.withBuffers_storePalette,
    State.withBuffers_warnIf]

/-- A marker byte is read only if it is present (R250). -/
theorem State.SrcIs.markerAt (h : s.SrcIs src) (off : Nat) : (s.withBuffers src dst).markerAt off = s.markerAt off := by
  have hhigh (hp : 1 ≤ s.srcRest off) : src.read off = s.mem.src.read off := h off (Nat.lt_of_sub_pos hp)
  have hlow (hp : 2 ≤ s.srcRest off) : src.read (off + 1) = s.mem.src.read (off + 1) :=
    h (off + 1) (Nat.add_lt_of_lt_sub' hp)
  exact congrArg₂ (· ++ ·) (ite_congr rfl hhigh fun _ => rfl) (ite_congr rfl hlow fun _ => rfl)

theorem State.SrcIs.parseMarker (h : s.SrcIs src) (off : Nat) :
    (s.withBuffers src dst).parseMarker off = (s.parseMarker off).withBuffers src dst := by
  rw [State.parseMarker_def, State.parseMarker_def, h.markerAt, State.withBuffers_srcRest, State.withBuffers_storeMarker]
  split
  · exact State.withBuffers_warn _ _ _
  · exact State.withBuffers_warnIf _ _ _ _

/-- The rest of a parse: each part finds SRC and SRC_LEN as the part before it left them. -/
theorem State.SrcIs.parseRest (h : s.SrcIs src) {talk : Nat} (htalk : s.headerAt talk = true) :
    (s.withBuffers src dst).parseRest talk = (s.parseRest talk).withBuffers src dst := by
  have hnext : (s.withBuffers src dst).nextBlock talk = s.nextBlock talk := by
    rw [State.nextBlock, h.declared htalk, State.nextBlock]
  have htable : (s.parseTable .talk talk).SrcIs src := h.of_unparsed (by simp)
  have hpalette : ((s.parseTable .talk talk).parsePalette (s.nextBlock talk)).SrcIs src := htable.of_unparsed (by simp)
  rw [State.parseRest, hnext, h.parseTable _ htalk, htable.parsePalette, hpalette.parseMarker]
  rfl

theorem State.SrcIs.parseBody (h : s.SrcIs src) :
    (s.withBuffers src dst).parseBody = (s.parseBody.1, s.parseBody.2.withBuffers src dst) := by
  have hclear : s.clearWarnings.SrcIs src := h
  have hblink : (s.clearWarnings.parseTable .blink 0).SrcIs src := hclear.of_unparsed (by simp)
  have hbuffers : (s.withBuffers src dst).clearWarnings = s.clearWarnings.withBuffers src dst := rfl
  have hheader (u : State) (off : Nat) : (u.withBuffers src dst).headerAt off = u.headerAt off := rfl
  unfold State.parseBody
  dsimp only
  rw [hbuffers, hheader]
  split
  next h0 =>
    have hnext : (s.clearWarnings.withBuffers src dst).nextBlock 0 = s.clearWarnings.nextBlock 0 := by
      rw [State.nextBlock, hclear.declared h0, State.nextBlock]
    rw [hnext, hclear.parseTable _ h0, hheader]
    split
    next htalk => rw [hblink.parseRest htalk]
    next => rfl
  next => rfl

/-! ## The commands that do not write DST -/

theorem State.withBuffers_endRead (s : State) (p : Read Nat) :
    (s.withBuffers src dst).endRead p = ((s.endRead p).1, (s.endRead p).2.withBuffers src dst) := by
  cases p <;> rfl

/-- A command whose body carries other contents of SRC and DST along does so as a whole. -/
theorem State.SrcIs.run (h : s.SrcIs src) {body : State → Ending × State} (ht : s.run body = .next t)
    (hbody : ∀ u : State, u.SrcIs src → body (u.withBuffers src dst) = ((body u).1, (body u).2.withBuffers src dst)) :
    (s.withBuffers src dst).run body = .next (t.withBuffers src dst) :=
  State.run_image (hbody s.issue h) (fun u => u.withBuffers_finish src dst) ht

theorem State.SrcIs.execDecA (h : s.SrcIs src) (ht : execDecA s = .next t) :
    execDecA (s.withBuffers src dst) = .next (t.withBuffers src dst) := by
  refine h.run ht fun u hu => ?_
  have hbody := decodeBodyA_agree (hu.source (dst := dst))
  have hheader : readHeader (u.withBuffers src dst).source (Reader.init (u.withBuffers src dst).argOffset)
      = readHeader u.source (Reader.init u.argOffset) := congrFun (readHeader_agree hu.source) _
  dsimp only
  rw [hheader]
  split
  next => rfl
  next wu hu r _ =>
    have hcap : (u.withBuffers src dst).cfg = u.cfg := rfl
    rw [hcap, hbody]
    split <;> rfl

/-- A command that does not write DST does the same whatever DST holds, and whatever SRC holds at and above SRC_LEN. -/
theorem State.SrcIs.exec (h : s.SrcIs src) (i : Instr) (hi : i.usesWriter = false) (ht : exec i s = .next t) :
    exec i (s.withBuffers src dst) = .next (t.withBuffers src dst) := by
  unfold Machine.exec at ht ⊢
  cases i with
  | rdStart => exact h.run ht fun u hu => rfl
  | rdBit =>
    refine h.run ht fun u hu => ?_
    rw [readBit_agree hu.source]
    exact u.withBuffers_endRead _
  | rdBits n =>
    refine h.run ht fun u hu => ?_
    rw [readBits_agree hu.source]
    split
    · rfl
    · exact u.withBuffers_endRead _
  | lcDec =>
    refine h.run ht fun u hu => ?_
    rw [lcDecodeSat_agree hu.source]
    exact u.withBuffers_endRead _
  | palDecA => exact h.run ht fun u hu => rfl
  | palDecB => exact h.run ht fun u hu => rfl
  | palEncA => exact h.run ht fun u hu => rfl
  | palEncB => exact h.run ht fun u hu => rfl
  | decA => exact h.execDecA ht
  | decB =>
    refine h.run ht fun u hu => ?_
    rw [decodeBodyB_agree hu.source]
    rfl
  | parse => exact h.run ht fun u hu => hu.parseBody
  | wrStart => cases hi
  | wrBits n => cases hi
  | wrFlush => cases hi
  | lcEnc => cases hi
  | render => cases hi
  | encB => cases hi
  | serialize => cases hi

/-! ## The writing commands on other contents of SRC -/

theorem State.withSrc_endWrite (s : State) (p : Write) :
    (s.withSrc src).endWrite p = ((s.endWrite p).1, (s.endWrite p).2.withSrc src) := by
  cases p <;> rfl

theorem State.withSrc_endEncode (s : State) (out : Ending × Output) :
    (s.withSrc src).endEncode out = ((s.endEncode out).1, (s.endEncode out).2.withSrc src) := by
  obtain ⟨e, o⟩ := out
  cases e with
  | normal =>
    have hcap : (s.withSrc src).cfg = s.cfg := rfl
    rw [State.endEncode, State.endEncode, hcap]
    split <;> rfl
  | truncated => rfl
  | raised f => rfl

/-- SERIALIZE copies SRC from GRAPHIC_OFF up to SRC_LEN (45_container.md R256). -/
theorem State.SrcIs.containerBytes (h : s.SrcIs src) : (s.withSrc src).containerBytes = s.containerBytes :=
  congrArg (_ ++ ·) (h.readList (le_refl (s.srcLen.toNat - s.graphicOff.toNat)))

theorem State.SrcIs.runWriter (h : s.SrcIs src) {body : State → Ending × State} (ht : s.run body = .next t)
    (hbody : ∀ u : State, u.SrcIs src → body (u.withSrc src) = ((body u).1, (body u).2.withSrc src)) :
    (s.withSrc src).run body = .next (t.withSrc src) :=
  State.run_image (hbody s.issue h) (fun u => u.withSrc_finish src) ht

/-- A writing command reads SRC below SRC_LEN only: SERIALIZE does, the others never read it. -/
theorem State.SrcIs.execWriter (h : s.SrcIs src) (i : Instr) (hi : i.usesWriter = true) (ht : Machine.exec i s = .next t) :
    Machine.exec i (s.withSrc src) = .next (t.withSrc src) := by
  unfold Machine.exec at ht ⊢
  cases i with
  | wrStart => exact h.runWriter ht fun u _ => rfl
  | wrBits n =>
    refine h.runWriter ht fun u _ => ?_
    split
    · rfl
    · exact u.withSrc_endWrite _
  | wrFlush => exact h.runWriter ht fun u _ => u.withSrc_endWrite _
  | lcEnc => exact h.runWriter ht fun u _ => u.withSrc_endWrite _
  | render =>
    refine h.runWriter ht fun u _ => ?_
    have hsize : (u.withSrc src).imageSize = u.imageSize := rfl
    have hcfg : (u.withSrc src).cfg = u.cfg := rfl
    dsimp only
    rw [hsize, hcfg]
    split
    · rfl
    · split <;> rfl
  | encB =>
    refine h.runWriter ht fun u _ => ?_
    have himage : (u.withSrc src).imgW = u.imgW ∧ (u.withSrc src).imgH = u.imgH := ⟨rfl, rfl⟩
    rw [himage.1, himage.2]
    split
    · rfl
    · exact u.withSrc_endEncode _
  | serialize =>
    refine h.runWriter ht fun u hu => ?_
    have hlen : (u.withSrc src).newGraphicOff = u.newGraphicOff ∧ (u.withSrc src).trailing = u.trailing := ⟨rfl, rfl⟩
    have hcfg : (u.withSrc src).cfg = u.cfg := rfl
    dsimp only
    rw [hlen.1, hlen.2, hcfg, hu.containerBytes]
    split <;> rfl
  | _ => cases hi

/-- Settles O12: a command that writes DST reads SRC below SRC_LEN only, and so does one that leaves DST alone. -/
theorem noReadOfSrcAtOrAboveSrcLen : Obligations.NoReadOfSrcAtOrAboveSrcLen := by
  unfold Obligations.NoReadOfSrcAtOrAboveSrcLen
  intro i s t m hm ht
  have hsrc : s.SrcIs m := hm
  cases hi : i.usesWriter with
  | true => exact hsrc.execWriter i hi ht
  | false =>
    obtain ⟨-, -, -, -, -, -, -, hwriter, -⟩ := commandsChangeOnlyTheirState i s t ht
    obtain ⟨-, hdst⟩ := hwriter hi
    have hsame : t.withBuffers m s.mem.dst = t.withSrc m := by
      rw [← hdst]
      rfl
    exact (hsrc.exec (dst := s.mem.dst) i hi ht).trans (congrArg Host.Outcome.next hsame)

/-! ## The writing commands on other contents of DST -/

/-- The two states differ at most in DST, and there every byte either is the same in both or is still the one that `m` and
`m'` hold. -/
structure State.Alike (m m' : Memory 8) (u u' : State) : Prop where
  rest : u' = u.withDst u'.mem.dst
  dst : ∀ a, u'.mem.dst.read a = u.mem.dst.read a ∨ (u'.mem.dst.read a = m'.read a ∧ u.mem.dst.read a = m.read a)

/-- Two results of a body that end the same way, in states alike. -/
def BodyAlike (m m' : Memory 8) (out out' : Ending × State) : Prop := out.1 = out'.1 ∧ out.2.Alike m m' out'.2

variable {m m' : Memory 8}

theorem State.alike_withDst (u : State) (m' : Memory 8) : u.Alike u.mem.dst m' (u.withDst m') :=
  ⟨rfl, fun _ => .inr ⟨rfl, rfl⟩⟩

theorem State.output_alike (u : State) (m' : Memory 8) : u.output.Alike u.mem.dst m' (u.withDst m').output :=
  ⟨rfl, fun _ => .inr ⟨rfl, rfl⟩⟩

/-- A result kept in DST and the writer alone, over any DST. -/
theorem State.setOutput_alike (u : State) (d : Memory 8) {o o' : Output} (h : o.Alike m m' o') :
    (u.setOutput o).Alike m m' ((u.withDst d).setOutput o') := by
  refine ⟨?_, h.dst⟩
  obtain ⟨dst', wr'⟩ := o'
  obtain rfl : o.wr = wr' := h.wr
  rfl

/-- Results alike are both done or both overflows, with outputs alike. -/
theorem Write.Alike.cases {p p' : Write} (h : p.Alike m m' p') :
    (∃ o o', p = .done o ∧ p' = .done o' ∧ o.Alike m m' o') ∨
    (∃ o o', p = .overflow o ∧ p' = .overflow o' ∧ o.Alike m m' o') := by
  rcases p with o | o <;> rcases p' with o' | o'
  · exact .inl ⟨o, o', rfl, rfl, h⟩
  · exact h.elim
  · exact h.elim
  · exact .inr ⟨o, o', rfl, rfl, h⟩

theorem State.endWrite_alike (u : State) (d : Memory 8) {p p' : Write} (h : p.Alike m m' p') :
    BodyAlike m m' (u.endWrite p) ((u.withDst d).endWrite p') := by
  rcases h.cases with ⟨o, o', rfl, rfl, ho⟩ | ⟨o, o', rfl, rfl, ho⟩ <;> exact ⟨rfl, u.setOutput_alike d ho⟩

/-- Two turns that do the same, on loop states that the relation relates. -/
def Turn.Rel {σ : Type} (R : σ → σ → Prop) : Turn σ → Turn σ → Prop
  | .again x, .again y => R x y
  | .stop e x, .stop e' y => e = e' ∧ R x y
  | .again _, .stop _ _ => False
  | .stop _ _, .again _ => False

/-- A relation that every turn keeps, the loop keeps, and it ends the same way in both. -/
theorem tickLoop_rel {σ : Type} {more : σ → Bool} {turn : σ → Turn σ} {R : σ → σ → Prop}
    (hmore : ∀ x y, R x y → more x = more y) (hturn : ∀ x y, R x y → (turn x).Rel R (turn y)) (n : Nat) {x y : σ}
    (h : R x y) : (tickLoop more turn n x).1 = (tickLoop more turn n y).1 ∧
      R (tickLoop more turn n x).2 (tickLoop more turn n y).2 := by
  induction n generalizing x y with
  | zero =>
    rw [tickLoop, tickLoop, hmore x y h]
    split <;> exact ⟨rfl, h⟩
  | succ n ih =>
    rw [tickLoop, tickLoop, hmore x y h]
    split
    · have hrel := hturn x y h
      generalize turn x = tx at hrel ⊢
      generalize turn y = ty at hrel ⊢
      rcases tx with x' | ⟨e, x'⟩ <;> rcases ty with y' | ⟨e', y'⟩
      · exact ih hrel
      · exact hrel.elim
      · exact hrel.elim
      · exact hrel
    · exact ⟨rfl, h⟩

/-- Two loop states of ENC_B at the same pixel, with outputs alike. -/
def LoopEnc.Alike (m m' : Memory 8) (x y : LoopEnc) : Prop := x.pos = y.pos ∧ x.out.Alike m m' y.out

theorem LoopEnc.turn_alike (cap : Nat) (pix : Memory 4) (x y : LoopEnc) (h : x.Alike m m' y) :
    (x.turn cap pix).Rel (LoopEnc.Alike m m') (y.turn cap pix) := by
  obtain ⟨hpos, hout⟩ := h
  rw [LoopEnc.turn, LoopEnc.turn, ← hpos]
  rcases (writeRun_alike cap pix x.pos hout).cases with ⟨o, o', hx, hy, ho⟩ | ⟨o, o', hx, hy, ho⟩ <;> rw [hx, hy]
  · exact ⟨rfl, ho⟩
  · exact ⟨rfl, rfl, ho⟩

theorem encodeBody_alike (cap limit : Nat) (pix : Memory 4) {o o' : Output} (h : o.Alike m m' o') :
    (encodeBody cap limit pix o).1 = (encodeBody cap limit pix o').1 ∧
      (encodeBody cap limit pix o).2.Alike m m' (encodeBody cap limit pix o').2 := by
  rw [encodeBody, encodeBody]
  rcases (writeBits_alike cap 0 2 h).cases with ⟨p, p', hw, hw', hp⟩ | ⟨p, p', hw, hw', hp⟩ <;> rw [hw, hw']
  · have hloop := tickLoop_rel (more := LoopEnc.more) (R := LoopEnc.Alike m m')
      (fun x y hxy => congrArg (fun pos => decide (pos < Config.imgSize)) hxy.1)
      (LoopEnc.turn_alike cap pix) limit (x := ⟨0, p⟩) (y := ⟨0, p'⟩) ⟨rfl, hp⟩
    obtain ⟨hend, -, hout⟩ := hloop
    exact ⟨hend, hout⟩
  · exact ⟨rfl, hp⟩

/-- The final Flush of ENC_B, and RESULT from WR_LEN (44_encoder.md R226). -/
theorem State.endEncode_alike (u : State) (d : Memory 8) {out out' : Ending × Output} (he : out.1 = out'.1)
    (h : out.2.Alike m m' out'.2) : BodyAlike m m' (u.endEncode out) ((u.withDst d).endEncode out') := by
  obtain ⟨e, o⟩ := out
  obtain ⟨e', o'⟩ := out'
  obtain rfl : e = e' := he
  cases e with
  | normal =>
    have hcap : (u.withDst d).cfg = u.cfg := rfl
    rw [State.endEncode, State.endEncode, hcap]
    rcases (flush_alike u.cfg.dstCap h).cases with ⟨p, p', hw, hw', hp⟩ | ⟨p, p', hw, hw', hp⟩ <;> rw [hw, hw']
    · have hout := u.setOutput_alike d hp
      have hlen : p'.wr.len = p.wr.len := congrArg Writer.len hp.wr.symm
      refine ⟨rfl, ?_, hout.dst⟩
      dsimp only
      rw [hlen]
      exact congrArg (fun v : State => { v with result := p.wr.len }) hout.rest
    · exact ⟨rfl, u.setOutput_alike d hp⟩
  | truncated => exact ⟨rfl, u.setOutput_alike d h⟩
  | raised f => exact ⟨rfl, u.setOutput_alike d h⟩

/-- RENDER and SERIALIZE store a block of bytes in any DST alike. -/
theorem State.writeWhole_alike (u : State) (m' : Memory 8) (bytes : List Byte) (len : Nat) (v : Word) :
    ({ u with mem := { u.mem with dst := u.mem.dst.writeList 0 bytes }, wr := Writer.whole len, result := v } :
      State).Alike u.mem.dst m'
    { u.withDst m' with mem := { u.mem with dst := m'.writeList 0 bytes }, wr := Writer.whole len, result := v } :=
  ⟨rfl, writeList_alike 0 bytes fun _ => .inr ⟨rfl, rfl⟩⟩

theorem State.Alike.finish {u u' : State} (h : u.Alike m m' u') (e : Ending) : (u.finish e).Alike m m' (u'.finish e) := by
  obtain ⟨hrest, hdst⟩ := h
  rw [hrest]
  cases e <;> exact ⟨rfl, hdst⟩

theorem State.run_alike {s t : State} {m' : Memory 8} {body : State → Ending × State} (ht : s.run body = .next t)
    (hbody : ∀ u : State, BodyAlike u.mem.dst m' (body u) (body (u.withDst m'))) :
    ∃ t', (s.withDst m').run body = .next t' ∧ t.Alike s.mem.dst m' t' := by
  obtain ⟨e, u, hu, rfl⟩ := State.run_next ht
  obtain ⟨hend, halike⟩ := hbody s.issue
  rw [hu] at hend halike
  refine ⟨_, rfl, ?_⟩
  have hsame : (body (s.withDst m').issue).1 = e := hend.symm
  rw [hsame]
  exact halike.finish e

/-- A writing command writes the same bytes at the same places whatever DST holds. -/
theorem exec_alike (i : Instr) (hi : i.usesWriter = true) {s t : State} (m' : Memory 8) (ht : exec i s = .next t) :
    ∃ t', exec i (s.withDst m') = .next t' ∧ t.Alike s.mem.dst m' t' := by
  unfold exec at ht ⊢
  cases i with
  | wrStart => exact State.run_alike ht fun u => ⟨rfl, rfl, fun _ => .inr ⟨rfl, rfl⟩⟩
  | wrBits n =>
    refine State.run_alike ht fun u => ?_
    split
    · exact ⟨rfl, u.alike_withDst m'⟩
    · exact u.endWrite_alike m' (writeBits_alike _ _ _ (u.output_alike m'))
  | wrFlush => exact State.run_alike ht fun u => u.endWrite_alike m' (flush_alike _ (u.output_alike m'))
  | lcEnc => exact State.run_alike ht fun u => u.endWrite_alike m' (lcEncode_alike _ _ (u.output_alike m'))
  | render =>
    refine State.run_alike ht fun u => ?_
    have hsize : (u.withDst m').imageSize = u.imageSize := rfl
    have hcfg : (u.withDst m').cfg = u.cfg := rfl
    dsimp only
    rw [hsize, hcfg]
    split
    · exact ⟨rfl, u.alike_withDst m'⟩
    · split
      · exact ⟨rfl, u.alike_withDst m'⟩
      · exact ⟨rfl, u.writeWhole_alike m' _ _ _⟩
  | encB =>
    refine State.run_alike ht fun u => ?_
    have himage : (u.withDst m').imgW = u.imgW ∧ (u.withDst m').imgH = u.imgH := ⟨rfl, rfl⟩
    rw [himage.1, himage.2]
    split
    · exact ⟨rfl, u.alike_withDst m'⟩
    · have hinit : u.output.init.Alike u.mem.dst m' (u.withDst m').output.init := ⟨rfl, (u.output_alike m').dst⟩
      obtain ⟨hend, hout⟩ := encodeBody_alike u.cfg.dstCap (tickLimit u.cfg Config.imgSize) u.mem.pix hinit
      exact u.endEncode_alike m' hend hout
  | serialize =>
    refine State.run_alike ht fun u => ?_
    have hlen : (u.withDst m').newGraphicOff = u.newGraphicOff ∧ (u.withDst m').trailing = u.trailing := ⟨rfl, rfl⟩
    have hcfg : (u.withDst m').cfg = u.cfg := rfl
    dsimp only
    rw [hlen.1, hlen.2, hcfg]
    split
    · exact ⟨rfl, u.alike_withDst m'⟩
    · exact ⟨rfl, u.writeWhole_alike m' _ _ _⟩
  | _ => cases hi

/-- Settles O13: a command that writes DST does so alike in any DST, and one that does not carries DST along. -/
theorem noReadOfDst : Obligations.NoReadOfDst := by
  unfold Obligations.NoReadOfDst
  intro i s t m ht
  cases hi : i.usesWriter with
  | true =>
    obtain ⟨t', hrun, halike⟩ := exec_alike i hi m ht
    exact ⟨t'.mem.dst, hrun.trans (congrArg Host.Outcome.next halike.rest), halike.dst⟩
  | false =>
    obtain ⟨-, -, -, hsrc, -, -, -, hwriter, -⟩ := commandsChangeOnlyTheirState i s t ht
    obtain ⟨-, hdst⟩ := hwriter hi
    have hsame : t.withBuffers s.mem.src m = t.withDst m := by
      rw [← hsrc]
      rfl
    have hagree : s.SrcIs s.mem.src := fun _ _ => rfl
    have hrun := hagree.exec (dst := m) i hi ht
    exact ⟨m, hrun.trans (congrArg Host.Outcome.next hsame), fun _ => .inr ⟨rfl, by rw [hdst]⟩⟩

end Sys2Proof.Machine
end

section
/-! SUPPORT. Registers as numbers (10_state.md R22), the state after reset (R49, R50), and what a host access does at each offset
of the address map (20_memory.md R66 to R68). -/

namespace Sys2Proof.Machine

/-! ## Packed registers -/

/-- Fields side by side: the right one counts its own value, the left one is shifted past it. -/
theorem toNat_append_add {n k : Nat} (x : BitVec n) (y : BitVec k) : (x ++ y).toNat = 2 ^ k * x.toNat + y.toNat := by
  rw [BitVec.toNat_append, ← Nat.shiftLeft_add_eq_or_of_lt y.isLt, Nat.shiftLeft_eq, Nat.mul_comm]

/-- STATUS: BUSY, TRUNC and ERR (R24). -/
theorem State.statusWord_eq (s : State) :
    s.statusWord = BitVec.ofNat 32 (s.busy.toNat + 2 * s.trunc.toNat + 16 * s.errCode.toNat) := by
  refine BitVec.eq_of_toNat_eq ?_
  have herr := s.errCode.isLt
  have hbusy := s.busy.toNat_le
  have htrunc := s.trunc.toNat_le
  simp only [State.statusWord, toNat_append_add, BitVec.toNat_ofNat, BitVec.toNat_ofBool]
  omega

/-- RD_STATE: RD_BUF and RD_CNT (R29). -/
theorem Reader.stateWord_eq (r : Reader) : r.stateWord = BitVec.ofNat 32 (r.buf.toNat + 2 ^ 16 * r.cnt.toNat) := by
  refine BitVec.eq_of_toNat_eq ?_
  have hbuf := r.buf.isLt
  have hcnt := r.cnt.isLt
  simp only [Reader.stateWord, toNat_append_add, BitVec.toNat_ofNat]
  omega

/-- WR_STATE: WR_BUF and WR_CNT (R30). -/
theorem Writer.stateWord_eq (o : Writer) : o.stateWord = BitVec.ofNat 32 (o.buf.toNat + 2 ^ 16 * o.cnt.toNat) := by
  refine BitVec.eq_of_toNat_eq ?_
  have hbuf := o.buf.isLt
  have hcnt := o.cnt.isLt
  simp only [Writer.stateWord, toNat_append_add, BitVec.toNat_ofNat]
  omega

/-- WARN_STAT: WARN_CNT and WARN_OVF (R35). -/
theorem State.warnStatWord_eq (s : State) :
    s.warnStatWord = BitVec.ofNat 32 (s.warnCnt.toNat + 2 ^ 8 * s.warnOvf.toNat) := by
  refine BitVec.eq_of_toNat_eq ?_
  have hcnt := s.warnCnt.isLt
  have hovf := s.warnOvf.toNat_le
  simp only [State.warnStatWord, toNat_append_add, BitVec.toNat_ofNat, BitVec.toNat_ofBool]
  omega

theorem toNat_oddTailBit (m : OddTailMode) : (oddTailBit m).toNat = if m = .use then 1 else 0 := by
  cases m <;> rfl

theorem toNat_palBEncBit (m : PalBEncMode) : (palBEncBit m).toNat = if m = .top3 then 1 else 0 := by
  cases m <;> rfl

/-- PARAM: the two modes, ITER_FACTOR mod 256 and WARN_CAP (R36). -/
theorem paramWord_eq (c : Config) :
    paramWord c = BitVec.ofNat 32 ((if c.oddTail = .use then 1 else 0) + (if c.palBEnc = .top3 then 2 else 0)
      + 2 ^ 8 * (c.iterFactor % 256) + 2 ^ 16 * (c.warnCap % 256)) := by
  refine BitVec.eq_of_toNat_eq ?_
  simp only [paramWord, toNat_append_add, BitVec.toNat_ofNat, toNat_oddTailBit, toNat_palBEncBit]
  split <;> split <;> omega

/-- A narrow field or a byte in a word (R22, R67). -/
theorem zeroExtend_eq_ofNat {n : Nat} (x : BitVec n) : x.zeroExtend 32 = BitVec.ofNat 32 x.toNat :=
  (BitVec.ofNat_toNat 32 x).symm

/-! ## Reset -/

/-- The parameters after reset are the defaults, which are legal (00_scope.md R9). -/
theorem default_legal : Config.default.Legal := by decide

/-- The reset state of the machine is a reset whose draw lists no entry (R49, R50). -/
theorem State.reset_eq_afterReset : State.reset = State.afterReset Config.default ⟨[], [], [], [], [], [], [], []⟩ := rfl

/-- Settles O15: no memory lists an entry, and every register is at its reset value. -/
theorem resetIsLegal : Obligations.ResetIsLegal := by
  unfold Obligations.ResetIsLegal
  rw [State.reset_eq_afterReset]
  exact State.afterReset_inv default_legal _

/-- Settles O16. -/
theorem anyDrawIsLegal : Obligations.AnyDrawIsLegal := by
  unfold Obligations.AnyDrawIsLegal
  exact fun c d hc => State.afterReset_inv hc d

/-- Settles O17: a register is a parameter of the block, or 0. -/
theorem registersAfterReset : Obligations.RegistersAfterReset := by
  unfold Obligations.RegistersAfterReset
  intro c d r
  cases r
  case param => exact paramWord_eq c
  case status => exact State.statusWord_eq _
  case rdState => exact Reader.stateWord_eq _
  case wrState => exact Writer.stateWord_eq _
  case warnStat => exact State.warnStatWord_eq _
  all_goals rfl

/-- What an entry drawn below the capacity reads as (R50). -/
theorem Memory.read_ofList_getElem {w : Nat} {cap a : Nat} (vs : List (BitVec w)) (h : a < vs.length) (ha : a < cap) :
    (Memory.ofList cap vs).read a = vs[a] := by
  rw [Memory.read_ofList, if_pos ha, List.getD_eq_getElem _ _ h]

/-- Settles O18. -/
theorem platformResetStep : Obligations.PlatformResetStep := by
  unfold Obligations.PlatformResetStep
  intro s d rest hp
  have hfetch : s.fetch = .done { State.afterReset s.cfg d with program := rest, replies := s.replies } := by
    rw [State.fetch, hp]
    rfl
  exact ⟨step_done hfetch, fun _ => Memory.read_ofList_getElem _, fun _ => Memory.read_ofList_getElem _,
    fun _ => Memory.read_ofList_getElem _, fun _ => Memory.read_ofList_getElem _, fun _ => Memory.read_ofList_getElem _,
    fun _ => Memory.read_ofList_getElem _, fun _ => Memory.read_ofList_getElem _, fun _ => Memory.read_ofList_getElem _⟩

/-! ## Commands -/

/-- A write of a word to CMD, with BUSY = 0, issues it as a command (R23). -/
theorem State.fetch_command {s : State} {w : Word} {rest : List HostAction} (hb : s.busy = false)
    (hp : s.program = .write s.cfg.base 4 (.lit w) :: rest) : s.fetch = .command w { s with program := rest } := by
  have hl : locate s.cfg s.cfg.base 4 = .ok (.reg .cmd) := locate_reg s.cfg .cmd
  simp only [State.fetch, hp, State.hostAction, State.hostWrite, hl, hb, State.hostValue]
  rfl

/-- Settles O5. -/
theorem stepRunsDecodedCommand : Obligations.StepRunsDecodedCommand := by
  unfold Obligations.StepRunsDecodedCommand
  intro s w i rest hb hp hd
  exact step_command (State.fetch_command hb hp) hd

/-! ## Host reads -/

/-- WARNLOG ends below BLINK_TBL (00_scope.md R9, 20_memory.md R66). -/
theorem warnCap_le {c : Config} (h : c.Legal) : c.warnCap ≤ 64 := by
  obtain ⟨-, -, -, ⟨-, hwarn⟩, -⟩ := h
  exact hwarn

/-- What a read returns does not depend on the actions still to come. -/
theorem State.readTarget_program (s : State) (rest : List HostAction) (t : Target) :
    ({ s with program := rest } : State).readTarget t = s.readTarget t := by
  cases t with
  | reg r => cases r <;> rfl
  | _ => rfl

/-- The step of a read, by the value that its target holds (R67, 70_reset_and_hazards.md R307). -/
theorem step_read_value {s : State} {off size : Nat} {rest : List HostAction} {t : Target} {v : Word}
    (hl : locate s.cfg (s.cfg.base + off) size = .ok t) (hb : s.busy = false ∨ t = .reg .status) (hv : s.readTarget t = v)
    (hp : s.program = .read (s.cfg.base + off) size :: rest) :
    step s = .next { s with program := rest, replies := v :: s.replies } := by
  rw [step_read hp hl hb, State.readTarget_program, hv]

/-- The value of STATUS, its ERR by the codes of R25. -/
theorem State.errCode_toNat (s : State) :
    s.errCode.toNat = match s.err with
      | none => 0
      | some .formatViolation => 1
      | some .runtimeInvariantFailure => 2
      | some .containerTruncated => 3
      | some .illegalCommand => 4
      | some .outputOverflow => 5
      | some .capacityExceeded => 6 := by
  rw [State.errCode]
  rcases s.err with _ | e
  · rfl
  · cases e <;> rfl

/-- Settles O57: each offset is located, and what its target holds is the value stated. -/
theorem hostReadHasNoSideEffect : Obligations.HostReadHasNoSideEffect := by
  unfold Obligations.HostReadHasNoSideEffect
  intro s rest hlegal
  have hwarn := warnCap_le hlegal
  refine ⟨?_, fun hb => ⟨?_, ?_, ?_, ?_, ?_, ?_, ?_, ?_, ?_⟩⟩
  · have hv : s.readReg .status = _ := s.statusWord_eq
    rw [s.errCode_toNat] at hv
    exact step_read_value (locate_reg s.cfg .status) (.inr rfl) hv
  · have reg (r : RegName) {v : Word} (hv : s.readReg r = v) (hp : s.program = .read (s.cfg.base + r.offset) 4 :: rest) :
        step s = .next { s with program := rest, replies := v :: s.replies } :=
      step_read_value (locate_reg s.cfg r) (.inl hb) hv hp
    simp only [List.forall_mem_cons]
    exact ⟨reg .cmd rfl, reg .arg rfl, reg .result rfl, reg .srcLen rfl, reg .rdPos rfl,
      reg .rdState s.rd.stateWord_eq, reg .wrLen rfl, reg .wrState s.wr.stateWord_eq,
      reg .imgW (zeroExtend_eq_ofNat _), reg .imgH (zeroExtend_eq_ofNat _), reg .graphicOff rfl,
      reg .blinkN (zeroExtend_eq_ofNat _), reg .talkN (zeroExtend_eq_ofNat _), reg .marker (zeroExtend_eq_ofNat _),
      reg .warnStat s.warnStatWord_eq, reg .id rfl, reg .param (paramWord_eq _), reg .srcCapR rfl, reg .dstCapR rfl,
      reg .pixCapR rfl, List.forall_mem_nil _⟩
  · exact fun i hi => step_read_value (locate_palram s.cfg hi) (.inl hb) rfl
  · exact fun i hi => step_read_value (locate_palb s.cfg hi) (.inl hb) (zeroExtend_eq_ofNat _)
  · exact fun i hi => step_read_value (locate_warnlog s.cfg hi) (.inl hb) rfl
  · exact fun i hi => step_read_value (locate_blinkTbl hwarn hi) (.inl hb) (zeroExtend_eq_ofNat _)
  · exact fun i hi => step_read_value (locate_talkTbl hwarn hi) (.inl hb) (zeroExtend_eq_ofNat _)
  · exact fun i hi => step_read_value (locate_pix hwarn hi) (.inl hb) (zeroExtend_eq_ofNat _)
  · exact fun i hi => step_read_value (locate_src hlegal hi) (.inl hb) (zeroExtend_eq_ofNat _)
  · exact fun i hi => step_read_value (locate_dst hlegal hi) (.inl hb) (zeroExtend_eq_ofNat _)

/-! ## Host writes -/

/-- Settles O58: a write of a register stores its low bits in a field, SRC_LEN's capped, or nothing. -/
theorem hostWritesRegisters : Obligations.HostWritesRegisters := by
  unfold Obligations.HostWritesRegisters
  intro s r v rest hb hr hp
  have ht : Target.reg r ≠ .reg .cmd := fun h => hr (Target.reg.inj h)
  rw [step_write hp (locate_reg s.cfg r) hb ht]
  cases r
  case cmd => exact absurd rfl hr
  all_goals rfl

/-- Settles O59: the target of each offset is one entry of its window. -/
theorem hostWritesWindows : Obligations.HostWritesWindows := by
  unfold Obligations.HostWritesWindows
  intro s v rest hlegal hb
  have hwarn := warnCap_le hlegal
  refine ⟨fun i hi => ⟨_, fun hp => ?_, Memory.read_write _ i _⟩, fun i hi => ⟨_, fun hp => ?_, Memory.read_write _ i _⟩,
    fun i hi hp => ?_, fun i hi => ⟨_, fun hp => ?_, Memory.read_write _ i _⟩,
    fun i hi => ⟨_, fun hp => ?_, Memory.read_write _ i _⟩, fun i hi => ⟨_, fun hp => ?_, Memory.read_write _ i _⟩,
    fun i hi => ⟨_, fun hp => ?_, Memory.read_write _ i _⟩, fun i hi => ⟨_, fun hp => ?_, Memory.read_write _ i _⟩⟩
  · exact step_write hp (locate_palram s.cfg hi) hb Target.noConfusion
  · exact step_write hp (locate_palb s.cfg hi) hb Target.noConfusion
  · exact step_write hp (locate_warnlog s.cfg hi) hb Target.noConfusion
  · exact step_write hp (locate_blinkTbl hwarn hi) hb Target.noConfusion
  · exact step_write hp (locate_talkTbl hwarn hi) hb Target.noConfusion
  · exact step_write hp (locate_pix hwarn hi) hb Target.noConfusion
  · exact step_write hp (locate_src hlegal hi) hb Target.noConfusion
  · exact step_write hp (locate_dst hlegal hi) hb Target.noConfusion

/-! ## Refused accesses -/

theorem locate_below_base {c : Config} {addr : Nat} (h : addr < c.base) (size : Nat) :
    locate c addr size = .error .unmapped := if_pos h

theorem wordAccess_refused {off size : Nat} (h : size ≠ 4 ∨ off % 4 ≠ 0) (t : Target) :
    wordAccess off size t = .error .accessSize := if_neg (not_and_or.2 h)

theorem byteAccess_refused {size : Nat} (h : size ≠ 1) (t : Target) : byteAccess size t = .error .accessSize := if_neg h

theorem regAccess_refused {off size : Nat} (h : size ≠ 4 ∨ off % 4 ≠ 0) : regAccess off size = .error .accessSize := by
  unfold regAccess
  split
  · exact wordAccess_refused h _
  · rfl

/-- Between two windows, beyond a window's capacity and above DST nothing is mapped (R66). -/
theorem locateOffset_gap {c : Config} (hc : c.Legal) {off : Nat}
    (h : (0x54 ≤ off ∧ off < 0x100) ∨ (0x160 ≤ off ∧ off < 0x200) ∨ (0x200 + 4 * c.warnCap ≤ off ∧ off < 0x400) ∨
      (0x7FC ≤ off ∧ off < 0x800) ∨ (0xBFC ≤ off ∧ off < 0x10000) ∨ (0x10000 + c.pixCap ≤ off ∧ off < 0x1000000) ∨
      (0x1000000 + c.srcCap ≤ off ∧ off < 0x2000000) ∨ 0x2000000 + c.dstCap ≤ off) (size : Nat) :
    locateOffset c off size = .error .unmapped := by
  obtain ⟨⟨-, hsrc⟩, -, ⟨-, hpix⟩, ⟨-, hwarn⟩, -⟩ := hc
  unfold locateOffset
  iterate 9 rw [if_neg (by omega)]

/-- The registers and the windows of 32-bit entries refuse another width or alignment (R67). -/
theorem locateOffset_word_refused {c : Config} {off size : Nat}
    (h : off < 0x54 ∨ (0x100 ≤ off ∧ off < 0x140) ∨ (0x200 ≤ off ∧ off < 0x200 + 4 * c.warnCap))
    (hsize : size ≠ 4 ∨ off % 4 ≠ 0) : locateOffset c off size = .error .accessSize := by
  unfold locateOffset
  rcases h with h | h | h
  · rw [if_pos h, regAccess_refused hsize]
  · rw [if_neg (by omega), if_pos h, wordAccess_refused hsize]
  · rw [if_neg (by omega), if_neg (by omega), if_neg (by omega), if_pos h, wordAccess_refused hsize]

/-- The byte windows refuse another width (R67). -/
theorem locateOffset_byte_refused {c : Config} (hc : c.Legal) {off size : Nat}
    (h : (0x140 ≤ off ∧ off < 0x160) ∨ (0x400 ≤ off ∧ off < 0x7FC) ∨ (0x800 ≤ off ∧ off < 0xBFC) ∨
      (0x10000 ≤ off ∧ off < 0x10000 + c.pixCap) ∨ (0x1000000 ≤ off ∧ off < 0x1000000 + c.srcCap) ∨
      (0x2000000 ≤ off ∧ off < 0x2000000 + c.dstCap)) (hsize : size ≠ 1) :
    locateOffset c off size = .error .accessSize := by
  obtain ⟨⟨-, hsrc⟩, -, ⟨-, hpix⟩, ⟨-, hwarn⟩, -⟩ := hc
  unfold locateOffset
  rcases h with h | h | h | h | h | h
  all_goals
    repeat rw [if_neg (by omega)]
    rw [if_pos h, byteAccess_refused hsize]

theorem regAt_offset {off : Nat} {r : RegName} (h : regAt off = some r) : off = r.offset := by
  unfold regAt at h
  split at h <;> cases h <;> rfl

theorem wordAccess_size {off size : Nat} {t t' : Target} (h : wordAccess off size t = .ok t') : size = 4 := by
  by_contra hne
  rw [wordAccess_refused (.inl hne)] at h
  cases h

theorem regAccess_inv {off size : Nat} {r : RegName} (h : regAccess off size = .ok (.reg r)) :
    off = r.offset ∧ size = 4 := by
  unfold regAccess at h
  split at h
  next r' hr =>
    obtain rfl := Target.reg.inj (wordAccess_ok h)
    exact ⟨regAt_offset hr, wordAccess_size h⟩
  next => cases h

/-- Outside the register window no register is reached (R66). -/
theorem locateOffset_reg_inv {c : Config} {off size : Nat} {r : RegName} (h : locateOffset c off size = .ok (.reg r)) :
    off = r.offset ∧ size = 4 := by
  unfold locateOffset at h
  by_cases hreg : off < 0x54
  · rw [if_pos hreg] at h
    exact regAccess_inv h
  · rw [if_neg hreg] at h
    split_ifs at h <;> first | cases wordAccess_ok h | cases byteAccess_ok h

/-- A register is reached at its own offset only, by a word access. -/
theorem locate_reg_inv {c : Config} {addr size : Nat} {r : RegName} (h : locate c addr size = .ok (.reg r)) :
    addr = c.base + r.offset ∧ size = 4 := by
  unfold locate at h
  split at h
  next => cases h
  next hbase =>
    obtain ⟨hoff, hsize⟩ := locateOffset_reg_inv h
    exact ⟨by omega, hsize⟩

/-- While BUSY = 1 only a word read of STATUS is done (70_reset_and_hazards.md R306). -/
theorem step_busy_refused {s : State} {addr size : Nat} {x : HostValue} {rest : List HostAction} (hb : s.busy = true)
    (hp : s.program = .read addr size :: rest ∨ s.program = .write addr size x :: rest)
    (hne : s.program ≠ .read (s.cfg.base + 4) 4 :: rest) : ∃ r, step s = .refused r := by
  rcases hl : locate s.cfg addr size with r | t
  · exact ⟨r, step_unreached hp hl⟩
  · refine ⟨.hostBusy, step_refuse ?_⟩
    rcases hp with hp | hp
    · have ht : t ≠ .reg .status := by
        rintro rfl
        obtain ⟨rfl, rfl⟩ := locate_reg_inv hl
        exact hne hp
      simp only [State.fetch, hp, State.hostAction, State.hostRead, hl]
      exact if_pos ⟨hb, ht⟩
    · simp only [State.fetch, hp, State.hostAction, State.hostWrite, hl]
      exact if_pos hb

/-- Settles O60: what the address map refuses, and what BUSY = 1 does. -/
theorem hostDutyViolationsAreRefused : Obligations.HostDutyViolationsAreRefused := by
  unfold Obligations.HostDutyViolationsAreRefused
  intro s addr size x rest hlegal hp
  refine ⟨fun haddr => step_unreached hp (locate_below_base haddr size), ?_, fun hb hne => step_busy_refused hb hp hne⟩
  rintro off rfl
  have refused {r : Refusal} (hl : locateOffset s.cfg off size = .error r) : step s = .refused r :=
    step_unreached hp ((locate_base s.cfg off size).trans hl)
  exact ⟨fun hgap => refused (locateOffset_gap hlegal hgap size),
    fun hwindow hsize => refused (locateOffset_word_refused hwindow hsize),
    fun hwindow hsize => refused (locateOffset_byte_refused hlegal hwindow hsize)⟩

end Sys2Proof.Machine
end

section
/-! SUPPORT. The command word (30_encoding.md R80 to R83): its four fields, the opcode map read both ways, and the one lemma that
says which words the decoder accepts. -/

namespace Sys2Proof

/-! ## The fields of a word (R80) -/

/-- A word is its four fields side by side, so a word is known when they are. -/
theorem append_fields (w : Word) : wordRsv1 w ++ wordCount w ++ wordRsv0 w ++ wordOpcode w = w := by
  have h : (wordRsv1 w ++ wordCount w ++ wordRsv0 w ++ wordOpcode w : Word) = w.extractLsb' 0 32 := by
    simp only [wordRsv1, wordCount, wordRsv0, wordOpcode, BitVec.extractLsb'_append_extractLsb'_eq_extractLsb']
  rw [h, BitVec.extractLsb'_eq_self]

/-- A word is a command's encoding exactly when its fields are the command's (R80, R82). -/
theorem encode_eq_iff {i : Instr} {w : Word} :
    encode i = w ↔
      wordRsv1 w = 0#8 ∧ wordCount w = i.countField ∧ wordRsv0 w = 0#8 ∧ wordOpcode w = i.opcode := by
  constructor
  · rintro rfl
    exact Laws.fields_of_bytes _ _ _ _
  · rintro ⟨hrsv1, hcount, hrsv0, hopc⟩
    rw [← append_fields w, hrsv1, hcount, hrsv0, hopc, encode]

/-! ## The opcode map (R82) -/

/-- The opcodes of R82; every other one is reserved (R83). -/
def assignedOpcodes : List (BitVec 8) :=
  [0x01#8, 0x02#8, 0x03#8, 0x04#8, 0x05#8, 0x06#8, 0x08#8, 0x09#8, 0x10#8, 0x11#8, 0x12#8, 0x13#8, 0x14#8, 0x20#8, 0x21#8,
    0x28#8, 0x30#8, 0x31#8]

/-- The opcode of a command is assigned. -/
theorem Instr.opcode_mem (i : Instr) : i.opcode ∈ assignedOpcodes := by
  cases i <;> simp only [Instr.opcode] <;> decide

/-- RD_BITS and WR_BITS are the commands with a count. -/
theorem Instr.takesCount_iff (i : Instr) : i.takesCount = true ↔ i.opcode = 0x03#8 ∨ i.opcode = 0x05#8 := by
  cases i <;> simp only [Instr.takesCount, Instr.opcode] <;> decide

/-- A command without a count has N = 0. -/
theorem Instr.countField_eq_zero {i : Instr} (h : i.takesCount = false) : i.countField = 0#8 := by
  cases i with
  | rdBits | wrBits => exact absurd h Bool.noConfusion
  | _ => rfl

/-- The one check on a command is that of its field N, which is 0 where it is unused. -/
theorem Instr.wellFormed_eq_countOk (i : Instr) : i.wellFormed = countOk i.countField := by
  cases i <;> rfl

/-- The map read both ways: it gives the command of the opcode, with the count where the command has one. -/
theorem instrOfOpcode_eq_some_iff {opc n : BitVec 8} {i : Instr} :
    instrOfOpcode opc n = some i ↔ i.opcode = opc ∧ (i.takesCount = true → i.countField = n) := by
  constructor
  · intro h
    unfold instrOfOpcode at h
    split at h <;> cases h
    case h_3 hopc | h_5 hopc => exact ⟨BitVec.eq_of_toNat_eq hopc.symm, fun _ => rfl⟩
    all_goals exact ⟨BitVec.eq_of_toNat_eq (Eq.symm ‹_›), Bool.noConfusion⟩
  · rintro ⟨rfl, hcount⟩
    cases i with
    | rdBits | wrBits => rw [← hcount rfl]; rfl
    | _ => rfl

/-- Every assigned opcode names a command. -/
theorem exists_instrOfOpcode {opc : BitVec 8} (h : opc ∈ assignedOpcodes) (n : BitVec 8) :
    ∃ i, instrOfOpcode opc n = some i := by
  fin_cases h <;> exact ⟨_, rfl⟩

/-! ## The decoder (R81) -/

/-- The decoder accepts a word when the checks of R81 pass for the command its opcode names. -/
theorem decode_eq_ok_iff {w : Word} {i : Instr} :
    decode w = .ok i ↔
      (wordRsv1 w = 0#8 ∧ wordRsv0 w = 0#8) ∧ instrOfOpcode (wordOpcode w) (wordCount w) = some i ∧
        if i.takesCount then countOk (wordCount w) = true else wordCount w = 0#8 := by
  unfold decode
  by_cases hrsv : wordRsv1 w = 0#8 ∧ wordRsv0 w = 0#8
  · rw [if_neg (by tauto)]
    rcases instrOfOpcode (wordOpcode w) (wordCount w) with _ | j
    · simp
    · simp only [hrsv, true_and, Option.some.injEq]
      constructor
      · intro h
        split_ifs at h with htakes hok hzero <;> cases h
        · simp [htakes, hok]
        · simp [htakes, hzero]
      · rintro ⟨rfl, h⟩
        split_ifs at h ⊢ <;> rfl
  · rw [if_pos (by tauto)]
    simp [hrsv]

/-- The decoder is the inverse of the encoder on the commands of R81. -/
theorem decode_eq_ok_iff_encode {w : Word} {i : Instr} : decode w = .ok i ↔ encode i = w ∧ i.wellFormed = true := by
  rw [decode_eq_ok_iff, instrOfOpcode_eq_some_iff, encode_eq_iff, i.wellFormed_eq_countOk]
  cases htakes : i.takesCount with
  | true =>
    constructor
    · rintro ⟨⟨hrsv1, hrsv0⟩, ⟨hopc, hcount⟩, hok⟩
      exact ⟨⟨hrsv1, (hcount rfl).symm, hrsv0, hopc.symm⟩, hcount rfl ▸ hok⟩
    · rintro ⟨⟨hrsv1, hcount, hrsv0, hopc⟩, hok⟩
      exact ⟨⟨hrsv1, hrsv0⟩, ⟨hopc.symm, fun _ => hcount.symm⟩, hcount ▸ hok⟩
  | false =>
    rw [Instr.countField_eq_zero htakes]
    constructor
    · rintro ⟨⟨hrsv1, hrsv0⟩, ⟨hopc, -⟩, hzero⟩
      exact ⟨⟨hrsv1, by simpa using hzero, hrsv0, hopc.symm⟩, rfl⟩
    · rintro ⟨⟨hrsv1, hzero, hrsv0, hopc⟩, -⟩
      exact ⟨⟨hrsv1, hrsv0⟩, ⟨hopc.symm, fun h => Bool.noConfusion h⟩, by simpa using hzero⟩

/-- Settles O1. -/
theorem decodeOfEncode : Obligations.DecodeOfEncode := by
  unfold Obligations.DecodeOfEncode
  exact fun i hwf => decode_eq_ok_iff_encode.2 ⟨rfl, hwf⟩

/-- Settles O2. -/
theorem decodedWordIsItsEncoding : Obligations.DecodedWordIsItsEncoding := by
  unfold Obligations.DecodedWordIsItsEncoding
  exact fun w i hd => decode_eq_ok_iff_encode.1 hd

/-- Settles O4: each word is the encoding of its command. -/
theorem sampleWordsDecode : Obligations.SampleWordsDecode := by
  unfold Obligations.SampleWordsDecode
  simp only [decode_eq_ok_iff_encode]
  decide

/-! ## The refused words (R81, R83) -/

/-- The words that R81 refuses, by the names of their fields. -/
theorem illegalWord_iff {w : Word} :
    illegalWord w ↔
      wordRsv1 w ≠ 0#8 ∨ wordRsv0 w ≠ 0#8 ∨ wordOpcode w ∉ assignedOpcodes ∨
        (wordOpcode w ≠ 0x03#8 ∧ wordOpcode w ≠ 0x05#8 ∧ wordCount w ≠ 0#8) ∨
        ((wordOpcode w = 0x03#8 ∨ wordOpcode w = 0x05#8) ∧ 32 < (wordCount w).toNat) := Iff.rfl

/-- A word that fails no check decodes to the command its opcode names. -/
theorem exists_decode_ok {w : Word} (h : ¬ illegalWord w) : ∃ i, decode w = .ok i := by
  simp only [illegalWord_iff, not_or, not_and, not_not, ne_eq, not_lt] at h
  obtain ⟨hrsv1, hrsv0, hopc, hzero, hmax⟩ := h
  obtain ⟨i, hi⟩ := exists_instrOfOpcode hopc (wordCount w)
  obtain ⟨hiopc, -⟩ := instrOfOpcode_eq_some_iff.1 hi
  refine ⟨i, decode_eq_ok_iff.2 ⟨⟨hrsv1, hrsv0⟩, hi, ?_⟩⟩
  split_ifs with htakes
  · rw [i.takesCount_iff, hiopc] at htakes
    exact decide_eq_true (hmax htakes)
  · rw [i.takesCount_iff, hiopc, not_or] at htakes
    exact hzero htakes.1 htakes.2

/-- The encoding of a command fails no check. -/
theorem not_illegalWord_encode {i : Instr} (h : i.wellFormed = true) : ¬ illegalWord (encode i) := by
  obtain ⟨hrsv1, hcount, hrsv0, hopc⟩ := encode_eq_iff.1 (rfl : encode i = encode i)
  rw [illegalWord_iff, hrsv1, hcount, hrsv0, hopc]
  rintro (hne | hne | hnot | ⟨hne3, hne5, hne⟩ | ⟨-, hlt⟩)
  · exact hne rfl
  · exact hne rfl
  · exact hnot i.opcode_mem
  · have htakes : i.takesCount = false := by simp [← Bool.not_eq_true, i.takesCount_iff, hne3, hne5]
    exact hne (Instr.countField_eq_zero htakes)
  · rw [i.wellFormed_eq_countOk] at h
    exact absurd (of_decide_eq_true h) (Nat.not_le.2 hlt)

/-- Settles O3. -/
theorem illegalWordsAreExactly : Obligations.IllegalWordsAreExactly := by
  unfold Obligations.IllegalWordsAreExactly
  intro w
  constructor
  · rintro ⟨e, he⟩
    by_contra hlegal
    obtain ⟨i, hi⟩ := exists_decode_ok hlegal
    cases he.symm.trans hi
  · intro hillegal
    cases hd : decode w with
    | error e => exact ⟨e, rfl⟩
    | ok i =>
      obtain ⟨rfl, hwf⟩ := decode_eq_ok_iff_encode.1 hd
      exact absurd hillegal (not_illegalWord_encode hwf)

namespace Machine

/-- Settles O6. -/
theorem illegalWordOnlySetsStatus : Obligations.IllegalWordOnlySetsStatus := by
  unfold Obligations.IllegalWordOnlySetsStatus
  intro s w rest hb hp hillegal
  obtain ⟨e, he⟩ := (illegalWordsAreExactly w).2 hillegal
  rw [step_illegal (State.fetch_command hb hp) he, State.illegalCommand_eq]

end Machine

end Sys2Proof
end

section
/-! SUPPORT. How the commands of the Bit Cursor end (40_bit_cursor.md R112 to R116): the state each leaves, by what its primitive
answered. -/

namespace Sys2Proof.Machine

/-- The DST capacities of 00_scope.md R9 are addresses of 32 bits. -/
theorem dstCap_lt_of_legal {c : Config} (h : c.Legal) : c.dstCap < 2 ^ 32 := by
  obtain ⟨-, ⟨-, hdst⟩, -⟩ := h
  omega

section
variable {s : State} {r : Reader} {o : Output}

/-- A reading command whose primitive gives a value ends normally with the value in RESULT. -/
theorem run_endRead_got {p : State → Read Nat} {v : Nat} (h : p s.issue = .got v r) :
    (s.run fun u => u.endRead (p u)) = .next { s with rd := r, result := toWord v }.ended := by
  rw [State.run_eq, h]
  rfl

/-- A reading command whose primitive is exhausted ends with TRUNC = 1 and RESULT = 0 (60_exceptions.md R272). -/
theorem run_endRead_exhausted {p : State → Read Nat} (h : p s.issue = .exhausted r) :
    (s.run fun u => u.endRead (p u)) = .next { s with rd := r, result := 0#32 }.cutShort := by
  rw [State.run_eq, h]
  rfl

/-- A writing command whose primitive is done ends normally. -/
theorem run_endWrite_done {p : State → Write} (h : p s.issue = .done o) :
    (s.run fun u => u.endWrite (p u)) = .next (s.setOutput o).ended := by
  rw [State.run_eq, h]
  rfl

/-- A writing command whose primitive raises keeps what was written before (60_exceptions.md R280). -/
theorem run_endWrite_overflow {p : State → Write} (h : p s.issue = .overflow o) :
    (s.run fun u => u.endWrite (p u)) = .next ((s.setOutput o).failed .outputOverflow) := by
  rw [State.run_eq, h]
  rfl

end

@[simp] theorem Read.andThen_got {α β : Type} (v : α) (r : Reader) (f : α → Reader → Read β) :
    (Read.got v r).andThen f = f v r := rfl
@[simp] theorem Read.andThen_exhausted {α β : Type} (r : Reader) (f : α → Reader → Read β) :
    (Read.exhausted r : Read α).andThen f = .exhausted r := rfl

variable {s : State} {n : BitVec 8}

theorem exec_rdBit :
    exec .rdBit s = s.run fun u => u.endRead ((readBit u.source u.rd).andThen fun b r => .got b.toNat r) := rfl

/-- RD_BITS with a count that a word can carry (30_encoding.md R81). -/
theorem exec_rdBits (hn : n.toNat ≤ 32) :
    exec (.rdBits n) s = s.run fun u => u.endRead (readBits u.source n.toNat u.rd) := by
  simp only [exec, execRdBits, countOf, Nat.not_lt.2 hn, if_false]

/-- RD_BITS with a larger count is ILLEGAL_COMMAND (R81). -/
theorem exec_rdBits_illegal (hn : 32 < n.toNat) : exec (.rdBits n) s = .next (s.failed .illegalCommand) := by
  simp only [exec, execRdBits, countOf, hn, if_true]
  rfl

/-- WR_BITS with a count that a word can carry (R81) writes the low bits of ARG. -/
theorem exec_wrBits (hn : n.toNat ≤ 32) :
    exec (.wrBits n) s =
      s.run fun u => u.endWrite (writeAll u.cfg.dstCap (bitsOf u.arg.toNat n.toNat) u.output) := by
  simp only [exec, execWrBits, countOf, Nat.not_lt.2 hn, if_false, writeBits_eq, State.argValue]

theorem exec_lcDec : exec .lcDec s = s.run fun u => u.endRead (lcDecodeSat u.source u.rd) := rfl

theorem exec_wrFlush_done {o : Output} (h : flush s.cfg.dstCap s.output = .done o) :
    exec .wrFlush s = .next (s.setOutput o).ended :=
  run_endWrite_done (p := fun u => flush u.cfg.dstCap u.output) h

theorem exec_wrFlush_overflow {o : Output} (h : flush s.cfg.dstCap s.output = .overflow o) :
    exec .wrFlush s = .next ((s.setOutput o).failed .outputOverflow) :=
  run_endWrite_overflow (p := fun u => flush u.cfg.dstCap u.output) h

end Sys2Proof.Machine
end

section
/-! SUPPORT. The single commands of the Bit Cursor: RD_START, RD_BIT, RD_BITS, WR_START, WR_BITS and WR_FLUSH
(40_bit_cursor.md R111 to R116). -/

namespace Sys2Proof.Machine

/-- Settles O19. -/
theorem rdStartPositionsReader : Obligations.RdStartPositionsReader := by
  unfold Obligations.RdStartPositionsReader
  exact fun s => rfl

/-- Settles O24. -/
theorem wrStartBeginsOutput : Obligations.WrStartBeginsOutput := by
  unfold Obligations.WrStartBeginsOutput
  exact fun s => rfl

/-- Settles O20: ReadBit takes the first pending bit, or finds the reader empty. -/
theorem rdBitDeliversNextBit : Obligations.RdBitDeliversNextBit := by
  unfold Obligations.RdBitDeliversNextBit
  refine fun s hok => ⟨fun b rest hp => ?_, fun hp => ?_⟩
  · obtain ⟨r, hr, hd, hrest⟩ := readBit_cons hok hp
    have hresult : toWord b.toNat = if b then 1#32 else 0#32 := by cases b <;> rfl
    refine ⟨r, ?_, hd.ok, hrest, hd.count⟩
    rw [exec_rdBit, ← hresult]
    exact run_endRead_got (by simp [hr])
  · obtain ⟨hr, hcnt⟩ := readBit_nil hok hp
    refine ⟨?_, hcnt⟩
    rw [exec_rdBit]
    exact run_endRead_exhausted (by simp [hr])

/-- Settles O21: ReadBits takes the first n pending bits. -/
theorem rdBitsDeliversField : Obligations.RdBitsDeliversField := by
  unfold Obligations.RdBitsDeliversField
  intro s n hok hn hlen
  have htake : (s.pending.take n.toNat).length = n.toNat := List.length_take_of_le hlen
  obtain ⟨r, hr, hd, hrest⟩ := readBits_got hok (List.take_append_drop n.toNat s.pending).symm htake
  refine ⟨r, ?_, hd.ok, hrest, htake ▸ hd.count⟩
  rw [exec_rdBits hn]
  exact run_endRead_got hr

/-- Settles O22: ReadBits drains the reader. -/
theorem rdBitsExhausted : Obligations.RdBitsExhausted := by
  unfold Obligations.RdBitsExhausted
  intro s n hok hn hlen
  obtain ⟨r, hr, hd⟩ := readBits_exhausted hok hlen
  have hcount : 8 * r.off.toNat + s.rd.cnt.toNat = 8 * s.rd.off.toNat + r.cnt.toNat + s.pending.length :=
    hd.delivers.count
  refine ⟨r, ?_, hd.cnt, hd.pending, by simpa [hd.cnt] using hcount⟩
  rw [exec_rdBits hn]
  exact run_endRead_exhausted hr

/-- Settles O25: WriteBits appends its bits when the words they complete fit. -/
theorem wrBitsAppendsField : Obligations.WrBitsAppendsField := by
  unfold Obligations.WrBitsAppendsField
  intro s n hlegal hok hn hfit
  have hlen := length_bitsOf s.arg.toNat n.toNat
  obtain ⟨o, hw, ha⟩ :=
    writeAll_done (dstCap_lt_of_legal hlegal) (bitsOf s.arg.toNat n.toNat) (o := s.output) hok (hlen.symm ▸ hfit)
  have hwrLen : o.wr.len.toNat = s.wr.len.toNat + s.wr.grown n.toNat := hlen ▸ ha.len
  refine ⟨o, ?_, ha.ok, ha.bits, hwrLen, hlen ▸ ha.cnt, fun a hout => ha.frame a (hwrLen ▸ hout)⟩
  rw [exec_wrBits hn]
  exact run_endWrite_done hw

/-- Settles O26: WriteBits stops at the first word that does not fit. -/
theorem wrBitsOverflow : Obligations.WrBitsOverflow := by
  unfold Obligations.WrBitsOverflow
  intro s n hlegal hok hn hroom hfull
  have hlen := length_bitsOf s.arg.toNat n.toNat
  obtain ⟨o, hw, ho⟩ :=
    writeAll_overflow (dstCap_lt_of_legal hlegal) (bitsOf s.arg.toNat n.toNat) (o := s.output) hok hroom (hlen.symm ▸ hfull)
  refine ⟨o, ?_, ho.len, ho.cnt, ho.bits, ho.frame⟩
  rw [exec_wrBits hn]
  exact run_endWrite_overflow hw

/-- Settles O27, by the three cases of Flush (R110). -/
theorem wrFlushPadsLastWord : Obligations.WrFlushPadsLastWord := by
  unfold Obligations.WrFlushPadsLastWord
  intro s hlegal hok
  refine ⟨fun hcnt => ?_, fun hcnt hfit => ?_, fun hcnt hfull => ?_⟩
  · have hexec := exec_wrFlush_done (s := s) (flush_empty hcnt)
    exact hexec
  · obtain ⟨dst, hw, -, hbits, hframe, -⟩ := flush_done (dstCap_lt_of_legal hlegal) (o := s.output) hok hcnt hfit
    have hexec := exec_wrFlush_done hw
    exact ⟨dst, hexec, hbits, hframe⟩
  · have hexec := exec_wrFlush_overflow (s := s) (flush_overflow hcnt hfull)
    exact hexec

end Sys2Proof.Machine
end

section
/-! SUPPORT. The reader moves only forward (40_bit_cursor.md R101): whatever RD_BUF and RD_CNT hold, no primitive but RdInit
takes RD_OFF back. -/

namespace Sys2Proof.Machine

/-- The reader that a primitive leaves, with a value or at exhaustion, stands at `off` or beyond. -/
def Read.AtLeast {α : Type} (off : Nat) : Read α → Prop
  | .got _ r => off ≤ r.off.toNat
  | .exhausted r => off ≤ r.off.toNat

theorem Read.AtLeast.andThen {α β : Type} {off : Nat} {p : Read α} {f : α → Reader → Read β} (h : p.AtLeast off)
    (hf : ∀ v r, off ≤ r.off.toNat → (f v r).AtLeast off) : (p.andThen f).AtLeast off := by
  cases p with
  | got v r => exact hf v r h
  | exhausted r => exact h

/-- A refill does not pass SRC_LEN, so RD_OFF does not wrap (R102, R103). -/
theorem refill_off_le {q : Source} {r r' : Reader} (h : refill q r = some r') : r.off.toNat ≤ r'.off.toNat := by
  have hlen := q.len.isLt
  unfold refill at h
  split at h
  · obtain rfl := Option.some.inj h
    bv_omega
  · split at h
    · obtain rfl := Option.some.inj h
      bv_omega
    · cases h

section
variable {off : Nat} {r : Reader}

theorem readBit_atLeast (q : Source) (h : off ≤ r.off.toNat) : (readBit q r).AtLeast off := by
  unfold readBit
  split
  · split
    next r' hr =>
      have hforward := refill_off_le hr
      exact h.trans hforward
    · exact h
  · exact h

theorem readBitsFrom_atLeast (q : Source) (n v : Nat) (h : off ≤ r.off.toNat) : (readBitsFrom q n v r).AtLeast off := by
  induction n generalizing v r with
  | zero => exact h
  | succ n ih => exact (readBit_atLeast q h).andThen fun _ _ h => ih _ h

theorem readBits_atLeast (q : Source) (n : Nat) (h : off ≤ r.off.toNat) : (readBits q n r).AtLeast off :=
  readBitsFrom_atLeast q n 0 h

theorem countZeros_atLeast (q : Source) (m k : Nat) (h : off ≤ r.off.toNat) : (countZeros q m k r).AtLeast off := by
  induction m generalizing k r with
  | zero => exact h
  | succ m ih =>
    refine (readBit_atLeast q h).andThen fun b r' h => ?_
    split
    · exact h
    · exact ih _ h

theorem lcDecodeSat_atLeast (q : Source) (h : off ≤ r.off.toNat) : (lcDecodeSat q r).AtLeast off := by
  have hdecode : (lcDecode q r).AtLeast off :=
    (countZeros_atLeast q _ 0 h).andThen fun k _ h => (readBits_atLeast q (k + 1) h).andThen fun _ _ h => h
  exact hdecode.andThen fun _ _ h => h

end

/-- A reading command leaves RD_OFF where its primitive does. -/
theorem off_le_of_run_endRead {s t : State} {p : State → Read Nat}
    (hp : (p s.issue).AtLeast s.rd.off.toNat) (ht : (s.run fun u => u.endRead (p u)) = .next t) :
    s.rd.off.toNat ≤ t.rd.off.toNat := by
  cases h : p s.issue with
  | got v r =>
    rw [run_endRead_got h] at ht
    obtain rfl := Host.Outcome.next.inj ht
    rwa [h] at hp
  | exhausted r =>
    rw [run_endRead_exhausted h] at ht
    obtain rfl := Host.Outcome.next.inj ht
    rwa [h] at hp

/-- Settles O23: a command that is no reader leaves RD_OFF alone, and the others use no RdInit. -/
theorem readerMovesOnlyForward : Obligations.ReaderMovesOnlyForward := by
  unfold Obligations.ReaderMovesOnlyForward
  intro i s t hstart hdecA hdecB ht
  have hself : s.rd.off.toNat ≤ s.issue.rd.off.toNat := le_rfl
  cases hi : i.usesReader with
  | false =>
    obtain ⟨-, -, -, -, -, -, hrd, -⟩ := commandsChangeOnlyTheirState i s t ht
    rw [hrd hi]
  | true =>
    cases i with
    | rdStart => exact absurd rfl hstart
    | decA => exact absurd rfl hdecA
    | decB => exact absurd rfl hdecB
    | rdBit =>
      rw [exec_rdBit] at ht
      refine off_le_of_run_endRead (Read.AtLeast.andThen ?_ fun _ _ h => h) ht
      exact readBit_atLeast s.source hself
    | rdBits n =>
      rcases Nat.lt_or_ge 32 n.toNat with hn | hn
      · rw [exec_rdBits_illegal hn] at ht
        exact Host.Outcome.next.inj ht ▸ hself
      · rw [exec_rdBits hn] at ht
        exact off_le_of_run_endRead (readBits_atLeast s.source n.toNat hself) ht
    | lcDec =>
      rw [exec_lcDec] at ht
      exact off_le_of_run_endRead (lcDecodeSat_atLeast s.source hself) ht
    | _ => cases hi

end Sys2Proof.Machine
end

section
/-! SUPPORT. A reader reads back what a writer wrote (40_bit_cursor.md R117): the bits of a writer session, padded by Flush, are
the bits a reader of the output holds. -/

namespace Sys2Proof.Machine

/-! ## The writer's session -/

@[simp] theorem Output.init_dst (o : Output) : o.init.dst = o.dst := rfl
@[simp] theorem Output.init_wr (o : Output) : o.init.wr = { len := 0#32, buf := 0#16, cnt := 0#4 } := rfl

theorem Output.init_bits (o : Output) : o.init.bits = [] := by simp [Output.bits]

theorem Output.init_wr_ok (o : Output) : o.init.wr.Ok := Nat.one_pos

/-- The bits written, when none is pending, are the bytes of DST below WR_LEN. -/
theorem Output.bits_of_empty {o : Output} (h : o.wr.cnt = 0#4) : o.bits = byteBits o.dst 0 o.wr.len.toNat := by
  simp [Output.bits, h]

/-- A list of bits written without overflow is appended. -/
theorem appends_of_writeAll_done {cap : Nat} (hcap : cap < 2 ^ 32) {l : List Bool} {o o' : Output} (h : o.wr.Ok)
    (hl : o.wr.len.toNat ≤ cap) (hw : writeAll cap l o = .done o') : Appends o l o' := by
  rcases writeAll_cases hcap l h hl with ⟨o1, hdone, ha, -⟩ | ⟨o1, hover, -⟩
  · obtain rfl := Write.done.inj (hdone.symm.trans hw)
    exact ha
  · cases hover.symm.trans hw

/-- A Flush that does not raise appends zero bits up to the end of a word (R110). -/
theorem appends_of_flush_done {cap : Nat} (hcap : cap < 2 ^ 32) {o o' : Output} (h : o.wr.Ok)
    (hf : flush cap o = .done o') : ∃ k, Appends o (List.replicate k false) o' ∧ o'.wr.cnt = 0#4 := by
  rcases flush_cases hcap h with ⟨hdone, hcnt⟩ | ⟨hover, -⟩ | ⟨o1, hdone, ha, hcnt, -⟩
  · obtain rfl := Write.done.inj (hdone.symm.trans hf)
    exact ⟨0, Appends.refl h, hcnt⟩
  · cases hover.symm.trans hf
  · obtain rfl := Write.done.inj (hdone.symm.trans hf)
    exact ⟨_, ha, hcnt⟩

/-- The bits of a sequence of fields of (value, width), in the order WriteBits writes them (R109). -/
def fieldBits (fields : List (Nat × Nat)) : List Bool := fields.flatMap fun f => bitsOf f.1 f.2

theorem length_fieldBits (fields : List (Nat × Nat)) : (fieldBits fields).length = (fields.map Prod.snd).sum := by
  simp [fieldBits, List.length_flatMap]

/-- WrInit, a sequence of WriteBits and Flush, without overflow: DST holds whole words, the bits of the fields and then
zero bits. -/
theorem byteBits_of_session {cap : Nat} (hcap : cap < 2 ^ 32) {fields : List (Nat × Nat)} {o o1 o2 : Output}
    (hw : writeFields cap fields o.init = .done o1) (hf : flush cap o1 = .done o2) :
    2 ∣ o2.wr.len.toNat ∧
    ∃ k, byteBits o2.dst 0 o2.wr.len.toNat = fieldBits fields ++ List.replicate k false := by
  rw [writeFields_eq] at hw
  have hfields : Appends o.init (fieldBits fields) o1 :=
    appends_of_writeAll_done hcap o.init_wr_ok (Nat.zero_le cap) hw
  obtain ⟨k, hpad, hcnt⟩ := appends_of_flush_done hcap hfields.ok hf
  have hall := hfields.trans hpad
  refine ⟨?_, k, ?_⟩
  · rw [hall.len]
    exact Dvd.intro _ (Nat.zero_add _).symm
  · rw [← Output.bits_of_empty hcnt, hall.bits, o.init_bits, List.nil_append]

/-! ## The reader's session -/

/-- Whole words below SRC_LEN are delivered under either ODD_TAIL_MODE (R102, R103). -/
theorem le_usableBytes {q : Source} {off n : Nat} (heven : 2 ∣ n) (h : off + n ≤ q.len.toNat) :
    n ≤ usableBytes q off := by
  unfold usableBytes
  split <;> omega

/-- A reader positioned on a copy of whole words holds their bits first. -/
theorem pendingBits_of_copy {q : Source} {a : Word} {m : Memory 8} {n : Nat} (heven : 2 ∣ n)
    (hcopy : ∀ i, i < n → q.mem.read (a.toNat + i) = m.read i) (hlen : a.toNat + n ≤ q.len.toNat) :
    ∃ rest, pendingBits q (Reader.init a) = byteBits m 0 n ++ rest := by
  have hbytes : byteBits q.mem a.toNat n = byteBits m 0 n :=
    byteBits_congr fun i hi => by rw [hcopy i hi, Nat.zero_add]
  obtain ⟨k, hk⟩ := Nat.exists_eq_add_of_le (le_usableBytes heven hlen)
  exact ⟨_, by rw [pendingBits_init, hk, byteBits_add, hbytes]⟩

/-- ReadBits of the widths of fields whose bits are the next ones (R105). -/
theorem readFields_got {q : Source} (fields : List (Nat × Nat)) {r : Reader} (h : r.Ok) {rest : List Bool}
    (hp : pendingBits q r = fieldBits fields ++ rest) :
    ∃ r', readFields q (fields.map Prod.snd) r = .got (fields.map fun f => f.1 % 2 ^ f.2) r' ∧
      pendingBits q r' = rest := by
  induction fields generalizing r with
  | nil => exact ⟨r, rfl, hp⟩
  | cons f fields ih =>
    rw [fieldBits, List.flatMap_cons, List.append_assoc] at hp
    obtain ⟨r1, hr1, hd1, hp1⟩ := readBits_got h hp (length_bitsOf f.1 f.2)
    obtain ⟨r2, hr2, hp2⟩ := ih hd1.ok hp1
    refine ⟨r2, ?_, hp2⟩
    simp only [List.map_cons, readFields, hr1, hr2, Read.andThen_got, natOfBits_bitsOf]

/-- Settles O28: the reader's pending bits are the fields, then the zero bits of Flush, then whatever SRC holds next. -/
theorem readerReadsBackWriter : Obligations.ReaderReadsBackWriter := by
  unfold Obligations.ReaderReadsBackWriter
  intro cap fields o o1 o2 q a hcap hw hf hcopy hlen
  obtain ⟨heven, k, hbits⟩ := byteBits_of_session hcap hw hf
  obtain ⟨rest, hpending⟩ := pendingBits_of_copy heven hcopy hlen
  rw [hbits, List.append_assoc] at hpending
  obtain ⟨r, hread, hrest⟩ := readFields_got fields (Reader.ok_init a) hpending
  have hk : 8 * o2.wr.len.toNat - (fields.map Prod.snd).sum = k := by
    have hlength := congrArg List.length hbits
    rw [length_byteBits, List.length_append, List.length_replicate, length_fieldBits] at hlength
    omega
  refine ⟨r, hread, ?_⟩
  rw [hrest, hk, List.take_left' List.length_replicate]

end Sys2Proof.Machine
end

section
/-! SUPPORT. The zero counts of the Length Code (41_length_code.md R132, R134), and its symbol as a sequence of fields (R135). -/

namespace Sys2Proof.Machine

/-- LcK takes the first zero count whose range ends above the value (R134). -/
theorem lcK_le_of_lt {len k : Nat} (h : len < 2 ^ (k + 2) - 2) : lcK len ≤ k := by
  have hlow := (lcK_range len).1
  have hpow : 2 ^ (lcK len + 1) < 2 ^ (k + 2) := by omega
  have hexp := (Nat.pow_lt_pow_iff_right (a := 2) (by norm_num)).1 hpow
  omega

/-- The ranges of R132 do not overlap. -/
theorem eq_lcK_of_range {len k : Nat} (hlow : 2 ^ (k + 1) - 2 ≤ len) (hhigh : len < 2 ^ (k + 2) - 2) : k = lcK len := by
  have hv : len - (2 ^ (k + 1) - 2) < 2 ^ (k + 1) := by
    rw [pow_succ 2 (k + 1)] at hhigh
    omega
  have hk := lcK_symbol hv
  rw [Nat.add_sub_cancel' hlow] at hk
  exact hk.symm

/-- A 32-bit length has a symbol of at most 64 bits. -/
theorem lcK_le_31 {len : Nat} (h : len < 2 ^ 32) : lcK len ≤ 31 := lcK_le_of_lt (by omega)

/-- The symbol of a value as the fields (value, width) that LcEncode writes (R135). -/
def lcFields (len : Nat) : List (Nat × Nat) :=
  [(0, lcK len), (1, 1), (len - (2 ^ (lcK len + 1) - 2), lcK len + 1)]

@[simp] theorem fieldBits_lcFields (len : Nat) : fieldBits (lcFields len) = lcBits len := by
  simp [fieldBits, lcFields, lcBits, lcSymbol, bitsOf_zero_eq_replicate, bitsOf_succ]

theorem writeFields_lcFields (cap len : Nat) (o : Output) :
    writeFields cap (lcFields len) o = writeAll cap (lcBits len) o := by
  rw [writeFields_eq, ← fieldBits_lcFields]
  rfl

end Sys2Proof.Machine
end

section
/-! SUPPORT. The commands of the Length Code: LC_ENC and LC_DEC (41_length_code.md R131 to R138). -/

namespace Sys2Proof.Machine

section
variable {s : State}

/-- LC_ENC writes the symbol of ARG (R135, R138). -/
theorem exec_lcEnc :
    exec .lcEnc s = s.run fun u => u.endWrite (writeAll u.cfg.dstCap (lcBits u.arg.toNat) u.output) := by
  simp only [← lcEncode_eq]
  rfl

theorem exec_lcEnc_done {o : Output} (h : writeAll s.cfg.dstCap (lcBits s.arg.toNat) s.output = .done o) :
    exec .lcEnc s = .next (s.setOutput o).ended := by
  rw [exec_lcEnc]
  exact run_endWrite_done h

theorem exec_lcEnc_overflow {o : Output} (h : writeAll s.cfg.dstCap (lcBits s.arg.toNat) s.output = .overflow o) :
    exec .lcEnc s = .next ((s.setOutput o).failed .outputOverflow) := by
  rw [exec_lcEnc]
  exact run_endWrite_overflow h

/-- LC_DEC of a reader whose bits start with the symbol of a value (R133, R137). -/
theorem exec_lcDec_lcBits {len : Nat} {rest : List Bool} (hok : s.rd.Ok) (hp : s.pending = lcBits len ++ rest) :
    ∃ r, exec .lcDec s = .next { s with rd := r, result := toWord (min len (2 ^ 32 - 1)) }.ended ∧
      Delivers s.source s.rd (lcBits len) r ∧ pendingBits s.source r = rest := by
  obtain ⟨r, hr, hdelivers, hrest⟩ := lcDecodeSat_lcBits hok hp
  refine ⟨r, ?_, hdelivers, hrest⟩
  rw [exec_lcDec]
  exact run_endRead_got hr

end

/-- Settles O29: the range of LcK (R132), its minimality and that the ranges do not overlap (R134). -/
theorem lcKIsTheRangeOfItsValue : Obligations.LcKIsTheRangeOfItsValue := by
  unfold Obligations.LcKIsTheRangeOfItsValue
  intro len
  obtain ⟨hlow, hhigh⟩ := lcK_range len
  exact ⟨hlow, hhigh, fun k => ⟨lcK_le_of_lt, eq_lcK_of_range⟩⟩

/-- Settles O30: LcEncode writes the bits of a symbol, which all fit or stop at the first word that does not. -/
theorem lcEncWritesSymbol : Obligations.LcEncWritesSymbol := by
  unfold Obligations.LcEncWritesSymbol
  intro s k v hlegal hok hv harg
  have hcap := dstCap_lt_of_legal hlegal
  have hbits : lcBits s.arg.toNat = lcSymbol k v := by rw [harg, lcBits_symbol hv]
  have hlen := length_lcSymbol k v
  refine ⟨fun hfit => ?_, fun hroom hfull => ?_⟩
  · obtain ⟨o, hw, ha⟩ := writeAll_done hcap (lcSymbol k v) (o := s.output) hok (hlen.symm ▸ hfit)
    have hwrLen : o.wr.len.toNat = s.wr.len.toNat + s.wr.grown (2 * k + 2) := hlen ▸ ha.len
    exact ⟨o, exec_lcEnc_done (hbits ▸ hw), ha.ok, ha.bits, hwrLen, fun a hout => ha.frame a (hwrLen ▸ hout)⟩
  · obtain ⟨o, hw, ho⟩ := writeAll_overflow hcap (lcSymbol k v) (o := s.output) hok hroom (hlen.symm ▸ hfull)
    exact ⟨o, exec_lcEnc_overflow (hbits ▸ hw), ho.len, ho.cnt, ho.bits, ho.frame⟩

/-- Settles O31: a symbol is the symbol of its value, which LC_DEC reads. -/
theorem lcDecReadsSymbol : Obligations.LcDecReadsSymbol := by
  unfold Obligations.LcDecReadsSymbol
  intro s k v rest hok hv hp
  rw [← lcBits_symbol hv] at hp
  obtain ⟨r, hexec, hdelivers, hrest⟩ := exec_lcDec_lcBits hok hp
  have hlen : (lcBits (2 ^ (k + 1) - 2 + v)).length = 2 * k + 2 := by rw [length_lcBits, lcK_symbol hv]
  exact ⟨r, hexec, hdelivers.ok, hrest, hlen ▸ hdelivers.count⟩

/-- Settles O32: LcDecode drains a reader that holds no whole symbol. -/
theorem lcDecExhausted : Obligations.LcDecExhausted := by
  unfold Obligations.LcDecExhausted
  intro s hok hnone
  obtain ⟨r, hr, hdrains⟩ := lcDecodeSat_exhausted hok hnone
  have hcount : 8 * r.off.toNat + s.rd.cnt.toNat = 8 * s.rd.off.toNat + r.cnt.toNat + s.pending.length :=
    hdrains.delivers.count
  refine ⟨r, ?_, hdrains.cnt, hdrains.pending, by simpa [hdrains.cnt] using hcount⟩
  rw [exec_lcDec]
  exact run_endRead_exhausted hr

end Sys2Proof.Machine
end

section
/-! SUPPORT. The Length Code read back (41_length_code.md R136): the longest symbol fits in a fresh output, and LC_DEC of a copy of
that output gives the length. -/

namespace Sys2Proof.Machine

/-- Flush does not raise while one more word fits (R110). -/
theorem exists_flush_done {cap : Nat} (hcap : cap < 2 ^ 32) {o : Output} (hok : o.wr.Ok)
    (hfit : o.wr.len.toNat + 2 ≤ cap) :
    ∃ o', flush cap o = .done o' := by
  rcases flush_cases hcap hok with ⟨hdone, -⟩ | ⟨-, -, hfull⟩ | ⟨o', hdone, -⟩
  · exact ⟨o, hdone⟩
  · omega
  · exact ⟨o', hdone⟩

/-- The symbol of a 32-bit length and the Flush after it fit in a fresh output of ten bytes. -/
theorem exists_lcBits_flush_done {cap len : Nat} (hcap : cap < 2 ^ 32) (hroom : 10 ≤ cap) (hlen : len < 2 ^ 32)
    (o : Output) :
    ∃ o1 o2, writeAll cap (lcBits len) o.init = .done o1 ∧ flush cap o1 = .done o2 := by
  have hk := lcK_le_31 hlen
  have hgrown : o.init.wr.len.toNat + o.init.wr.grown (lcBits len).length ≤ 8 := by
    simp only [length_lcBits, Writer.grown, Output.init_wr, BitVec.toNat_zero]
    omega
  obtain ⟨o1, hw, happends⟩ := writeAll_done hcap (lcBits len) o.init_wr_ok (by omega)
  have hlen1 := happends.len
  obtain ⟨o2, hf⟩ := exists_flush_done hcap happends.ok (by omega)
  exact ⟨o1, o2, hw, hf⟩

/-- LC_DEC at the start of a copy of whole words that begin with the symbol of a 32-bit length gives the length. -/
theorem exec_lcDec_of_copy {x : State} {m : Memory 8} {w : Word} {pad : List Bool} (hrd : x.rd = Reader.init 0#32)
    (heven : 2 ∣ x.srcLen.toNat) (hcopy : ∀ a, a < x.srcLen.toNat → x.mem.src.read a = m.read a)
    (hbits : byteBits m 0 x.srcLen.toNat = lcBits w.toNat ++ pad) :
    ∃ y, exec .lcDec x = .next y ∧ y.trunc = false ∧ y.result = w := by
  obtain ⟨rest, hpending⟩ := pendingBits_of_copy (q := x.source) (a := 0#32) (m := m) heven
    (fun i hi => by rw [BitVec.toNat_zero, Nat.zero_add]; exact hcopy i hi) (by simp [State.source])
  rw [hbits, List.append_assoc, ← hrd] at hpending
  obtain ⟨r, hexec, -⟩ := exec_lcDec_lcBits (hrd ▸ Reader.ok_init 0#32) hpending
  have hmin : min w.toNat (2 ^ 32 - 1) = w.toNat := min_eq_left (Nat.le_pred_of_lt w.isLt)
  rw [hmin, toWord, BitVec.ofNat_toNat, BitVec.setWidth_eq] at hexec
  exact ⟨_, hexec, rfl, rfl⟩

/-- Settles O33: the output holds the symbol of ARG and then zero bits, so LC_DEC reads that symbol first. -/
theorem lengthCodeRoundTrip : Obligations.LengthCodeRoundTrip := by
  unfold Obligations.LengthCodeRoundTrip
  intro s hlegal hfresh
  have hcap := dstCap_lt_of_legal hlegal
  have hroom : 10 ≤ s.cfg.dstCap := by
    obtain ⟨-, ⟨hdst, -⟩, -⟩ := hlegal
    omega
  have hinit : s.output.init = s.output := by simp only [State.output, Output.init, hfresh]
  obtain ⟨o1, o2, hw, hf⟩ := exists_lcBits_flush_done hcap hroom s.arg.isLt s.output
  obtain ⟨heven, n, hbits⟩ := byteBits_of_session hcap ((writeFields_lcFields ..).trans hw) hf
  rw [fieldBits_lcFields] at hbits
  rw [hinit] at hw
  refine ⟨_, _, exec_lcEnc_done hw, rfl, exec_wrFlush_done (s := (s.setOutput o1).ended) hf, rfl, ?_⟩
  intro x hsrcLen hrd hcopy
  have hlen : o2.wr.len = x.srcLen := hsrcLen.symm
  rw [hlen] at heven hbits
  exact exec_lcDec_of_copy hrd heven (hsrcLen ▸ hcopy) hbits

end Sys2Proof.Machine
end

section
/-! SUPPORT. The conventions of the Palette Codec on one entry (42_palette.md R150 to R157): the channels that a decode gives, the
bytes that an encode gives, and that a decode undoes an encode of an expressible entry. -/

namespace Sys2Proof.Machine

/-- The entry that four channels make, as a number (10_state.md R41). -/
theorem rgba_eq_ofNat (r g b a : Byte) :
    rgba r g b a = BitVec.ofNat 32 (2 ^ 24 * r.toNat + 2 ^ 16 * g.toNat + 2 ^ 8 * b.toNat + a.toNat) := by
  have hr := r.isLt
  have ha := a.isLt
  refine BitVec.eq_of_toNat_eq ?_
  rw [rgba, BitVec.toNat_append, BitVec.toNat_append, BitVec.toNat_append, ← Nat.shiftLeft_add_eq_or_of_lt g.isLt,
    ← Nat.shiftLeft_add_eq_or_of_lt b.isLt, ← Nat.shiftLeft_add_eq_or_of_lt ha, BitVec.toNat_ofNat]
  simp only [Nat.shiftLeft_eq]
  omega

theorem alphaOfEntry_toNat (i : Nat) : (alphaOfEntry i).toNat = if i = 0 then 0 else 255 :=
  apply_ite BitVec.toNat ..

/-! ## Convention A -/

/-- A byte of two nibbles as a number. -/
theorem byteA_toNat (hi lo : BitVec 4) : (hi ++ lo : Byte).toNat = 16 * hi.toNat + lo.toNat := by
  rw [BitVec.toNat_append, ← Nat.shiftLeft_add_eq_or_of_lt lo.isLt, Nat.shiftLeft_eq]
  omega

/-- A decode under convention A reads the nibbles where an encode puts them (R150, R154). -/
theorem decodeEntryA_nibbles (z r g b : BitVec 4) (i : Nat) :
    decodeEntryA (z ++ b) (g ++ r) i = rgba (levelA r) (levelA g) (levelA b) (alphaOfEntry i) := by
  rw [decodeEntryA, BitVec.extractLsb'_append_eq_right, BitVec.extractLsb'_append_eq_right,
    BitVec.extractLsb'_append_eq_left]

/-- Rounding gives back the nibble of a multiple of 17 (R157). -/
theorem nibA_levelA (n : BitVec 4) : nibA (levelA n) = n := by
  refine BitVec.eq_of_toNat_eq ?_
  rw [nibA_toNat, levelA_toNat]
  omega

/-- The entries expressible under convention A: channels that are multiples of 17, the alpha of R153 (R157). -/
def ExpressibleA (e : Word) (i : Nat) : Prop :=
  ∃ r g b : BitVec 4, e = rgba (levelA r) (levelA g) (levelA b) (alphaOfEntry i)

theorem expressibleA_ofNat {r g b : Nat} (hr : r < 16) (hg : g < 16) (hb : b < 16) (i : Nat) :
    ExpressibleA (BitVec.ofNat 32
      (2 ^ 24 * (17 * r) + 2 ^ 16 * (17 * g) + 2 ^ 8 * (17 * b) + (if i = 0 then 0 else 255))) i := by
  refine ⟨BitVec.ofNat 4 r, BitVec.ofNat 4 g, BitVec.ofNat 4 b, ?_⟩
  simp only [rgba_eq_ofNat, levelA_toNat, alphaOfEntry_toNat, BitVec.toNat_ofNat, Nat.mod_eq_of_lt hr, Nat.mod_eq_of_lt hg,
    Nat.mod_eq_of_lt hb]

/-- A decode of an encode under convention A gives an expressible entry back (R157). -/
theorem decodeEntryA_encode {e : Word} {i : Nat} (h : ExpressibleA e i) :
    decodeEntryA (0#4 ++ nibA (blueOf e)) (nibA (greenOf e) ++ nibA (redOf e)) i = e := by
  obtain ⟨r, g, b, rfl⟩ := h
  obtain ⟨hr, hg, hb, -⟩ := rgba_channels (levelA r) (levelA g) (levelA b) (alphaOfEntry i)
  rw [decodeEntryA_nibbles, hr, hg, hb, nibA_levelA, nibA_levelA, nibA_levelA]

/-! ## Convention B -/

/-- The eight levels of R152's table. -/
theorem levelB_eq_getD (f : BitVec 3) : (levelB f).toNat = [0, 36, 73, 109, 146, 182, 219, 255].getD f.toNat 0 := by
  revert f
  decide

/-- The fields of the convention B word in its two bytes: bits 3:1 and 7:5 of the second, bits 3:1 of the first (R151). -/
theorem decodeEntryB_bytes (b0 b1 : Byte) (i : Nat) :
    decodeEntryB b0 b1 i =
      rgba (levelB (b1.extractLsb' 1 3)) (levelB (b1.extractLsb' 5 3)) (levelB (b0.extractLsb' 1 3)) (alphaOfEntry i) := by
  rw [decodeEntryB, BitVec.extractLsb'_append_eq_of_add_le (by decide), BitVec.extractLsb'_append_eq_of_add_le (by decide),
    BitVec.extractLsb'_append_eq_of_le (by decide)]

/-- The bytes of the convention B word as numbers (R151). -/
theorem bytesB_toNat (mode : PalBEncMode) (e : Word) :
    ((wordB mode e).extractLsb' 8 8).toNat = 2 * (quantB mode (blueOf e)).toNat ∧
    ((wordB mode e).extractLsb' 0 8).toNat
      = 2 ^ 5 * (quantB mode (greenOf e)).toNat + 2 * (quantB mode (redOf e)).toNat := by
  simp only [BitVec.extractLsb'_toNat, Nat.shiftRight_eq_div_pow, wordB_toNat]
  omega

/-- A field of a byte by its value. -/
theorem extractLsb'_eq_of_toNat {b : Byte} {k : Nat} {f : BitVec 3} (h : b.toNat / 2 ^ k % 2 ^ 3 = f.toNat) :
    b.extractLsb' k 3 = f := by
  refine BitVec.eq_of_toNat_eq ?_
  rw [BitVec.extractLsb'_toNat, Nat.shiftRight_eq_div_pow, h]

/-- A decode under convention B reads the fields where an encode puts them (R151). -/
theorem decodeEntryB_wordB (mode : PalBEncMode) (e : Word) (i : Nat) :
    decodeEntryB ((wordB mode e).extractLsb' 8 8) ((wordB mode e).extractLsb' 0 8) i =
      rgba (levelB (quantB mode (redOf e))) (levelB (quantB mode (greenOf e))) (levelB (quantB mode (blueOf e)))
        (alphaOfEntry i) := by
  obtain ⟨hhigh, hlow⟩ := bytesB_toNat mode e
  have hred : ((wordB mode e).extractLsb' 0 8).extractLsb' 1 3 = quantB mode (redOf e) :=
    extractLsb'_eq_of_toNat (by omega)
  have hgreen : ((wordB mode e).extractLsb' 0 8).extractLsb' 5 3 = quantB mode (greenOf e) :=
    extractLsb'_eq_of_toNat (by omega)
  have hblue : ((wordB mode e).extractLsb' 8 8).extractLsb' 1 3 = quantB mode (blueOf e) :=
    extractLsb'_eq_of_toNat (by omega)
  rw [decodeEntryB_bytes, hred, hgreen, hblue]

/-- Both rules of R155 give back the field of one of the eight levels (R157). -/
theorem quantB_levelB (mode : PalBEncMode) (f : BitVec 3) : quantB mode (levelB f) = f := by
  cases mode with
  | round => revert f; decide
  | top3 => revert f; decide

/-- The entries expressible under convention B: channels among the eight levels, the alpha of R153 (R157). -/
def ExpressibleB (e : Word) (i : Nat) : Prop :=
  ∃ r g b : BitVec 3, e = rgba (levelB r) (levelB g) (levelB b) (alphaOfEntry i)

theorem expressibleB_ofNat {r g b : Nat} (hr : r < 8) (hg : g < 8) (hb : b < 8) (i : Nat) :
    ExpressibleB (BitVec.ofNat 32
      (2 ^ 24 * ((255 * r + 3) / 7) + 2 ^ 16 * ((255 * g + 3) / 7) + 2 ^ 8 * ((255 * b + 3) / 7)
        + (if i = 0 then 0 else 255))) i := by
  refine ⟨BitVec.ofNat 3 r, BitVec.ofNat 3 g, BitVec.ofNat 3 b, ?_⟩
  simp only [rgba_eq_ofNat, levelB_toNat, alphaOfEntry_toNat, BitVec.toNat_ofNat, Nat.mod_eq_of_lt hr, Nat.mod_eq_of_lt hg,
    Nat.mod_eq_of_lt hb]

/-- A decode of an encode under convention B gives an expressible entry back, under either rule (R157). -/
theorem decodeEntryB_encode (mode : PalBEncMode) {e : Word} {i : Nat} (h : ExpressibleB e i) :
    decodeEntryB ((wordB mode e).extractLsb' 8 8) ((wordB mode e).extractLsb' 0 8) i = e := by
  obtain ⟨r, g, b, rfl⟩ := h
  obtain ⟨hr, hg, hb, -⟩ := rgba_channels (levelB r) (levelB g) (levelB b) (alphaOfEntry i)
  rw [decodeEntryB_wordB, hr, hg, hb, quantB_levelB, quantB_levelB, quantB_levelB]

end Sys2Proof.Machine
end

section
/-! SUPPORT. The commands of the Palette Codec on a whole table: PAL_DEC_A, PAL_DEC_B, PAL_ENC_A and PAL_ENC_B
(42_palette.md R159 to R162), and their round trips (R157). -/

namespace Sys2Proof.Machine

section
variable (s : State)

theorem exec_palDecA : exec .palDecA s = .next (s.decodePalette decodeEntryA).ended := rfl
theorem exec_palDecB : exec .palDecB s = .next (s.decodePalette decodeEntryB).ended := rfl
theorem exec_palEncA : exec .palEncA s = .next (s.encodePalette encodeEntryA).ended := rfl
theorem exec_palEncB : exec .palEncB s = .next (s.encodePalette (encodeEntryB s.cfg.palBEnc)).ended := rfl

variable (dec : Byte → Byte → Nat → Word) {i : Nat}

theorem State.read_decodePalette_below (hi : i < 16) :
    (s.decodePalette dec).mem.palram.read i = dec (s.mem.palb.read (2 * i)) (s.mem.palb.read (2 * i + 1)) i := by
  rw [State.read_decodePalette, if_pos hi]

theorem State.read_decodePalette_above (hi : 16 ≤ i) :
    (s.decodePalette dec).mem.palram.read i = s.mem.palram.read i := by
  rw [State.read_decodePalette, if_neg (Nat.not_lt.2 hi)]

/-- A table whose entries a decode of their encodes gives back survives the two commands (R157). -/
theorem State.read_decodePalette_encodePalette (f g : Word → Byte)
    (h : ∀ i, i < 16 → dec (f (s.mem.palram.read i)) (g (s.mem.palram.read i)) i = s.mem.palram.read i) (i : Nat) :
    ((s.encodePalette fun e => [f e, g e]).ended.decodePalette dec).mem.palram.read i = s.mem.palram.read i := by
  rcases Nat.lt_or_ge i 16 with hi | hi
  · obtain ⟨hfirst, hsecond⟩ := s.read_encodePalette f g i hi
    rw [State.read_decodePalette_below _ _ hi, State.ended_mem, hfirst, hsecond, h i hi]
  · rw [State.read_decodePalette_above _ _ hi]
    rfl

end

/-- Settles O34: the four channels of an entry under convention A. -/
theorem palDecADecodesNibbles : Obligations.PalDecADecodesNibbles := by
  unfold Obligations.PalDecADecodesNibbles
  refine fun s => ⟨(s.decodePalette decodeEntryA).mem.palram, exec_palDecA s, fun i hi => ?_,
    fun i hi => s.read_decodePalette_above _ hi⟩
  obtain ⟨hr, hg, hb, ha⟩ := rgba_channels (levelA ((s.mem.palb.read (2 * i + 1)).extractLsb' 0 4))
    (levelA ((s.mem.palb.read (2 * i + 1)).extractLsb' 4 4)) (levelA ((s.mem.palb.read (2 * i)).extractLsb' 0 4))
    (alphaOfEntry i)
  rw [s.read_decodePalette_below _ hi, ← levelA_toNat, ← levelA_toNat, ← levelA_toNat]
  exact ⟨congrArg BitVec.toNat hr, congrArg BitVec.toNat hg, congrArg BitVec.toNat hb, ha⟩

/-- Settles O35: the four channels of an entry under convention B, each field within one byte. -/
theorem palDecBDecodesLevels : Obligations.PalDecBDecodesLevels := by
  unfold Obligations.PalDecBDecodesLevels
  refine fun s => ⟨(s.decodePalette decodeEntryB).mem.palram, exec_palDecB s, fun i hi => ?_,
    fun i hi => s.read_decodePalette_above _ hi⟩
  obtain ⟨hr, hg, hb, ha⟩ := rgba_channels (levelB ((s.mem.palb.read (2 * i + 1)).extractLsb' 1 3))
    (levelB ((s.mem.palb.read (2 * i + 1)).extractLsb' 5 3)) (levelB ((s.mem.palb.read (2 * i)).extractLsb' 1 3))
    (alphaOfEntry i)
  rw [s.read_decodePalette_below _ hi, decodeEntryB_bytes, ← levelB_eq_getD, ← levelB_eq_getD, ← levelB_eq_getD]
  exact ⟨congrArg BitVec.toNat hr, congrArg BitVec.toNat hg, congrArg BitVec.toNat hb, ha⟩

/-- Settles O36: the two bytes of an entry under convention A. -/
theorem palEncARoundsToNibbles : Obligations.PalEncARoundsToNibbles := by
  unfold Obligations.PalEncARoundsToNibbles
  refine fun s => ⟨(s.encodePalette encodeEntryA).mem.palb, exec_palEncA s, fun i hi => ?_,
    fun a ha => s.read_encodePalette_above _ _ a ha⟩
  obtain ⟨hfirst, hsecond⟩ := s.read_encodePalette (fun e => 0#4 ++ nibA (blueOf e))
    (fun e => nibA (greenOf e) ++ nibA (redOf e)) i hi
  refine ⟨(congrArg BitVec.toNat hfirst).trans ?_, (congrArg BitVec.toNat hsecond).trans ?_⟩
  · rw [byteA_toNat, nibA_toNat, BitVec.toNat_zero, Nat.mul_zero, Nat.zero_add, blueOf]
  · rw [byteA_toNat, nibA_toNat, nibA_toNat, greenOf, redOf]

/-- Settles O37: the two bytes of an entry under convention B. -/
theorem palEncBQuantizes : Obligations.PalEncBQuantizes := by
  unfold Obligations.PalEncBQuantizes
  refine fun s => ⟨(s.encodePalette (encodeEntryB s.cfg.palBEnc)).mem.palb, exec_palEncB s, fun i hi => ?_,
    fun a ha => s.read_encodePalette_above _ _ a ha⟩
  obtain ⟨hfirst, hsecond⟩ := s.read_encodePalette (fun e => (wordB s.cfg.palBEnc e).extractLsb' 8 8)
    (fun e => (wordB s.cfg.palBEnc e).extractLsb' 0 8) i hi
  obtain ⟨hhigh, hlow⟩ := bytesB_toNat s.cfg.palBEnc (s.mem.palram.read i)
  simp only [quantB_toNat] at hhigh hlow
  exact ⟨(congrArg BitVec.toNat hfirst).trans hhigh, (congrArg BitVec.toNat hsecond).trans hlow⟩

/-- Settles O38: every entry of the table is expressible under convention A. -/
theorem paletteRoundTripA : Obligations.PaletteRoundTripA := by
  unfold Obligations.PaletteRoundTripA
  intro s htable
  have hexpressible : ∀ i, i < 16 → ExpressibleA (s.mem.palram.read i) i := fun i hi => by
    obtain ⟨r, g, b, hr, hg, hb, he⟩ := htable i hi
    exact he ▸ expressibleA_ofNat hr hg hb i
  exact ⟨_, _, exec_palEncA s, exec_palDecA _, rfl,
    s.read_decodePalette_encodePalette _ _ _ fun i hi => decodeEntryA_encode (hexpressible i hi)⟩

/-- Settles O39: every entry of the table is expressible under convention B. -/
theorem paletteRoundTripB : Obligations.PaletteRoundTripB := by
  unfold Obligations.PaletteRoundTripB
  intro s htable
  have hexpressible : ∀ i, i < 16 → ExpressibleB (s.mem.palram.read i) i := fun i hi => by
    obtain ⟨r, g, b, hr, hg, hb, he⟩ := htable i hi
    exact he ▸ expressibleB_ofNat hr hg hb i
  exact ⟨_, _, exec_palEncB s, exec_palDecB _, rfl,
    s.read_decodePalette_encodePalette _ _ _ fun i hi => decodeEntryB_encode _ (hexpressible i hi)⟩

end Sys2Proof.Machine
end

section
/-! SUPPORT. RENDER (42_palette.md R163, R164): its three endings, the bytes of a pixel, and what DST reads as after it. -/

namespace Sys2Proof.Machine

/-! ## How RENDER ends -/

/-- The state with the image of PIX at the start of DST, and the writer and RESULT set to its length (R164). -/
def State.rendered (s : State) : State :=
  { s with mem := { s.mem with dst := s.mem.dst.writeList 0 (s.renderBytes s.imageSize) },
           wr := Writer.whole (4 * s.imageSize), result := toWord (4 * s.imageSize) }

/-- RENDER makes both checks before any write (R164; 60_exceptions.md R280, R282). -/
theorem exec_render (s : State) :
    exec .render s = .next (
      if s.cfg.pixCap < s.imageSize then s.failed .capacityExceeded
      else if s.cfg.dstCap < 4 * s.imageSize then s.failed .outputOverflow
      else s.rendered.ended) := by
  unfold exec execRender
  split_ifs with hpix hdst
  · refine State.run_of (t := s.issue) (e := .raised .capacityExceeded) ?_
    exact if_pos hpix
  · refine State.run_of (t := s.issue) (e := .raised .outputOverflow) ?_
    exact (if_neg hpix).trans (if_pos hdst)
  · refine State.run_of (t := s.issue.rendered) (e := .normal) ?_
    exact (if_neg hpix).trans (if_neg hdst)

/-! ## The image -/

/-- An entry of a list of blocks of one length laid end to end. -/
theorem getD_flatMap_blocks {α β : Type} {f : α → List β} {n : Nat} (hf : ∀ x, (f x).length = n) (l : List α) (d : β)
    {i k : Nat} (hi : i < l.length) (hk : k < n) : (l.flatMap f).getD (n * i + k) d = (f l[i]).getD k d := by
  induction l generalizing i with
  | nil => cases hi
  | cons x l ih =>
    rw [List.flatMap_cons]
    cases i with
    | zero =>
      rw [Nat.mul_zero, Nat.zero_add, List.getD_append _ _ _ _ (hf x ▸ hk)]
      rfl
    | succ i =>
      have hblock : n * (i + 1) + k = (f x).length + (n * i + k) := by rw [hf, Nat.mul_succ]; omega
      rw [hblock, List.getD_append_right _ _ _ _ (Nat.le_add_right ..), Nat.add_sub_cancel_left,
        ih (Nat.lt_of_succ_lt_succ hi)]
      rfl

/-- Index 0 keeps the colour of PALRAM[0] and has alpha 0; any other index is its entry (R163). -/
theorem State.channels_color (s : State) (p : Pixel) :
    channels (s.color p) = [redOf (s.mem.palram.read p.toNat), greenOf (s.mem.palram.read p.toNat),
      blueOf (s.mem.palram.read p.toNat), if p = 0#4 then 0x00#8 else alphaOf (s.mem.palram.read p.toNat)] := by
  unfold State.color
  split
  next hp =>
    subst hp
    obtain ⟨hr, hg, hb, ha⟩ := rgba_channels (redOf (s.mem.palram.read 0)) (greenOf (s.mem.palram.read 0))
      (blueOf (s.mem.palram.read 0)) 0x00#8
    rw [channels, hr, hg, hb, ha]
    rfl
  next => rfl

/-- The bytes of a pixel in DST after RENDER (R164). -/
theorem State.read_rendered (s : State) {i k : Nat} (hi : i < s.imageSize) (hk : k < 4) :
    s.rendered.mem.dst.read (4 * i + k) = (channels (s.color (s.mem.pix.read i))).getD k 0#8 := by
  have hrange : i < (List.range s.imageSize).length := List.length_range.symm ▸ hi
  have hpixel : (s.renderBytes s.imageSize).getD (4 * i + k) 0#8
      = (channels (s.color (s.mem.pix.read (List.range s.imageSize)[i]))).getD k 0#8 :=
    getD_flatMap_blocks (f := fun j => channels (s.color (s.mem.pix.read j))) (fun _ => rfl) _ _ hrange hk
  rw [State.rendered, Memory.read_writeList, s.length_renderBytes, if_pos (by omega), Nat.sub_zero, hpixel,
    List.getElem_range]

/-- DST beyond the image is unchanged (R164). -/
theorem State.read_rendered_above (s : State) {a : Nat} (ha : 4 * s.imageSize ≤ a) :
    s.rendered.mem.dst.read a = s.mem.dst.read a := by
  rw [State.rendered, Memory.read_writeList, s.length_renderBytes, if_neg (by omega)]

/-- Settles O40: the four channels of each pixel's colour, in order. -/
theorem renderWritesRgba : Obligations.RenderWritesRgba := by
  unfold Obligations.RenderWritesRgba
  intro s _ hpix hdst
  refine ⟨s.rendered.mem.dst, ?_, fun i hi => ?_, fun a ha => s.read_rendered_above ha⟩
  · exact (exec_render s).trans (congrArg _ ((if_neg (Nat.not_lt.2 hpix)).trans (if_neg (Nat.not_lt.2 hdst))))
  · have hbyte {k : Nat} (hk : k < 4) := s.read_rendered hi hk
    simp only [s.channels_color] at hbyte
    exact ⟨hbyte (k := 0) (by decide), hbyte (k := 1) (by decide), hbyte (k := 2) (by decide), hbyte (k := 3) (by decide)⟩

/-- Settles O41. -/
theorem renderRefusesLargeImages : Obligations.RenderRefusesLargeImages := by
  unfold Obligations.RenderRefusesLargeImages
  refine fun s => ⟨fun hpix => ?_, fun hpix hdst => ?_⟩
  · exact (exec_render s).trans (congrArg _ (if_pos hpix))
  · exact (exec_render s).trans (congrArg _ ((if_neg (Nat.not_lt.2 hpix)).trans (if_pos hdst)))

end Sys2Proof.Machine
end

section
/-! SUPPORT. What DEC_A and DEC_B share (43_decoder.md R181 to R183, R194): the state each leaves, the image over a cleared one,
and the account of the bits taken. -/

namespace Sys2Proof.Machine

/-! ## The state a decode leaves -/

/-- The state after a decode whose body came to `out`, with the image's dimensions (R184, R195). -/
def State.decoded (s : State) (width height : BitVec 16) (out : Ending × Canvas) : State :=
  State.finish { s.issue.setCanvas out.2 with imgW := width, imgH := height } out.1

section
variable (s : State) (w h : BitVec 16) (c : Canvas)

@[simp] theorem State.decoded_normal : s.decoded w h (.normal, c) =
    { s with rd := c.rd, mem := { s.mem with pix := c.pix }, imgW := w, imgH := h }.ended := rfl

@[simp] theorem State.decoded_truncated : s.decoded w h (.truncated, c) =
    { s with rd := c.rd, mem := { s.mem with pix := c.pix }, imgW := w, imgH := h }.cutShort := rfl

@[simp] theorem State.decoded_raised (e : Failure) : s.decoded w h (.raised e, c) =
    { s with rd := c.rd, mem := { s.mem with pix := c.pix }, imgW := w, imgH := h }.failed e := rfl

end

/-- DEC_B clears the image and decodes from ARG on (R195, R196). -/
theorem exec_decB (s : State) : exec .decB s = .next (s.decoded 64#16 64#16
    (decodeBodyB s.source (tickLimit s.cfg 4096) { rd := Reader.init s.arg, pix := s.mem.pix.clear 4096 })) := rfl

/-- DEC_A after a header of an image that fits PIX: it clears the image and decodes (R184). -/
theorem exec_decA_got {s : State} {wu hu : Nat} {r : Reader} (hr : readHeader s.source (Reader.init s.arg) = .got (wu, hu) r)
    (hcap : 8 * wu * (8 * hu) ≤ s.cfg.pixCap) :
    exec .decA s = .next (s.decoded (BitVec.ofNat 16 (8 * wu)) (BitVec.ofNat 16 (8 * hu))
      (decodeBodyA s.source (tickLimit s.cfg (8 * wu * (8 * hu))) (8 * wu) (8 * wu * (8 * hu))
        { rd := r, pix := s.mem.pix.clear (8 * wu * (8 * hu)) })) := by
  unfold exec execDecA
  refine State.run_of ?_
  simp only [State.issue_source, State.argOffset, State.issue_arg, hr]
  exact if_neg (Nat.not_lt.2 hcap)

/-- DEC_A after a header of an image too large for PIX (R186). -/
theorem exec_decA_exceeded {s : State} {wu hu : Nat} {r : Reader}
    (hr : readHeader s.source (Reader.init s.arg) = .got (wu, hu) r) (hcap : s.cfg.pixCap < 8 * wu * (8 * hu)) :
    exec .decA s = .next ({ s with rd := r }.failed .capacityExceeded) := by
  unfold exec execDecA
  refine State.run_of (t := { s.issue with rd := r }) (e := .raised .capacityExceeded) ?_
  simp only [State.issue_source, State.argOffset, State.issue_arg, hr]
  exact if_pos hcap

/-- DEC_A on a header that the stream cuts (R185). -/
theorem exec_decA_exhausted {s : State} {r : Reader} (hr : readHeader s.source (Reader.init s.arg) = .exhausted r) :
    exec .decA s = .next { s with rd := r, imgW := 0#16, imgH := 0#16 }.cutShort := by
  simp only [exec, execDecA, State.run_eq, State.issue_source, State.argOffset, State.issue_arg, hr]
  rfl

/-! ## The image -/

/-- Each pixel of `image f` depends on that pixel of `f` alone. -/
def Pointwise (image : (Nat → Pixel) → Nat → Pixel) : Prop := ∀ f g p, f p = g p → image f p = image g p

theorem pointwise_paintB (runs : List RunB) (pos : Nat) : Pointwise (paintB runs pos) := fun _ _ _ => paintB_at

theorem pointwise_paintA (w : Nat) (steps : List StepA) (pos : Int) : Pointwise (paintA w steps pos) := fun _ _ _ => paintA_at

/-- From `m` to `m'` the first `size` pixels became `image` of what they were, and no other changed. -/
def Repaints (size : Nat) (image : (Nat → Pixel) → Nat → Pixel) (m m' : Memory 4) : Prop :=
  ∀ p, m'.read p = if p < size then image m.read p else m.read p

theorem Repaints.refl (size : Nat) (m : Memory 4) : Repaints size (fun f => f) m m := fun _ => (ite_self _).symm

theorem Repaints.trans {size : Nat} {f g : (Nat → Pixel) → Nat → Pixel} {m m' m'' : Memory 4} (h : Repaints size f m m')
    (h' : Repaints size g m' m'') (hg : Pointwise g) : Repaints size (fun u => g (f u)) m m'' := by
  intro p
  rw [h' p]
  by_cases hp : p < size
  · rw [if_pos hp, if_pos hp]
    exact hg _ _ p ((h p).trans (if_pos hp))
  · rw [if_neg hp, if_neg hp, h p, if_neg hp]

/-- A decode paints over an image that it has cleared (R181). -/
theorem Repaints.of_clear {size : Nat} {image : (Nat → Pixel) → Nat → Pixel} {m m' : Memory 4}
    (h : Repaints size image (m.clear size) m') (hi : Pointwise image) (p : Nat) :
    m'.read p = if p < size then image (fun _ => 0#4) p else m.read p := by
  have hclear := Memory.read_clear m size p
  rw [h p]
  by_cases hp : p < size
  · rw [if_pos hp] at hclear
    rw [if_pos hp, if_pos hp]
    exact hi _ _ p hclear
  · rw [if_neg hp, if_neg hp, hclear, if_neg hp]

/-! ## The account of the bits (40_bit_cursor.md R118) -/

section
variable {s : State} {r : Reader}

theorem Delivers.account {l rest : List Bool} (h : Delivers s.source (Reader.init s.arg) l r)
    (hrest : pendingBits s.source r = rest) :
    8 * r.off.toNat + rest.length = 8 * s.arg.toNat + r.cnt.toNat + s.streamAtArg.length := by
  have hcount : 8 * r.off.toNat + 0 = 8 * s.arg.toNat + r.cnt.toNat + l.length := h.count
  have hlength : s.streamAtArg.length = l.length + rest.length := by
    rw [State.streamAtArg, h.pending, hrest, List.length_append]
  omega

theorem Drains.account (h : Drains s.source (Reader.init s.arg) r) :
    8 * r.off.toNat = 8 * s.arg.toNat + s.streamAtArg.length := by
  have hcount : 8 * r.off.toNat + 0 = 8 * s.arg.toNat + r.cnt.toNat + s.streamAtArg.length := h.delivers.count
  rw [h.cnt] at hcount
  exact hcount

end

end Sys2Proof.Machine
end

section
/-! SUPPORT. DEC_B (43_decoder.md R195 to R202): the decode of its stream up to any run, and how it ends: at a run that
reaches position 4096, at the end of the stream, or at the iteration ceiling. -/

namespace Sys2Proof.Machine

/-! ## From one run to the next -/

/-- What DEC_B comes to from here on, `n` Ticks below the ceiling: how it ends, the reader and PIX (R195). -/
def LoopB.run (q : Source) (n : Nat) (x : LoopB) : Ending × Canvas :=
  ((tickLoop LoopB.more (LoopB.turn q) n x).1, (tickLoop LoopB.more (LoopB.turn q) n x).2.canvas)

section
variable {q : Source} {n : Nat} {x : LoopB}

theorem LoopB.run_done (h : 4096 ≤ x.pos) : x.run q n = (.normal, x.canvas) := by
  have hmore : x.more = false := decide_eq_false (Nat.not_lt.2 h)
  rw [LoopB.run, tickLoop_done n hmore]

theorem LoopB.run_ceiling (h : x.pos < 4096) : x.run q 0 = (.raised .runtimeInvariantFailure, x.canvas) := by
  rw [LoopB.run, tickLoop_ceiling (x.more_iff.2 h)]

theorem LoopB.run_stop {y : LoopB} {e : Ending} (h : x.pos < 4096) (hn : 0 < n) (ht : x.turn q = .stop e y) :
    x.run q n = (e, y.canvas) := by
  obtain ⟨k, rfl⟩ := Nat.exists_eq_add_of_lt hn
  rw [LoopB.run, Nat.zero_add, tickLoop_stop k (x.more_iff.2 h) ht]

end

/-- DEC_B over its discard bits and runs that all start inside the image: it goes on where they end (R195, R197). -/
theorem decodeBodyB_runs {q : Source} {limit : Nat} {c : Canvas} {disc rest : List Bool} {runs : List RunB} (hok : c.rd.Ok)
    (hdisc : disc.length = 2) (hp : pendingBits q c.rd = disc ++ runs.flatMap RunB.bits ++ rest) (hstarts : startsB runs 0)
    (hlimit : runs.length ≤ limit) :
    ∃ x : LoopB, decodeBodyB q limit c = x.run q (limit - runs.length) ∧ min x.pos 4096 = min (endB runs) 4096 ∧
      Delivers q c.rd (disc ++ runs.flatMap RunB.bits) x.canvas.rd ∧ pendingBits q x.canvas.rd = rest ∧
      Repaints 4096 (paintB runs 0) c.pix x.canvas.pix := by
  rw [List.append_assoc] at hp
  obtain ⟨r, hread, hdelDisc, hpRuns⟩ := readBits_got hok hp hdisc
  obtain ⟨pos, c', hloop, hdelRuns, hpRest, hpos, hpix⟩ :=
    loopB_runs runs (pos := 0) (n := limit) (c := { c with rd := r }) hdelDisc.ok hpRuns hstarts hlimit
  refine ⟨{ pos := pos, canvas := c' }, ?_, (Nat.zero_add (endB runs)) ▸ hpos, hdelDisc.trans hdelRuns, hpRest, hpix⟩
  simp only [decodeBodyB, hread, hloop, LoopB.run]

/-- DEC_B over its discard bits and runs, as a command: an image cleared, painted, and what follows from there. -/
theorem exec_decB_runs {s : State} {disc rest : List Bool} {runs : List RunB} (hdisc : disc.length = 2)
    (hp : s.streamAtArg = disc ++ runs.flatMap RunB.bits ++ rest) (hstarts : startsB runs 0)
    (hlimit : runs.length ≤ s.cfg.iterFactor * 4097) :
    ∃ x : LoopB, exec .decB s =
        .next (s.decoded 64#16 64#16 (x.run s.source (s.cfg.iterFactor * 4097 - runs.length))) ∧
      min x.pos 4096 = min (endB runs) 4096 ∧
      Delivers s.source (Reader.init s.arg) (disc ++ runs.flatMap RunB.bits) x.canvas.rd ∧
      pendingBits s.source x.canvas.rd = rest ∧
      Repaints 4096 (paintB runs 0) (s.mem.pix.clear 4096) x.canvas.pix := by
  obtain ⟨x, hbody, hx⟩ := decodeBodyB_runs (q := s.source) (limit := s.cfg.iterFactor * 4097)
    (c := { rd := Reader.init s.arg, pix := s.mem.pix.clear 4096 }) (Reader.ok_init _) hdisc hp hstarts hlimit
  exact ⟨x, by rw [exec_decB, ← hbody]; rfl, hx⟩

/-! ## The endings -/

/-- Settles O42: after the last run the loop's condition fails. -/
theorem decBPaintsItsRuns : Obligations.DecBPaintsItsRuns := by
  unfold Obligations.DecBPaintsItsRuns
  intro s disc runs rest hdisc hp hfinish hlimit
  obtain ⟨x, hexec, hpos, hdel, hrest, hpix⟩ := exec_decB_runs hdisc hp (startsB_of_finishesB hfinish) hlimit
  have hend : 4096 ≤ x.pos := by
    have := finishesB_end hfinish
    omega
  rw [LoopB.run_done hend, State.decoded_normal] at hexec
  exact ⟨_, _, hexec, hdel.ok, hrest, hdel.account hrest, hpix.of_clear (pointwise_paintB runs 0)⟩

/-- DEC_B on a stream that ends in the discard bits: it has stored nothing (R197). -/
theorem exec_decB_short {s : State} (h : s.streamAtArg.length < 2) :
    ∃ r, exec .decB s = .next (s.decoded 64#16 64#16 (.truncated, { rd := r, pix := s.mem.pix.clear 4096 })) ∧
      Drains s.source (Reader.init s.arg) r := by
  obtain ⟨r, hread, hdrains⟩ := readBits_exhausted (Reader.ok_init s.arg) h
  refine ⟨r, ?_, hdrains⟩
  simp only [exec_decB, decodeBodyB, hread]

/-- Settles O43: the turn on the cut run takes all the bits, and what it stored paints over the runs before it. -/
theorem decBTruncated : Obligations.DecBTruncated := by
  unfold Obligations.DecBTruncated
  refine ⟨fun s hshort => ?_, fun s disc runs cut hdisc hp hcut hend hlimit => ?_⟩
  · obtain ⟨r, hexec, hdrains⟩ := exec_decB_short hshort
    exact ⟨_, _, hexec, hdrains.cnt, hdrains.pending, hdrains.account,
      (Repaints.refl 4096 _).of_clear fun _ _ _ h => h⟩
  · obtain ⟨x, hexec, hpos, hdel, hrest, hpix⟩ :=
      exec_decB_runs hdisc hp (startsB_of_lt ((Nat.zero_add _).symm ▸ hend)) hlimit.le
    have hxend : x.pos = 0 + endB runs := by omega
    have hin : x.pos < 4096 := by omega
    obtain ⟨r, m, hturn, hdrains, hm⟩ := LoopB.turn_cut hin hdel.ok (hrest ▸ hcut)
    rw [LoopB.run_stop hin (Nat.sub_pos_of_lt hlimit) hturn, State.decoded_truncated] at hexec
    have hall := hdel.drains hdrains
    rw [hrest, hxend] at hm
    have hpaint := hpix.trans hm (pointwise_paintB _ _)
    simp only [← paintB_append] at hpaint
    exact ⟨_, _, hexec, hall.cnt, hall.pending, hall.account, hpaint.of_clear (pointwise_paintB _ _)⟩

end Sys2Proof.Machine
end

section
/-! SUPPORT. DEC_A (43_decoder.md R184 to R193): the decode of its stream up to any step, and its endings: a jump out of the
image, a stream that ends early, the iteration ceiling, and an image too large for PIX. -/

namespace Sys2Proof.Machine

/-! ## From one step to the next -/

/-- What DEC_A comes to from here on, `n` Ticks below the ceiling: how it ends, the reader and PIX (R184). -/
def LoopA.run (q : Source) (width size n : Nat) (x : LoopA) : Ending × Canvas :=
  ((tickLoop (LoopA.more size) (LoopA.turn q width size) n x).1,
    (tickLoop (LoopA.more size) (LoopA.turn q width size) n x).2.canvas)

theorem LoopA.more_of_jump {size : Nat} {x : LoopA} (hx : x.phase = .jump) (hpos : x.pos < size) : x.more size = true := by
  simp [LoopA.more, hx, hpos]

theorem LoopA.more_of_predict {size : Nat} {x : LoopA} {p2 : Int} (hx : x.phase = .predict p2) : x.more size = true := by
  simp [LoopA.more, hx]

section
variable {q : Source} {width size n : Nat} {x : LoopA}

theorem LoopA.run_ceiling (h : x.more size = true) : x.run q width size 0 = (.raised .runtimeInvariantFailure, x.canvas) := by
  rw [LoopA.run, tickLoop_ceiling h]

theorem LoopA.run_stop {y : LoopA} {e : Ending} (h : x.more size = true) (hn : 0 < n)
    (ht : x.turn q width size = .stop e y) : x.run q width size n = (e, y.canvas) := by
  obtain ⟨k, rfl⟩ := Nat.exists_eq_add_of_lt hn
  rw [LoopA.run, Nat.zero_add, tickLoop_stop k h ht]

/-- What the stores of one step paint (R192, R194). -/
theorem repaints_step {s : StepA} {pos : Int} {m m' : Memory 4} (h : ∀ p, m'.read p =
    if p < size ∧ (p : Int) ∈ s.targets width (pos + s.jump) then s.v else m.read p) :
    Repaints size (paintA width [s] pos) m m' := by
  intro p
  rw [h p]
  by_cases hp : p < size
  · simp only [hp, true_and, if_true, paintA]
  · simp only [hp, false_and, if_false]

/-- A step as far as its sub-loop has come: DEC_A goes on in the sub-loop (R187 to R192). -/
theorem LoopA.run_open (s : StepA) (hx : x.phase = .jump) (hok : x.canvas.rd.Ok) {rest : List Bool}
    (hp : pendingBits q x.canvas.rd = s.openBits ++ rest) (hpos : -1 ≤ x.pos) (hsize : size < 2 ^ 31)
    (hin : x.pos + s.jump < size) (hn : s.openTicks ≤ n) :
    ∃ (p2 : Int) (y : LoopA), x.run q width size n = y.run q width size (n - s.openTicks) ∧ y.phase = .predict p2 ∧
      Delivers q x.canvas.rd s.openBits y.canvas.rd ∧ pendingBits q y.canvas.rd = rest ∧
      Repaints size (paintA width [s] x.pos) x.canvas.pix y.canvas.pix := by
  obtain ⟨p2, y, hloop, hy, hdel, hrest, hpix⟩ := loopA_open (width := width) s hx hok hp hpos hsize hin hn
  exact ⟨p2, y, by rw [LoopA.run, hloop, LoopA.run], hy, hdel, hrest, repaints_step hpix⟩

/-- A jump or a pixel that the stream cuts ends the decode there (R183). -/
theorem LoopA.run_inJump {l : List Bool} (hx : x.phase = .jump) (hok : x.canvas.rd.Ok) (hpos : -1 ≤ x.pos)
    (hsize : size < 2 ^ 31) (hin : x.pos < size) (hp : pendingBits q x.canvas.rd = l)
    (hfits : (CutA.inJump l).Fits size x.pos) (hn : 0 < n) :
    ∃ c, x.run q width size n = (.truncated, c) ∧ Drains q x.canvas.rd c.rd ∧ c.pix = x.canvas.pix := by
  obtain ⟨r, y, hturn, hy, hdrains⟩ := LoopA.turn_inJump (width := width) hx hok hsize hpos hp hfits
  exact ⟨_, LoopA.run_stop (LoopA.more_of_jump hx hin) hn hturn, hy ▸ hdrains, by rw [hy]⟩

/-- A stream that ends before a prediction flag ends the decode after the pixel (R183). -/
theorem LoopA.run_atFlag {jump : Nat} {v : Pixel} (hx : x.phase = .jump) (hok : x.canvas.rd.Ok) (hpos : -1 ≤ x.pos)
    (hsize : size < 2 ^ 31) (hin : x.pos + jump < size) (hp : pendingBits q x.canvas.rd = lcBits jump ++ bitsOf v.toNat 4)
    (hn : 0 < n) :
    ∃ c, x.run q width size n = (.truncated, c) ∧ Drains q x.canvas.rd c.rd ∧
      Repaints size (paintA width [{ jump := jump, v := v, downs := none }] x.pos) x.canvas.pix c.pix := by
  obtain ⟨r, y, hturn, hy, hdrains⟩ := LoopA.turn_atFlag (width := width) hx hok hp (by omega) hin
  refine ⟨_, LoopA.run_stop (LoopA.more_of_jump hx (by omega)) hn hturn, hy ▸ hdrains, repaints_step fun p => ?_⟩
  rw [hy, read_storePixel]
  simp [StepA.targets, chainA]

/-- A selection that the stream cuts ends the decode there (R183). -/
theorem LoopA.run_inSelect {p2 : Int} (hx : x.phase = .predict p2) (hok : x.canvas.rd.Ok)
    (hdown : ∀ (d : SelA) (rest : List Bool), pendingBits q x.canvas.rd ≠ d.bits ++ rest)
    (hstop : ∀ rest : List Bool, pendingBits q x.canvas.rd ≠ [false, false, false, false] ++ rest) (hn : 0 < n) :
    ∃ c, x.run q width size n = (.truncated, c) ∧ Drains q x.canvas.rd c.rd ∧ c.pix = x.canvas.pix := by
  obtain ⟨r, y, hturn, hy, hdrains⟩ := LoopA.turn_inSelect (width := width) (size := size) hx hok hdown hstop
  exact ⟨_, LoopA.run_stop (LoopA.more_of_predict hx) hn hturn, hy ▸ hdrains, by rw [hy]⟩

/-- A step that the stream cuts takes all the bits, and stores what of it was read (R183, R184). -/
theorem LoopA.run_cut (cut : CutA) (hx : x.phase = .jump) (hok : x.canvas.rd.Ok) (hpos : -1 ≤ x.pos) (hsize : size < 2 ^ 31)
    (hin : x.pos < size) (hp : pendingBits q x.canvas.rd = cut.bits) (hfits : cut.Fits size x.pos) (hn : cut.ticks ≤ n) :
    ∃ c, x.run q width size n = (.truncated, c) ∧ Drains q x.canvas.rd c.rd ∧
      Repaints size (paintA width cut.read x.pos) x.canvas.pix c.pix := by
  cases cut with
  | inJump l =>
    obtain ⟨c, hrun, hdrains, hpix⟩ := LoopA.run_inJump (width := width) hx hok hpos hsize hin hp hfits hn
    exact ⟨c, hrun, hdrains, hpix ▸ Repaints.refl _ _⟩
  | atFlag jump v => exact LoopA.run_atFlag hx hok hpos hsize hfits hp hn
  | inSelect s l =>
    obtain ⟨hjump, hdown, hstop⟩ := hfits
    have hticks : s.openTicks + 1 ≤ n := hn
    obtain ⟨p2, y, hopen, hy, hdel, hrest, hpaint⟩ :=
      LoopA.run_open (width := width) s hx hok hp hpos hsize hjump (n := n) (by omega)
    obtain ⟨c, hrun, hdrains, hpix⟩ := LoopA.run_inSelect (width := width) (size := size) hy hdel.ok (hrest ▸ hdown)
      (hrest ▸ hstop) (Nat.sub_pos_of_lt hticks)
    exact ⟨c, hopen.trans hrun, hdel.drains hdrains, hpix ▸ hpaint⟩

end

theorem neg_one_le_endA (steps : List StepA) : -1 ≤ endA steps := by
  unfold endA
  omega

/-- An image that a header describes has fewer pixels than a 32-bit jump can pass. -/
theorem headerSize_lt {wu hu : Nat} (hw : wu < 256) (hh : hu < 256) : 8 * wu * (8 * hu) < 2 ^ 31 := by
  have : 8 * wu * (8 * hu) ≤ 8 * 256 * (8 * 256) := Nat.mul_le_mul (by omega) (by omega)
  omega

/-- DEC_A over its header and steps that stay inside the image: it goes on where they end (R184 to R193). -/
theorem exec_decA_steps {s : State} {wu hu : Nat} {steps : List StepA} {rest : List Bool} (hw : wu < 256) (hh : hu < 256)
    (hcap : 8 * wu * (8 * hu) ≤ s.cfg.pixCap)
    (hp : s.streamAtArg = bitsOf wu 8 ++ bitsOf hu 8 ++ steps.flatMap StepA.bits ++ rest)
    (hend : endA steps < (8 * wu * (8 * hu) : Nat))
    (hlimit : (steps.map StepA.ticks).sum ≤ s.cfg.iterFactor * (8 * wu * (8 * hu) + 1)) :
    ∃ x : LoopA, exec .decA s = .next (s.decoded (BitVec.ofNat 16 (8 * wu)) (BitVec.ofNat 16 (8 * hu))
        (x.run s.source (8 * wu) (8 * wu * (8 * hu))
          (s.cfg.iterFactor * (8 * wu * (8 * hu) + 1) - (steps.map StepA.ticks).sum))) ∧
      x.phase = .jump ∧ x.pos = endA steps ∧
      Delivers s.source (Reader.init s.arg) (bitsOf wu 8 ++ bitsOf hu 8 ++ steps.flatMap StepA.bits) x.canvas.rd ∧
      pendingBits s.source x.canvas.rd = rest ∧
      Repaints (8 * wu * (8 * hu)) (paintA (8 * wu) steps (-1)) (s.mem.pix.clear (8 * wu * (8 * hu))) x.canvas.pix := by
  rw [List.append_assoc, List.append_assoc] at hp
  obtain ⟨r, hread, hdelHeader, hpSteps⟩ := readHeader_got (Reader.ok_init s.arg) hw hh hp
  obtain ⟨x, hloop, hphase, hpos, hdelSteps, hrest, hpix⟩ :=
    loopA_steps (width := 8 * wu) (headerSize_lt hw hh) steps
      (x := { phase := .jump, pos := -1, last := 0#4,
              canvas := { rd := r, pix := s.mem.pix.clear (8 * wu * (8 * hu)) } })
      rfl hdelHeader.ok hpSteps (le_refl _) hend hlimit
  refine ⟨x, ?_, hphase, hpos, hdelHeader.trans hdelSteps, hrest, hpix⟩
  rw [exec_decA_got hread hcap, LoopA.run, ← hloop]
  rfl

/-! ## The endings -/

/-- Settles O45: after the last step a jump leaves the image. -/
theorem decAPaintsItsSteps : Obligations.DecAPaintsItsSteps := by
  unfold Obligations.DecAPaintsItsSteps
  intro s wu hu steps jump rest hw hh hcap hp hfinish hlimit
  obtain ⟨hin, hout⟩ := (finishesA_iff steps).1 hfinish
  rw [List.append_assoc] at hp
  obtain ⟨x, hexec, hphase, hpos, hdel, hrest, hpix⟩ := exec_decA_steps hw hh hcap hp hin (by omega)
  have hposIn : x.pos < (8 * wu * (8 * hu) : Nat) := hpos ▸ hin
  have hposOut : ((8 * wu * (8 * hu) : Nat) : Int) ≤ x.pos + jump := hpos ▸ hout
  obtain ⟨r, y, hturn, hy, hdelJump, hrestJump⟩ := LoopA.turn_out (width := 8 * wu) hphase hdel.ok hrest hposOut
    (headerSize_lt hw hh) (hpos ▸ neg_one_le_endA steps)
  rw [LoopA.run_stop (LoopA.more_of_jump hphase hposIn) (Nat.sub_pos_of_lt hlimit) hturn, hy, State.decoded_normal] at hexec
  have hall := hdel.trans hdelJump
  exact ⟨_, _, hexec, hall.ok, hrestJump, hall.account hrestJump, hpix.of_clear (pointwise_paintA _ _ _)⟩

/-- A stream that ends in the header of DEC_A (R185). -/
theorem readHeader_short {q : Source} {r : Reader} (hok : r.Ok) (hshort : (pendingBits q r).length < 16) :
    ∃ r', readHeader q r = .exhausted r' ∧ Drains q r r' := by
  rcases readHeader_cases q hok with ⟨wu, hu, r', -, -, -, hdel⟩ | ⟨r', hread, hdrains, -⟩
  · have hlength := congrArg List.length hdel.pending
    simp only [List.length_append, length_bitsOf] at hlength
    omega
  · exact ⟨r', hread, hdrains⟩

/-- Settles O46: the turn on the cut step takes all the bits, and what it stored paints over the steps before it. -/
theorem decATruncated : Obligations.DecATruncated := by
  unfold Obligations.DecATruncated
  refine ⟨fun s hshort => ?_, fun s wu hu steps cut hw hh hcap hp hend hfits hlimit => ?_⟩
  · obtain ⟨r, hread, hdrains⟩ := readHeader_short (Reader.ok_init s.arg) hshort
    exact ⟨r, exec_decA_exhausted hread, hdrains.cnt, hdrains.pending, hdrains.account⟩
  · obtain ⟨x, hexec, hphase, hpos, hdel, hrest, hpix⟩ := exec_decA_steps hw hh hcap hp hend (by omega)
    obtain ⟨c, hrun, hdrains, hpixCut⟩ := LoopA.run_cut (width := 8 * wu) cut hphase hdel.ok
      (hpos ▸ neg_one_le_endA steps) (headerSize_lt hw hh) (hpos ▸ hend) hrest (hpos ▸ hfits) (Nat.le_sub_of_add_le' hlimit)
    rw [hrun, State.decoded_truncated] at hexec
    have hall := hdel.drains hdrains
    have hpaint := hpix.trans hpixCut (pointwise_paintA _ _ _)
    rw [hpos] at hpaint
    simp only [endA, ← paintA_append] at hpaint
    exact ⟨_, _, hexec, hall.cnt, hall.pending, hall.account, hpaint.of_clear (pointwise_paintA _ _ _)⟩

/-- The state DEC_A goes on from after its last step, whole or open: one more turn is due (R182). -/
theorem exec_decA_open {s : State} {wu hu : Nat} {steps : List StepA} {last : Option StepA} {rest : List Bool}
    (hw : wu < 256) (hh : hu < 256) (hcap : 8 * wu * (8 * hu) ≤ s.cfg.pixCap)
    (hp : s.streamAtArg = bitsOf wu 8 ++ bitsOf hu 8 ++ steps.flatMap StepA.bits ++ last.elim [] StepA.openBits ++ rest)
    (hend : endA (steps ++ last.toList) < (8 * wu * (8 * hu) : Nat))
    (hlimit : (steps.map StepA.ticks).sum + last.elim 0 StepA.openTicks ≤ s.cfg.iterFactor * (8 * wu * (8 * hu) + 1)) :
    ∃ x : LoopA, exec .decA s = .next (s.decoded (BitVec.ofNat 16 (8 * wu)) (BitVec.ofNat 16 (8 * hu))
        (x.run s.source (8 * wu) (8 * wu * (8 * hu)) (s.cfg.iterFactor * (8 * wu * (8 * hu) + 1)
          - ((steps.map StepA.ticks).sum + last.elim 0 StepA.openTicks)))) ∧
      x.more (8 * wu * (8 * hu)) = true ∧ (∃ l, Delivers s.source (Reader.init s.arg) l x.canvas.rd) ∧
      pendingBits s.source x.canvas.rd = rest ∧
      Repaints (8 * wu * (8 * hu)) (paintA (8 * wu) (steps ++ last.toList) (-1)) (s.mem.pix.clear (8 * wu * (8 * hu)))
        x.canvas.pix := by
  rw [List.append_assoc] at hp
  rw [endA_append] at hend
  have hendSteps : endA steps < (8 * wu * (8 * hu) : Nat) := by omega
  obtain ⟨x, hexec, hphase, hpos, hdel, hrest, hpix⟩ := exec_decA_steps hw hh hcap hp hendSteps (by omega)
  cases last with
  | none =>
    rw [Option.toList_none, List.append_nil]
    exact ⟨x, hexec, LoopA.more_of_jump hphase (hpos ▸ hendSteps), ⟨_, hdel⟩, hrest, hpix⟩
  | some step =>
    have hin : x.pos + step.jump < (8 * wu * (8 * hu) : Nat) := by simpa [hpos] using hend
    obtain ⟨p2, y, hopen, hy, hdelOpen, hrestOpen, hpixOpen⟩ := LoopA.run_open (width := 8 * wu) step hphase hdel.ok hrest
      (hpos ▸ neg_one_le_endA steps) (headerSize_lt hw hh) hin (Nat.le_sub_of_add_le' hlimit)
    have hpaint := hpix.trans hpixOpen (pointwise_paintA _ _ _)
    rw [hpos] at hpaint
    simp only [endA, ← paintA_append] at hpaint
    rw [hopen, Nat.sub_sub] at hexec
    exact ⟨y, hexec, LoopA.more_of_predict hy, ⟨_, hdel.trans hdelOpen⟩, hrestOpen, hpaint⟩

/-- Settles O44: with no Tick left, the next turn raises before it reads. -/
theorem decodersIterationCeiling : Obligations.DecodersIterationCeiling := by
  unfold Obligations.DecodersIterationCeiling
  refine ⟨fun s disc runs rest hdisc hp hend hlimit => ?_, fun s wu hu steps last rest hw hh hcap hp hend hlimit => ?_⟩
  · obtain ⟨x, hexec, hpos, hdel, hrest, hpix⟩ :=
      exec_decB_runs hdisc hp (startsB_of_lt ((Nat.zero_add _).symm ▸ hend)) hlimit.le
    rw [hlimit, Nat.sub_self, LoopB.run_ceiling (by omega), State.decoded_raised] at hexec
    exact ⟨_, _, hexec, hdel.ok, hrest, hdel.account hrest, hpix.of_clear (pointwise_paintB runs 0)⟩
  · obtain ⟨x, hexec, hmore, ⟨l, hdel⟩, hrest, hpix⟩ := exec_decA_open hw hh hcap hp hend hlimit.le
    rw [hlimit, Nat.sub_self, LoopA.run_ceiling hmore, State.decoded_raised] at hexec
    exact ⟨_, _, hexec, hdel.ok, hrest, hdel.account hrest, hpix.of_clear (pointwise_paintA _ _ _)⟩

end Sys2Proof.Machine
end

section
/-! SUPPORT. The header of DEC_A in the reader (43_decoder.md R185, R186): it is the first word from ARG on, taken whole by one
refill. -/

namespace Sys2Proof.Machine

section
variable {q : Source} {r r1 : Reader}

/-- Reading bits that RD_BUF holds takes none of SRC (R104, R105). -/
theorem readBitsFrom_buffered {n : Nat} (v : Nat) (hok : r.Ok) (hn : n ≤ r.cnt.toNat) :
    ∃ v' r', readBitsFrom q n v r = .got v' r' ∧ r'.Ok ∧ r'.off = r.off ∧ r'.cnt.toNat + n = r.cnt.toNat := by
  induction n generalizing v r with
  | zero => exact ⟨v, r, rfl, hok, rfl, rfl⟩
  | succ n ih =>
    have hne : r.cnt ≠ 0#5 := fun h => by simp [h] at hn
    have hdel := Reader.shift_delivers (q := q) hok hne
    have hcount : 8 * r.off.toNat + r.cnt.toNat = 8 * r.off.toNat + r.shift.cnt.toNat + 1 := hdel.count
    obtain ⟨v', r', hread, hok', hoff, hcnt⟩ := ih (2 * v + r.buf.msb.toNat) hdel.ok (by omega)
    refine ⟨v', r', ?_, hok', hoff, by omega⟩
    rw [readBitsFrom, readBit, if_neg hne, Read.andThen_got, hread]

/-- Reading from an empty RD_BUF is reading after a refill (R104). -/
theorem readBits_refill (hcnt : r.cnt = 0#5) (hr : refill q r = some r1) (n : Nat) :
    readBits q (n + 1) r = readBits q (n + 1) r1 := by
  have hbit : readBit q r = readBit q r1 := by
    rw [readBit, if_pos hcnt, hr, readBit, if_neg (refill_some hcnt hr).1]
  rw [readBits, readBitsFrom, hbit]
  rfl

theorem Reader.eq_of_empty (hok : r.Ok) (hcnt : r.cnt = 0#5) : r = { off := r.off, buf := 0#16, cnt := 0#5 } := by
  have hbuf : r.buf = 0#16 := by
    have hlow : r.buf.toNat % 2 ^ (16 - r.cnt.toNat) = 0 := hok.2
    rw [hcnt] at hlow
    exact BitVec.eq_of_toNat_eq ((Nat.mod_eq_of_lt r.buf.isLt).symm.trans hlow)
  rw [← hbuf, ← hcnt]

/-- The header of a stream that holds a whole word is that word (R185). -/
theorem readHeader_word {a : Word} (hlen : a.toNat + 2 ≤ q.len.toNat) :
    ∃ v, readHeader q (Reader.init a) = .got v { off := a + 2#32, buf := 0#16, cnt := 0#5 } := by
  have hrefill : refill q (Reader.init a) = some
      { off := a + 2#32, buf := pairWord (q.mem.read a.toNat) (q.mem.read (a.toNat + 1)), cnt := 16#5 } := if_pos hlen
  obtain ⟨-, hword⟩ := refill_some rfl hrefill
  obtain ⟨wu, r1, hread1, hok1, hoff1, hcnt1⟩ := readBitsFrom_buffered (q := q) (n := 8) 0 hword.ok
    (show 8 ≤ (16#5).toNat by decide)
  have hcnt1' : r1.cnt.toNat + 8 = 16 := hcnt1
  obtain ⟨hu, r2, hread2, hok2, hoff2, hcnt2⟩ := readBitsFrom_buffered (q := q) (n := 8) 0 hok1 (by omega)
  have hempty : r2.cnt = 0#5 := BitVec.eq_of_toNat_eq (by rw [BitVec.toNat_ofNat]; omega)
  refine ⟨(wu, hu), ?_⟩
  rw [readHeader, readBits_refill rfl hrefill, readBits, hread1, Read.andThen_got, readBits, hread2, Read.andThen_got,
    Reader.eq_of_empty hok2 hempty, hoff2, hoff1]

end

/-- A stream of at least 16 bits holds a whole word (R102, R103). -/
theorem word_of_streamAtArg {s : State} (h : 16 ≤ s.streamAtArg.length) : s.arg.toNat + 2 ≤ s.srcLen.toNat := by
  have hle : s.streamAtArg.length ≤ 0 + 8 * (s.srcLen.toNat - s.arg.toNat) :=
    length_pendingBits_le s.source (Reader.init s.arg)
  omega

/-- Settles O47: the header's bits give its value, and its word gives the reader after it. -/
theorem decACapacityExceeded : Obligations.DecACapacityExceeded := by
  unfold Obligations.DecACapacityExceeded
  intro s wu hu rest hw hh hcap hp
  have hlen : s.arg.toNat + 2 ≤ s.srcLen.toNat := word_of_streamAtArg (by rw [hp]; simp; omega)
  rw [List.append_assoc] at hp
  obtain ⟨r, hvalue, -⟩ := readHeader_got (Reader.ok_init s.arg) hw hh hp
  obtain ⟨v, hword⟩ := readHeader_word (q := s.source) hlen
  obtain ⟨-, rfl⟩ := Read.got.inj (hvalue.symm.trans hword)
  exact ⟨exec_decA_exceeded hvalue hcap, hlen⟩

end Sys2Proof.Machine
end

section
/-! SUPPORT. ENC_B and DEC_B together (43_decoder.md R205, 44_encoder.md R222 to R226): the output of ENC_B, and the image that
DEC_B makes of it. -/

namespace Sys2Proof.Machine

/-! ## What ENC_B writes -/

/-- The body of ENC_B ends normally, with room for a Flush, where DST has room for the longest stream (R226). -/
theorem encodeBody_done {cap limit : Nat} (hcap : cap < 2 ^ 32) (hroom : 5634 ≤ cap) (hlimit : 4096 ≤ limit)
    (pix : Memory 4) (o : Output) :
    ∃ o' runs, encodeBody cap limit pix o.init = (.normal, o') ∧ encodesB pix runs 0 ∧ runs.length ≤ 4096 ∧
      Appends o.init ([false, false] ++ runs.flatMap RunB.bits) o' ∧ o'.wr.len.toNat + 2 ≤ cap := by
  have hgrown : o.init.wr.len.toNat + o.init.wr.grown [false, false].length = 0 := by simp [Writer.grown]
  obtain ⟨o1, hdisc, happ1⟩ := writeAll_done hcap [false, false] o.init_wr_ok (by omega)
  have hlen1 : o1.wr.len.toNat = 0 := happ1.len.trans hgrown
  have hcnt1 : o1.wr.cnt.toNat = 2 := happ1.cnt
  obtain ⟨runs, o2, hloop, hruns, happ2, hbits, hcount⟩ :=
    encodeLoop hcap pix limit (Nat.zero_le 4096) hlimit happ1.ok (by rw [hlen1, Writer.grown, hcnt1]; omega)
  have hlen2 := happ2.len
  rw [hlen1, Writer.grown, hcnt1] at hlen2
  refine ⟨o2, runs, ?_, hruns, hcount, happ1.trans happ2, by omega⟩
  rw [encodeBody, writeBits_eq, show bitsOf 0 2 = [false, false] from rfl, hdisc]
  simp only [hloop]

/-- ENC_B of a 64 by 64 image ends normally, and DST below WR_LEN holds whole words: the discard bits, the image's runs and
zero bits (R222 to R226). -/
theorem exec_encB_done {s : State} (hlegal : s.cfg.Legal) (hw : s.imgW = 64#16) (hh : s.imgH = 64#16) :
    ∃ (o : Output) (runs : List RunB) (k : Nat),
      exec .encB s = .next { s.setOutput o with result := o.wr.len }.ended ∧
      encodesB s.mem.pix runs 0 ∧ runs.length ≤ 4096 ∧ 2 ∣ o.wr.len.toNat ∧
      byteBits o.dst 0 o.wr.len.toNat = [false, false] ++ runs.flatMap RunB.bits ++ List.replicate k false := by
  have hcap := dstCap_lt_of_legal hlegal
  obtain ⟨-, ⟨hdst, -⟩, -, -, hiter⟩ := hlegal
  have hlimit : 4096 ≤ tickLimit s.cfg 4096 := by
    unfold tickLimit
    omega
  obtain ⟨o1, runs, hbody, hruns, hcount, happ, hfit⟩ :=
    encodeBody_done hcap (by omega) hlimit s.mem.pix s.output
  obtain ⟨o2, hflush⟩ := exists_flush_done hcap happ.ok hfit
  obtain ⟨k, hpad, hempty⟩ := appends_of_flush_done hcap happ.ok hflush
  have hall := happ.trans hpad
  refine ⟨o2, runs, k, ?_, hruns, hcount, ?_, ?_⟩
  · unfold exec execEncB
    refine State.run_of (t := { s.issue.setOutput o2 with result := o2.wr.len }) (e := .normal) ?_
    have hdims : ¬(s.issue.imgW.toNat ≠ Config.imgSide ∨ s.issue.imgH.toNat ≠ Config.imgSide) := by
      rw [State.issue_imgW, State.issue_imgH, hw, hh]
      decide
    refine (if_neg hdims).trans ((congrArg s.issue.endEncode hbody).trans ?_)
    simp only [State.endEncode, State.issue_cfg, hflush]
  · rw [hall.len]
    exact Dvd.intro _ (Nat.zero_add _).symm
  · rw [← Output.bits_of_empty hempty, hall.bits, s.output.init_bits, List.nil_append]

/-! ## What DEC_B makes of it -/

/-- The runs of an image take the position to its end exactly (R222, R223). -/
theorem finishesB_of_encodesB {pix : Memory 4} {runs : List RunB} {pos : Nat} (h : encodesB pix runs pos) :
    finishesB runs pos := by
  induction runs generalizing pos with
  | nil => exact Nat.le_of_eq (Eq.symm h)
  | cons x runs ih =>
    obtain ⟨hpos, -, -, -, -, -, -, hrest⟩ := h
    exact ⟨hpos, ih hrest⟩

/-- The runs of an image paint it from their first position on: a run paints nothing before itself, and what its copy-down
paints after it, the later runs paint over (R199, R202). -/
theorem paintB_of_encodesB {pix : Memory 4} {runs : List RunB} {pos : Nat} (h : encodesB pix runs pos) (f : Nat → Pixel)
    {p : Nat} (hp : p < 4096) : paintB runs pos f p = if pos ≤ p then pix.read p else f p := by
  induction runs generalizing pos f with
  | nil =>
    obtain rfl : pos = 4096 := h
    exact (if_neg (Nat.not_le.2 hp)).symm
  | cons x runs ih =>
    obtain ⟨hpos, -, hlen, -, hsame, -, -, hrest⟩ := h
    have hleft := x.flag.left_le
    rw [paintB, ih hrest]
    rcases Nat.lt_or_ge p pos with hbefore | hfrom
    · have hunpainted : ¬ x.paints pos p = true := by
        simp only [RunB.paints, decide_eq_true_eq]
        omega
      rw [if_neg (by omega), if_neg hunpainted, if_neg (by omega)]
    · rw [if_pos hfrom]
      rcases Nat.lt_or_ge p (pos + x.len) with hinside | hafter
      · have hpainted : x.paints pos p = true := by
          simp only [RunB.paints, decide_eq_true_eq]
          omega
        have hpixel := hsame (p - pos) (by omega)
        rw [Nat.add_sub_cancel' hfrom] at hpixel
        rw [if_neg (Nat.not_le.2 hinside), if_pos hpainted, hpixel]
      · rw [if_pos hafter]

/-- STATUS reads 0 after a command that ended normally (10_state.md R24). -/
@[simp] theorem State.ended_statusWord (s : State) : s.ended.statusWord = 0#32 := by
  simp [State.statusWord, State.ended, State.errCode]

/-- Settles O50: the copied output is the stream of the image's runs, and DEC_B paints them (O42). -/
theorem imageRoundTrip : Obligations.ImageRoundTrip := by
  unfold Obligations.ImageRoundTrip
  intro s hlegal hw hh
  obtain ⟨o, runs, k, hexec, hruns, hcount, heven, hbits⟩ := exec_encB_done hlegal hw hh
  refine ⟨_, hexec, rfl, fun u hu harg hlen hcopy => ?_⟩
  have hlen' : u.srcLen = o.wr.len := hlen
  obtain ⟨rest, hpending⟩ := pendingBits_of_copy (q := u.source) (a := 0#32) (m := o.dst) heven
    (fun i hi => by rw [BitVec.toNat_zero, Nat.zero_add]; exact hcopy i hi) (by simp [State.source, hlen'])
  have hstream : u.streamAtArg =
      [false, false] ++ runs.flatMap RunB.bits ++ (List.replicate k false ++ rest) := by
    rw [State.streamAtArg, harg, hpending, hbits, List.append_assoc]
  have hlimit : runs.length ≤ u.cfg.iterFactor * 4097 := by
    obtain ⟨-, -, -, -, hiter⟩ := hu
    omega
  obtain ⟨r, pix, hdec, -, -, -, hpix⟩ :=
    decBPaintsItsRuns u [false, false] runs _ rfl hstream (finishesB_of_encodesB hruns) hlimit
  refine ⟨_, hdec, State.ended_statusWord _, fun p hp => ?_⟩
  exact (hpix p).trans ((if_pos hp).trans ((paintB_of_encodesB hruns _ hp).trans (if_pos (Nat.zero_le p))))

end Sys2Proof.Machine
end

section
/-! SUPPORT. ENC_B (44_encoder.md R221 to R227): its dimension check, that the maximal runs of an image are the only ones and
how many bits they take, and how far Flush pads them. -/

namespace Sys2Proof.Machine

/-! ## The dimension check -/

/-- ENC_B encodes a 64 by 64 image, and of any other raises FORMAT_VIOLATION before any effect (R221). -/
theorem exec_encB (s : State) :
    exec .encB s =
      if s.imgW = 64#16 ∧ s.imgH = 64#16 then
        s.run fun u =>
          u.endEncode (encodeBody u.cfg.dstCap (tickLimit u.cfg Config.imgSize) u.mem.pix u.output.init)
      else .next (s.failed .formatViolation) := by
  have hdims : (s.issue.imgW.toNat ≠ Config.imgSide ∨ s.issue.imgH.toNat ≠ Config.imgSide) ↔
      ¬(s.imgW = 64#16 ∧ s.imgH = 64#16) := by
    simp only [BitVec.toNat_eq, BitVec.toNat_ofNat, State.issue_imgW, State.issue_imgH, Config.imgSide]
    omega
  simp only [exec, execEncB, State.run_eq, hdims]
  split_ifs with h
  · rfl
  · rfl

/-- Settles O49. -/
theorem encBChecksDimensions : Obligations.EncBChecksDimensions := by
  unfold Obligations.EncBChecksDimensions
  intro s hdims
  rw [exec_encB, if_neg (not_and_or.2 hdims)]

/-! ## The runs of an image -/

/-- The maximal run at a position is the only one (R223). -/
theorem eq_runAt_of_encodesB {pix : Memory 4} {x : RunB} {rest : List RunB} {pos : Nat}
    (h : encodesB pix (x :: rest) pos) : x = runAt pix pos := by
  obtain ⟨v, flag, len⟩ := x
  obtain ⟨hpos, hv, -, hend, hsame, hstop, hflag, -⟩ := h
  obtain ⟨-, hend', hsame', hstop'⟩ := runLength_spec pix hpos
  dsimp only at hv hend hsame hstop hflag
  subst hv
  have hlen : len = runLength pix pos := by
    rcases Nat.lt_trichotomy len (runLength pix pos) with hshort | heq | hlong
    · exact absurd (hsame' len hshort) (hstop (by omega))
    · exact heq
    · exact absurd (hsame _ hlong) (hstop' (by omega))
  simp only [runAt, probe, decide_eq_true_eq, RunB.mk.injEq, true_and, hlen, and_true]
  exact hflag

/-- The runs from a position on take at most 11 bits a pixel (R226). -/
theorem length_bits_of_encodesB {pix : Memory 4} {runs : List RunB} {pos : Nat} (h : encodesB pix runs pos) :
    (runs.flatMap RunB.bits).length + 11 * pos ≤ 11 * 4096 := by
  induction runs generalizing pos with
  | nil =>
    obtain rfl : pos = 4096 := h
    simp
  | cons x runs ih =>
    have hx := eq_runAt_of_encodesB h
    obtain ⟨hpos, -, -, -, -, -, -, hrest⟩ := h
    have hbits : x.bits.length ≤ 11 * x.len := hx ▸ length_runAt_bits pix hpos
    have htail := ih hrest
    rw [List.flatMap_cons, List.length_append]
    omega

/-! ## The whole output -/

/-- A writer with no pending bit is its length alone (10_state.md R30). -/
theorem Writer.eq_of_empty {w : Writer} (hok : w.Ok) (hcnt : w.cnt = 0#4) :
    w = { len := w.len, buf := 0#16, cnt := 0#4 } := by
  obtain ⟨len, buf, cnt⟩ := w
  obtain rfl : cnt = 0#4 := hcnt
  have hbuf : buf = 0#16 := BitVec.eq_of_toNat_eq (Nat.lt_one_iff.1 hok)
  rw [hbuf]

/-- Flush with room for a word pads with fewer zero bits than a word holds (R110, R226). -/
theorem exists_flush_padding {cap : Nat} (hcap : cap < 2 ^ 32) {o : Output} (hok : o.wr.Ok)
    (hfit : o.wr.len.toNat + 2 ≤ cap) :
    ∃ o' k, flush cap o = .done o' ∧ k < 16 ∧ Appends o (List.replicate k false) o' ∧ o'.wr.cnt = 0#4 := by
  rcases flush_cases hcap hok with ⟨hdone, hcnt⟩ | ⟨-, -, hfull⟩ | ⟨o', hdone, happ, hcnt, hpending, -⟩
  · exact ⟨o, 0, hdone, by norm_num, Appends.refl hok, hcnt⟩
  · omega
  · have hpos : o.wr.cnt.toNat ≠ 0 := fun hzero => hpending (BitVec.eq_of_toNat_eq hzero)
    exact ⟨o', _, hdone, by omega, happ, hcnt⟩

/-- ENC_B of a 64 by 64 image whose body ends normally, and whose Flush is done, leaves that output and its length in RESULT
(R222, R226). -/
theorem exec_encB_of_flush {s : State} {o o' : Output} (hw : s.imgW = 64#16) (hh : s.imgH = 64#16)
    (hbody : encodeBody s.cfg.dstCap (tickLimit s.cfg Config.imgSize) s.mem.pix s.output.init = (.normal, o))
    (hflush : flush s.cfg.dstCap o = .done o') :
    exec .encB s = .next { s.setOutput o' with result := o'.wr.len }.ended := by
  rw [exec_encB, if_pos ⟨hw, hh⟩]
  refine State.run_of (t := { s.issue.setOutput o' with result := o'.wr.len }) (e := .normal) ?_
  simp only [State.issue_cfg, State.issue_mem, State.issue_output, hbody, State.endEncode, hflush]

/-- Settles O48: the body appends the discard bits and the image's runs to a fresh output, and Flush pads the last word. -/
theorem encBWritesMaximalRuns : Obligations.EncBWritesMaximalRuns := by
  unfold Obligations.EncBWritesMaximalRuns
  intro s hlegal hw hh
  have hcap := dstCap_lt_of_legal hlegal
  obtain ⟨-, ⟨hdst, -⟩, -, -, hiter⟩ := hlegal
  have hlimit : 4096 ≤ tickLimit s.cfg Config.imgSize := by
    simp only [tickLimit, Config.imgSize]
    omega
  obtain ⟨o1, runs, hbody, hruns, -, happ, hfit⟩ :=
    encodeBody_done hcap (by omega) hlimit s.mem.pix s.output
  obtain ⟨o, k, hflush, hk, hpad, hcnt⟩ := exists_flush_padding hcap happ.ok hfit
  have hall := happ.trans hpad
  have hbits : byteBits o.dst 0 o.wr.len.toNat =
      [false, false] ++ runs.flatMap RunB.bits ++ List.replicate k false := by
    rw [← Output.bits_of_empty hcnt, hall.bits, s.output.init_bits, List.nil_append]
  have hwords : o.wr.len.toNat =
      2 * (([false, false] ++ runs.flatMap RunB.bits ++ List.replicate k false).length / 16) := by
    simpa [Writer.grown] using hall.len
  refine ⟨o.dst, o.wr.len, ?_, ?_, ?_, ⟨runs, k, hruns, hk, hbits⟩, fun a ha => hall.frame a (.inr ha)⟩
  · rw [exec_encB_of_flush hw hh hbody hflush, ← Writer.eq_of_empty hall.ok hcnt]
    rfl
  · rw [hwords]
    exact Nat.mul_mod_right 2 _
  · have hlength := congrArg List.length hbits
    have hrunBits := length_bits_of_encodesB hruns
    simp only [length_byteBits, List.length_append, List.length_cons, List.length_nil, List.length_replicate] at hlength
    omega

end Sys2Proof.Machine
end

section
/-! SUPPORT. SERIALIZE (45_container.md R255, R256): its two endings, and the container that DST holds after it. -/

namespace Sys2Proof.Machine

/-! ## How SERIALIZE ends -/

/-- The state with the rebuilt container at the start of DST, and the writer and RESULT set to its length and its
graphicOffset (R256). -/
def State.serialized (s : State) : State :=
  { s with mem := { s.mem with dst := s.mem.dst.writeList 0 s.containerBytes },
           wr := Writer.whole (s.newGraphicOff + s.trailing), result := toWord s.newGraphicOff }

/-- SERIALIZE checks the length before any write (R256; 60_exceptions.md R280). -/
theorem exec_serialize (s : State) :
    exec .serialize s = .next (
      if s.cfg.dstCap < s.newGraphicOff + s.trailing then s.failed .outputOverflow else s.serialized.ended) := by
  unfold exec execSerialize
  split_ifs with hfull
  · exact State.run_of (t := s.issue) (e := .raised .outputOverflow) (if_pos hfull)
  · exact State.run_of (t := s.issue.serialized) (e := .normal) (if_neg hfull)

/-- SERIALIZE of a container that fits DST ends normally (R256). -/
theorem exec_serialize_done {s : State} (hfit : s.newGraphicOff + s.trailing ≤ s.cfg.dstCap) :
    exec .serialize s = .next s.serialized.ended :=
  (exec_serialize s).trans (congrArg _ (if_neg (Nat.not_lt.2 hfit)))

/-- Settles O54: the length check is the first thing SERIALIZE does. -/
theorem serializeOverflow : Obligations.SerializeOverflow := by
  unfold Obligations.SerializeOverflow
  exact fun s hfull => (exec_serialize s).trans (congrArg _ (if_pos hfull))

/-! ## The container in a memory -/

/-- Two block reads are equal exactly if their entries are. -/
theorem Memory.readList_eq_iff {w : Nat} {m m' : Memory w} {base base' n : Nat} :
    m.readList base n = m'.readList base' n ↔ ∀ i, i < n → m.read (base + i) = m'.read (base' + i) := by
  simp [Memory.readList]

/-- A block that was just stored is read back. -/
theorem Memory.readList_writeList {w : Nat} (m : Memory w) (base : Nat) (vs : List (BitVec w)) :
    (m.writeList base vs).readList base vs.length = vs := by
  refine List.ext_getElem (Memory.length_readList ..) fun i _ hi => ?_
  simp [Memory.readList, Memory.read_writeList, hi]

/-- A memory holds from `off` on a frame block with a marker byte 0x00 and `n` records of `tbl` (R240). -/
structure Memory.HoldsBlock (m : Memory 8) (off : Nat) (n : Byte) (tbl : Memory 8) : Prop where
  marker : m.read off = 0x00#8
  count : m.read (off + 1) = n
  records : ∀ i, i < 4 * n.toNat → m.read (off + 2 + i) = tbl.read i

theorem Memory.holdsBlock_iff {m : Memory 8} {off : Nat} {n : Byte} {tbl : Memory 8} :
    m.HoldsBlock off n tbl ↔ m.readList off (2 + 4 * n.toNat) = frameBlock n tbl := by
  have hsplit : m.readList off (2 + 4 * n.toNat)
      = m.read off :: m.read (off + 1) :: m.readList (off + 2) (4 * n.toNat) := by
    rw [Memory.readList_append, Memory.readList_succ, Memory.readList_succ, Memory.readList_zero]
    rfl
  rw [hsplit, frameBlock, List.cons.injEq, List.cons.injEq, Memory.readList_eq_iff]
  simp only [Nat.zero_add]
  exact ⟨fun h => ⟨h.marker, h.count, h.records⟩, fun ⟨hmarker, hcount, hrecords⟩ => ⟨hmarker, hcount, hrecords⟩⟩

/-- A memory holds the container that SERIALIZE rebuilds from `s`, part by part (R240, R256). -/
structure Memory.HoldsContainer (m : Memory 8) (s : State) : Prop where
  blink : m.HoldsBlock 0 s.blinkN s.mem.blinkTbl
  talk : m.HoldsBlock (2 + 4 * s.blinkN.toNat) s.talkN s.mem.talkTbl
  palette : ∀ i, i < 32 → m.read (2 + 4 * s.blinkN.toNat + (2 + 4 * s.talkN.toNat) + i) = s.mem.palb.read i
  trailing : ∀ i, i < s.trailing → m.read (s.newGraphicOff + i) = s.mem.src.read (s.graphicOff.toNat + i)

@[simp] theorem length_frameBlock (n : Byte) (tbl : Memory 8) : (frameBlock n tbl).length = 2 + 4 * n.toNat := by
  simp [frameBlock]
  omega

/-- The parts laid end to end are the bytes that SERIALIZE writes. -/
theorem Memory.holdsContainer_iff {m : Memory 8} {s : State} :
    m.HoldsContainer s ↔ m.readList 0 (s.newGraphicOff + s.trailing) = s.containerBytes := by
  rw [State.containerBytes, State.newGraphicOff, Memory.readList_append, Memory.readList_append, Memory.readList_append,
    List.append_eq_append_iff_of_size_eq_left (by simp [Config.palbSize]),
    List.append_eq_append_iff_of_size_eq_left (by simp), List.append_eq_append_iff_of_size_eq_left (by simp),
    ← Memory.holdsBlock_iff, Nat.zero_add, ← Memory.holdsBlock_iff, Config.palbSize, Memory.readList_eq_iff,
    Memory.readList_eq_iff]
  simp only [Nat.zero_add]
  exact ⟨fun h => ⟨⟨⟨h.blink, h.talk⟩, h.palette⟩, h.trailing⟩,
    fun ⟨⟨⟨hblink, htalk⟩, hpalette⟩, htrailing⟩ => ⟨hblink, htalk, hpalette, htrailing⟩⟩

/-- DST after SERIALIZE holds the rebuilt container (R256). -/
theorem State.serialized_holdsContainer (s : State) : s.serialized.mem.dst.HoldsContainer s := by
  rw [Memory.holdsContainer_iff, ← s.length_containerBytes]
  exact Memory.readList_writeList ..

/-- DST above the container is unchanged (R256). -/
theorem State.read_serialized_above (s : State) {a : Nat} (ha : s.newGraphicOff + s.trailing ≤ a) :
    s.serialized.mem.dst.read a = s.mem.dst.read a := by
  rw [State.serialized, Memory.read_writeList, s.length_containerBytes, if_neg (by omega)]

/-- Settles O53: the parts of the container that DST holds are the bytes asked for. -/
theorem serializeWritesContainer : Obligations.SerializeWritesContainer := by
  unfold Obligations.SerializeWritesContainer
  rintro s _ _ - rfl rfl hfit
  obtain ⟨hblink, htalk, hpalette, htrailing⟩ := s.serialized_holdsContainer
  refine ⟨s.serialized.mem.dst, exec_serialize_done hfit, hblink.marker, hblink.count, fun i hi => ?_, htalk.marker,
    htalk.count, htalk.records, fun i hi => ?_, htrailing, fun a ha => s.read_serialized_above ha⟩
  · simpa only [Nat.zero_add] using hblink.records i hi
  · rw [Nat.add_sub_cancel]
    exact hpalette i hi

end Sys2Proof.Machine
end

section
/-! SUPPORT. PARSE (45_container.md R243 to R251): what its parts store and log one after the other, and its three endings. -/

namespace Sys2Proof.Machine

variable {s : State} {w0 : Memory 32} {l : List (BitVec 8 × Nat)}

/-! ## The parts of a parse, one after the other -/

/-- What PARSE stores from the talk block on, but for the warnings (R243 to R250). -/
def State.storeRest (s : State) (talk : Nat) : State :=
  { ((s.setTable .talk (s.tableBytes talk) (s.stored talk)).storePalette (s.paletteBytes (s.nextBlock talk))).storeMarker
      (s.nextBlock talk + 32) (s.markerAt (s.nextBlock talk + 32)) with
    result := toWord (s.nextBlock talk + 32) }

/-- The palette's warning (R242, R249). -/
def State.paletteWarnings (s : State) (pal : Nat) : List (BitVec 8 × Nat) :=
  if s.srcLen.toNat < pal + 32 then [(5#8, pal)] else []

/-- The marker's warning (R242, R250). -/
def State.markerWarnings (s : State) (off : Nat) : List (BitVec 8 × Nat) :=
  if s.srcLen.toNat < off + 2 then [(6#8, off)]
  else if s.mem.src.read off ≠ 0x08#8 ∨ s.mem.src.read (off + 1) ≠ 0x08#8 then [(7#8, off)] else []

theorem State.length_paletteWarnings (s : State) (pal : Nat) : (s.paletteWarnings pal).length ≤ 1 := by
  unfold State.paletteWarnings
  split <;> simp

theorem State.length_markerWarnings (s : State) (off : Nat) : (s.markerWarnings off).length ≤ 1 := by
  unfold State.markerWarnings
  split_ifs <;> simp

/-- The warnings from the talk block on, in order (R242, R243). -/
def State.restWarnings (s : State) (talk : Nat) : List (BitVec 8 × Nat) :=
  s.tableWarnings .talk talk ++ s.paletteWarnings (s.nextBlock talk) ++ s.markerWarnings (s.nextBlock talk + 32)

/-- Everything PARSE does from the talk block on, with room for its warnings (R243). -/
theorem State.parseRest_eq (h : Logged w0 l s.mem.warnlog s.warnCnt s.warnOvf) (hcap : l.length + 3 < s.cfg.warnCap)
    (hl : l.length < 240) (talk : Nat) :
    ∃ log cnt ovf, s.parseRest talk = (s.storeRest talk).withLog log cnt ovf ∧
      Logged w0 (l ++ s.restWarnings talk) log cnt ovf := by
  have htwo := s.length_tableWarnings .talk talk
  have hone := s.length_paletteWarnings (s.nextBlock talk)
  have hlen1 : (l ++ s.tableWarnings .talk talk).length ≤ l.length + 2 := by
    rw [List.length_append]
    omega
  have hlen2 : (l ++ s.tableWarnings .talk talk ++ s.paletteWarnings (s.nextBlock talk)).length ≤ l.length + 3 := by
    rw [List.length_append]
    omega
  obtain ⟨log1, cnt1, ovf1, htable, h1⟩ := State.parseTable_eq h (by omega) (by omega) .talk talk
  obtain ⟨log2, cnt2, ovf2, hpalette, h2⟩ := State.parsePalette_eq
    (s := (s.setTable .talk (s.tableBytes talk) (s.stored talk)).withLog log1 cnt1 ovf1) h1
    (hlen1.trans_lt (Nat.lt_of_succ_lt hcap)) (by omega) (s.nextBlock talk)
  obtain ⟨log3, cnt3, ovf3, hmarker, h3⟩ := State.parseMarker_eq
    (s := ((s.setTable .talk (s.tableBytes talk) (s.stored talk)).storePalette
      (s.paletteBytes (s.nextBlock talk))).withLog log2 cnt2 ovf2) h2
    (hlen2.trans_lt hcap) (hlen2.trans_lt (by omega)) (s.nextBlock talk + 32)
  refine ⟨log3, cnt3, ovf3, ?_, ?_⟩
  · have hparts := (congrArg (State.parseMarker · (s.nextBlock talk + 32)) hpalette).trans hmarker
    rw [← htable] at hparts
    exact congrArg (fun u : State => { u with result := toWord (s.nextBlock talk + 32) }) hparts
  · rw [State.restWarnings, ← List.append_assoc, ← List.append_assoc]
    exact h3

/-- What PARSE stores of the blink block, but for the warnings (R243 to R245). -/
def State.storeBlink (s : State) : State := s.setTable .blink (s.tableBytes 0) (s.stored 0)

/-- The blink block comes first, so its warnings are the first of the log (R243). -/
theorem State.parseBlink_eq (hcap : 1 < s.cfg.warnCap) :
    ∃ log cnt ovf, s.clearWarnings.parseTable .blink 0 = s.storeBlink.withLog log cnt ovf ∧
      Logged s.mem.warnlog s.blinkWarnings log cnt ovf :=
  State.parseTable_eq (s := s.clearWarnings) (Logged.nil _) hcap (by simp) .blink 0

/-- The palette follows the talk block's declared records (R240, R247). -/
theorem State.nextBlock_talkOff (s : State) : s.nextBlock s.talkOff = s.paletteOff := Nat.add_assoc ..

/-- The log in the order of the parse: the blink block, then the rest (R243). -/
theorem State.warnings_eq (s : State) : s.warnings = s.blinkWarnings ++ s.restWarnings s.talkOff := by
  simp only [State.restWarnings, State.nextBlock_talkOff, State.tableWarnings, ← List.append_assoc]
  rfl

theorem State.length_blinkWarnings (s : State) : s.blinkWarnings.length ≤ 2 := s.length_tableWarnings .blink 0

/-- A marker is either missing or wrong, so six of the seven warnings at most are logged (R252). -/
theorem State.length_warnings (s : State) : s.warnings.length ≤ 6 := by
  have hblink := s.length_blinkWarnings
  have htalk := s.length_tableWarnings .talk s.talkOff
  have hpalette := s.length_paletteWarnings (s.nextBlock s.talkOff)
  have hmarker := s.length_markerWarnings (s.nextBlock s.talkOff + 32)
  simp only [State.warnings_eq, State.restWarnings, List.length_append]
  omega

/-- A marker byte reads as 0x00 past the end (R250). -/
theorem State.markerAt_eq (s : State) (off : Nat) : s.markerAt off = s.srcByte off ++ s.srcByte (off + 1) := by
  have hhigh : 1 ≤ s.srcRest off ↔ off < s.srcLen.toNat := Nat.sub_pos_iff_lt
  have hlow : 2 ≤ s.srcRest off ↔ off + 1 < s.srcLen.toNat := by
    unfold State.srcRest
    omega
  simp only [State.markerAt, State.srcByte, hhigh, hlow]

/-! ## How PARSE ends -/

/-- The state with the warnings `l` as the whole of WARN_STAT, WARNLOG being `log` (R241, R243). -/
def State.withWarnings (s : State) (l : List (BitVec 8 × Nat)) (log : Memory 32) : State :=
  s.withLog log (BitVec.ofNat 8 l.length) false

/-- What PARSE of a container with both headers stores (R243). -/
def State.storeContainer (s : State) : State :=
  { s with
    mem := { s.mem with blinkTbl := s.mem.blinkTbl.writeList 0 (s.tableBytes 0),
                        talkTbl := s.mem.talkTbl.writeList 0 (s.tableBytes s.talkOff),
                        palb := s.mem.palb.writeList 0 (s.paletteBytes s.paletteOff) },
    blinkN := BitVec.ofNat 8 (s.stored 0), talkN := BitVec.ofNat 8 (s.stored s.talkOff),
    graphicOff := toWord s.graphicOffset, result := toWord s.graphicOffset,
    marker := s.srcByte s.graphicOffset ++ s.srcByte (s.graphicOffset + 1) }

/-- Storing the blink block leaves SRC as the rest of PARSE reads it. -/
theorem State.storeBlink_storeRest (s : State) : s.storeBlink.storeRest s.talkOff = s.storeContainer := by
  have hnext : s.storeBlink.nextBlock s.talkOff = s.paletteOff := s.nextBlock_talkOff
  have htable : s.storeBlink.tableBytes s.talkOff = s.tableBytes s.talkOff := rfl
  have hstored : s.storeBlink.stored s.talkOff = s.stored s.talkOff := rfl
  have hpalette : s.storeBlink.paletteBytes s.paletteOff = s.paletteBytes s.paletteOff := rfl
  have hmarker : s.storeBlink.markerAt s.graphicOffset = s.srcByte s.graphicOffset ++ s.srcByte (s.graphicOffset + 1) :=
    s.markerAt_eq _
  rw [State.storeRest, hnext, htable, hstored, hpalette, ← State.graphicOffset, hmarker]
  simp only [State.storeMarker, State.storePalette, State.setTable, State.storeBlink, State.storeContainer]

theorem State.headerAt_iff (s : State) (off : Nat) : s.headerAt off = true ↔ off + 2 ≤ s.srcLen.toNat :=
  decide_eq_true_iff

/-- With the blink block's header present, PARSE goes on from the state that the blink block leaves (R243). -/
theorem State.parseBody_of_blink {u : State} (h0 : 2 ≤ s.srcLen.toNat) (hblink : s.clearWarnings.parseTable .blink 0 = u) :
    s.parseBody = if u.headerAt s.talkOff then (.normal, u.parseRest s.talkOff) else (.raised .containerTruncated, u) := by
  subst hblink
  exact if_pos ((s.headerAt_iff 0).2 h0)

/-- PARSE without the blink block's header only clears WARN_STAT (R251). -/
theorem exec_parse_noHeader (h : s.srcLen.toNat < 2) :
    exec .parse s = .next (s.clearWarnings.failed .containerTruncated) := by
  refine State.run_of (t := s.issue.clearWarnings) (e := .raised .containerTruncated) ?_
  exact if_neg fun hheader => Nat.not_le.2 h ((s.headerAt_iff 0).1 hheader)

/-- PARSE with only the blink block's header keeps that block and its warnings (R251). -/
theorem exec_parse_noTalkHeader (hcap : 1 < s.cfg.warnCap) (h0 : 2 ≤ s.srcLen.toNat)
    (htalk : s.srcLen.toNat < s.talkOff + 2) :
    ∃ log, exec .parse s = .next ((s.storeBlink.withWarnings s.blinkWarnings log).failed .containerTruncated) ∧
      Logged s.mem.warnlog s.blinkWarnings log (BitVec.ofNat 8 s.blinkWarnings.length) false := by
  obtain ⟨log, cnt, ovf, hblink, hlog⟩ := State.parseBlink_eq (s := s.issue) hcap
  obtain rfl := hlog.cnt
  obtain rfl := hlog.ovf
  refine ⟨log, State.run_of (e := .raised .containerTruncated)
    (t := s.issue.storeBlink.withWarnings s.blinkWarnings log) ?_, hlog⟩
  refine (State.parseBody_of_blink (s := s.issue) h0 hblink).trans (if_neg fun hheader => ?_)
  exact Nat.not_le.2 htalk ((State.headerAt_iff _ _).1 hheader)

/-- PARSE with both headers stores the container and logs all its warnings (R243). -/
theorem exec_parse_done (hcap : 6 < s.cfg.warnCap) (h0 : 2 ≤ s.srcLen.toNat) (htalk : s.talkOff + 2 ≤ s.srcLen.toNat) :
    ∃ log, exec .parse s = .next (s.storeContainer.withWarnings s.warnings log).ended ∧
      Logged s.mem.warnlog s.warnings log (BitVec.ofNat 8 s.warnings.length) false := by
  have hlen : s.issue.blinkWarnings.length ≤ 2 := s.length_blinkWarnings
  have hroom : s.issue.blinkWarnings.length + 3 < s.cfg.warnCap := by omega
  obtain ⟨_, _, _, hblink, hfirst⟩ := State.parseBlink_eq (s := s.issue) (lt_of_le_of_lt (by decide) hcap)
  obtain ⟨log, cnt, ovf, hrest, hlog⟩ := State.parseRest_eq (s := s.issue.storeBlink.withLog _ _ _) hfirst hroom
    (by omega) s.talkOff
  have hstored : s.issue.storeBlink.storeRest s.talkOff = s.issue.storeContainer := s.issue.storeBlink_storeRest
  have hall : Logged s.mem.warnlog s.warnings log cnt ovf := s.warnings_eq ▸ hlog
  obtain rfl := hall.cnt
  obtain rfl := hall.ovf
  refine ⟨log, State.run_of (e := .normal) (t := s.issue.storeContainer.withWarnings s.warnings log) ?_, hall⟩
  refine ((State.parseBody_of_blink (s := s.issue) h0 hblink).trans (if_pos ?_)).trans
    (congrArg (Prod.mk Ending.normal) ?_)
  · exact (State.headerAt_iff _ _).2 htalk
  · rw [← hstored]
    exact hrest

/-! ## What PARSE leaves in the memories -/

/-- The records of a frame block in its table (R245). -/
theorem State.read_tableBytes (s : State) (m : Memory 8) (off i : Nat) :
    (m.writeList 0 (s.tableBytes off)).read i =
      if i < 4 * s.stored off then s.mem.src.read (off + 2 + i) else m.read i := by
  rw [Memory.read_writeList, State.length_tableBytes, State.tableBytes, Memory.getD_readList]
  simp only [Nat.zero_le, true_and, Nat.zero_add, Nat.sub_zero]
  split <;> rfl

/-- The bytes of the palette in PALB (R249). -/
theorem State.read_paletteBytes (s : State) (m : Memory 8) (off i : Nat) :
    (m.writeList 0 (s.paletteBytes off)).read i = if i < 32 then s.srcByte (off + i) else m.read i := by
  rw [Memory.read_writeList, State.length_paletteBytes]
  simp only [Nat.zero_le, true_and, Nat.zero_add, Nat.sub_zero]
  exact ite_congr rfl (fun hi => s.getD_paletteBytes off i hi) fun _ => rfl

/-- WARNLOG has room for the at most 6 warnings of a parse (R252; 00_scope.md R9). -/
theorem warnCap_gt {c : Config} (h : c.Legal) : 6 < c.warnCap := by
  obtain ⟨-, -, -, ⟨hwarn, -⟩, -⟩ := h
  exact hwarn

/-- Settles O51: the three memories read back the stored blocks, and the log holds the warnings. -/
theorem parseReadsContainer : Obligations.ParseReadsContainer := by
  unfold Obligations.ParseReadsContainer
  intro s hlegal h0 htalk
  obtain ⟨log, hexec, hlog⟩ := exec_parse_done (warnCap_gt hlegal) h0 htalk
  exact ⟨s.storeContainer.withWarnings s.warnings log, hexec, s.read_tableBytes _ 0, s.read_tableBytes _ s.talkOff,
    s.read_paletteBytes _ s.paletteOff, hlog.log, s.length_warnings⟩

/-- Settles O52: PARSE stops before the blink block, or between it and the talk block. -/
theorem parseTruncatedContainer : Obligations.ParseTruncatedContainer := by
  unfold Obligations.ParseTruncatedContainer
  refine fun s hlegal => ⟨exec_parse_noHeader, fun h0 htalk => ?_⟩
  have hcap : 1 < s.cfg.warnCap := lt_of_le_of_lt (by decide) (warnCap_gt hlegal)
  obtain ⟨log, hexec, hlog⟩ := exec_parse_noTalkHeader hcap h0 htalk
  exact ⟨s.storeBlink.withWarnings s.blinkWarnings log, hexec, hlog.log, s.read_tableBytes _ 0⟩

end Sys2Proof.Machine
end

section
/-! SUPPORT. PARSE and SERIALIZE together (45_container.md R258): what PARSE reads of a container with no part missing describes
its bytes, and the bytes of a container determine what describes them. -/

namespace Sys2Proof.Machine

variable {s t x : State} {m : Memory 8}

/-! ## Containers with no part missing -/

/-- Both frame blocks begin with 0x00 and SRC reaches beyond the marker bytes, so no part is missing (R240). -/
structure State.Whole (s : State) : Prop where
  blinkMarker : s.mem.src.read 0 = 0x00#8
  talkMarker : s.mem.src.read s.talkOff = 0x00#8
  markerEnd : s.graphicOffset + 2 ≤ s.srcLen.toNat

/-- A frame block that logs no warning begins with 0x00 (R242). -/
theorem State.marker_of_tableWarnings_nil {k : FrameTable} {off : Nat} (h : s.tableWarnings k off = []) :
    s.mem.src.read off = 0x00#8 := by
  obtain ⟨hmarker, -⟩ := List.append_eq_nil_iff.1 h
  simpa using hmarker

/-- A marker that logs no warning is there (R242). -/
theorem State.le_srcLen_of_markerWarnings_nil {off : Nat} (h : s.markerWarnings off = []) : off + 2 ≤ s.srcLen.toNat := by
  by_contra hshort
  rw [State.markerWarnings, if_pos (Nat.lt_of_not_le hshort)] at h
  exact List.cons_ne_nil _ _ h

/-- A container that logs no warning is whole (R242). -/
theorem State.whole_of_warnings_nil (h : s.warnings = []) : s.Whole := by
  rw [State.warnings_eq, State.restWarnings, State.nextBlock_talkOff] at h
  simp only [List.append_eq_nil_iff] at h
  obtain ⟨hblink, ⟨htalk, -⟩, hmarker⟩ := h
  exact ⟨State.marker_of_tableWarnings_nil (k := .blink) hblink, State.marker_of_tableWarnings_nil htalk,
    State.le_srcLen_of_markerWarnings_nil hmarker⟩

theorem State.Whole.headers (h : s.Whole) : 2 ≤ s.srcLen.toNat ∧ s.talkOff + 2 ≤ s.srcLen.toNat := by
  have hend := h.markerEnd
  unfold State.graphicOffset State.paletteOff at hend
  omega

/-- A frame block that ends below SRC_LEN has all its records (R245). -/
theorem State.stored_of_nextBlock_le {off : Nat} (h : s.nextBlock off ≤ s.srcLen.toNat) :
    s.stored off = s.declared off := by
  unfold State.nextBlock at h
  exact min_eq_left (by omega)

theorem State.Whole.blinkStored (h : s.Whole) : s.stored 0 = s.declared 0 := by
  obtain ⟨-, htalk⟩ := h.headers
  have hnext : s.nextBlock 0 = s.talkOff := rfl
  exact State.stored_of_nextBlock_le (by omega)

theorem State.Whole.talkStored (h : s.Whole) : s.stored s.talkOff = s.declared s.talkOff := by
  have hend := h.markerEnd
  unfold State.graphicOffset at hend
  exact State.stored_of_nextBlock_le (by rw [s.nextBlock_talkOff]; omega)

/-- The state after PARSE of a container with both headers, WARNLOG being `log` (R243). -/
def State.parsed (s : State) (log : Memory 32) : State := (s.storeContainer.withWarnings s.warnings log).ended

theorem State.Whole.exec_parse (h : s.Whole) (hlegal : s.cfg.Legal) : ∃ log, exec .parse s = .next (s.parsed log) := by
  obtain ⟨h0, htalk⟩ := h.headers
  obtain ⟨log, hexec, -⟩ := exec_parse_done (warnCap_gt hlegal) h0 htalk
  exact ⟨log, hexec⟩

/-- The count register of a block with all its records holds the declared count (R245). -/
theorem State.ofNat_stored {off : Nat} (hstored : s.stored off = s.declared off) :
    BitVec.ofNat 8 (s.stored off) = s.mem.src.read (off + 1) := by
  rw [hstored, State.declared, BitVec.ofNat_toNat, BitVec.setWidth_eq]

/-- What ParseTable stores of a block with all its records describes the block (R245). -/
theorem State.holdsBlock_of_stored {off : Nat} (hmarker : s.mem.src.read off = 0x00#8)
    (hstored : s.stored off = s.declared off) (tbl : Memory 8) :
    s.mem.src.HoldsBlock off (BitVec.ofNat 8 (s.stored off)) (tbl.writeList 0 (s.tableBytes off)) := by
  refine ⟨hmarker, (State.ofNat_stored hstored).symm, fun i hi => ?_⟩
  rw [State.ofNat_stored hstored, ← State.declared, ← hstored] at hi
  rw [State.read_tableBytes, if_pos hi]

/-! ## Where the parts of a container lie -/

/-- The offsets of a container in SRC, by the counts of a state that it was rebuilt from (R240, R256). -/
theorem Memory.HoldsContainer.offsets (h : x.mem.src.HoldsContainer s) :
    x.talkOff = 2 + 4 * s.blinkN.toNat ∧ x.paletteOff = 2 + 4 * s.blinkN.toNat + (2 + 4 * s.talkN.toNat) ∧
      x.graphicOffset = s.newGraphicOff := by
  have htalk : x.talkOff = 2 + 4 * s.blinkN.toNat := by
    rw [State.talkOff, ← h.blink.count]
  have hpalette : x.paletteOff = 2 + 4 * s.blinkN.toNat + (2 + 4 * s.talkN.toNat) := by
    rw [State.paletteOff, htalk, h.talk.count]
  exact ⟨htalk, hpalette, congrArg (· + 32) hpalette⟩

/-- A container determines the counts, tables and palette that it was rebuilt from (R258). -/
theorem Memory.HoldsContainer.unique (hs : m.HoldsContainer s) (ht : m.HoldsContainer t) :
    s.blinkN = t.blinkN ∧ s.talkN = t.talkN ∧
      (∀ i, i < 4 * t.blinkN.toNat → s.mem.blinkTbl.read i = t.mem.blinkTbl.read i) ∧
      (∀ i, i < 4 * t.talkN.toNat → s.mem.talkTbl.read i = t.mem.talkTbl.read i) ∧
      ∀ i, i < 32 → s.mem.palb.read i = t.mem.palb.read i := by
  have hblink : s.blinkN = t.blinkN := hs.blink.count.symm.trans ht.blink.count
  obtain ⟨sblink, stalk, spalette, -⟩ := hs
  rw [hblink] at sblink stalk spalette
  have htalk : s.talkN = t.talkN := stalk.count.symm.trans ht.talk.count
  rw [htalk] at stalk spalette
  exact ⟨hblink, htalk, fun i hi => (sblink.records i hi).symm.trans (ht.blink.records i hi),
    fun i hi => (stalk.records i hi).symm.trans (ht.talk.records i hi),
    fun i hi => (spalette i hi).symm.trans (ht.palette i hi)⟩

/-- GRAPHIC_OFF after PARSE of a whole container is the offset it was found at (R248). -/
theorem State.Whole.graphicOff_parsed (h : s.Whole) (log : Memory 32) :
    (s.parsed log).graphicOff.toNat = s.graphicOffset := by
  have hend := h.markerEnd
  have hlen := s.srcLen.isLt
  exact Nat.mod_eq_of_lt (by omega)

theorem State.Whole.blinkN_parsed (h : s.Whole) (log : Memory 32) : (s.parsed log).blinkN = s.mem.src.read 1 :=
  State.ofNat_stored h.blinkStored

theorem State.Whole.talkN_parsed (h : s.Whole) (log : Memory 32) :
    (s.parsed log).talkN = s.mem.src.read (s.talkOff + 1) :=
  State.ofNat_stored h.talkStored

/-- SERIALIZE after PARSE of a whole container finds the offsets that PARSE found (R240, R256). -/
theorem State.Whole.newGraphicOff_parsed (h : s.Whole) (log : Memory 32) :
    (s.parsed log).newGraphicOff = s.graphicOffset := by
  rw [State.newGraphicOff, h.blinkN_parsed, h.talkN_parsed]
  rfl

/-- What PARSE of a whole container leaves describes SRC (R258). -/
theorem State.Whole.holdsContainer_parsed (h : s.Whole) (log : Memory 32) :
    s.mem.src.HoldsContainer (s.parsed log) := by
  refine ⟨State.holdsBlock_of_stored h.blinkMarker h.blinkStored s.mem.blinkTbl, ?_, fun i hi => ?_, fun i _ => ?_⟩
  · rw [h.blinkN_parsed]
    exact State.holdsBlock_of_stored h.talkMarker h.talkStored s.mem.talkTbl
  · have hend := h.markerEnd
    have hpresent : s.srcByte (s.paletteOff + i) = s.mem.src.read (s.paletteOff + i) :=
      if_pos (by unfold State.graphicOffset at hend; omega)
    rw [h.blinkN_parsed, h.talkN_parsed]
    exact (((s.read_paletteBytes _ _ i).trans (if_pos hi)).trans hpresent).symm
  · rw [h.newGraphicOff_parsed, h.graphicOff_parsed]
    rfl

/-- SERIALIZE that ends without error has room for the container, and leaves it in DST (R256). -/
theorem exec_serialize_next (h : exec .serialize s = .next t) (herr : t.err = none) :
    s.newGraphicOff + s.trailing ≤ s.cfg.dstCap ∧ t = s.serialized.ended := by
  rw [exec_serialize] at h
  obtain rfl := Host.Outcome.next.inj h
  split at herr
  · cases herr
  next hroom => exact ⟨Nat.not_lt.1 hroom, if_neg hroom⟩

/-- WR_LEN after SERIALIZE (R256). -/
theorem State.toNat_len_serialized (hlegal : s.cfg.Legal) (hfit : s.newGraphicOff + s.trailing ≤ s.cfg.dstCap) :
    s.serialized.wr.len.toNat = s.newGraphicOff + s.trailing :=
  Nat.mod_eq_of_lt (hfit.trans_lt (dstCap_lt_of_legal hlegal))

/-- What SERIALIZE writes after PARSE of a whole container is as long as SRC (R258). -/
theorem State.Whole.total_parsed (h : s.Whole) (log : Memory 32) :
    (s.parsed log).newGraphicOff + (s.parsed log).trailing = s.srcLen.toNat := by
  have hend := h.markerEnd
  have htrailing : (s.parsed log).trailing = s.srcLen.toNat - s.graphicOffset :=
    congrArg (s.srcLen.toNat - ·) (h.graphicOff_parsed log)
  rw [h.newGraphicOff_parsed, htrailing]
  omega

/-- Settles O55: SRC and DST both hold the container that the state between the two commands describes. -/
theorem parseSerializeRoundTrip : Obligations.ParseSerializeRoundTrip := by
  unfold Obligations.ParseSerializeRoundTrip
  intro s hlegal _ _ hwarnings hcap
  have hwhole := State.whole_of_warnings_nil hwarnings
  obtain ⟨log, hparse⟩ := hwhole.exec_parse hlegal
  have htotal := hwhole.total_parsed log
  have hfit : (s.parsed log).newGraphicOff + (s.parsed log).trailing ≤ (s.parsed log).cfg.dstCap := htotal.trans_le hcap
  refine ⟨_, _, hparse, rfl, exec_serialize_done hfit, rfl, ?_, ?_, fun a ha => ?_⟩
  · exact BitVec.eq_of_toNat_eq ((State.toNat_len_serialized (s := s.parsed log) hlegal hfit).trans htotal)
  · exact congrArg toWord (hwhole.newGraphicOff_parsed log)
  · have hsame := (Memory.holdsContainer_iff.1 (s.parsed log).serialized_holdsContainer).trans
      (Memory.holdsContainer_iff.1 (hwhole.holdsContainer_parsed log)).symm
    have hread := Memory.readList_eq_iff.1 hsame a (htotal ▸ ha)
    rwa [Nat.zero_add] at hread

/-- A copy in SRC of a container with two trailing bytes is whole (R240). -/
theorem Memory.HoldsContainer.whole (h : x.mem.src.HoldsContainer s) (hend : s.newGraphicOff + 2 ≤ x.srcLen.toNat) :
    x.Whole := by
  obtain ⟨htalk, -, hgraphic⟩ := h.offsets
  exact ⟨h.blink.marker, htalk ▸ h.talk.marker, hgraphic ▸ hend⟩

/-- Settles O56: the copy holds the container of the serialized state, and parsing it again describes it. -/
theorem reparseAfterSerialize : Obligations.ReparseAfterSerialize := by
  unfold Obligations.ReparseAfterSerialize
  intro s t hlegal htrailing hserialize herr x hx hlen hcopy
  obtain ⟨hfit, rfl⟩ := exec_serialize_next hserialize herr
  have hlenNat : s.serialized.ended.wr.len.toNat = s.newGraphicOff + s.trailing := s.toNat_len_serialized hlegal hfit
  have hsrc : x.mem.src.HoldsContainer s := by
    rw [Memory.holdsContainer_iff, ← Memory.holdsContainer_iff.1 s.serialized_holdsContainer, Memory.readList_eq_iff]
    intro i hi
    rw [Nat.zero_add]
    exact hcopy i (hlenNat ▸ hi)
  have htwo : 2 ≤ s.trailing := by
    unfold State.trailing
    omega
  have hwhole : x.Whole := hsrc.whole (by rw [hlen, hlenNat]; omega)
  obtain ⟨log, hparse⟩ := hwhole.exec_parse hx
  obtain ⟨hblinkN, htalkN, hblink, htalk, hpalette⟩ := (hwhole.holdsContainer_parsed log).unique hsrc
  obtain ⟨-, -, hgraphic⟩ := hsrc.offsets
  refine ⟨_, hparse, rfl, hblinkN, htalkN, congrArg toWord hgraphic, ?_, hblink, htalk, hpalette⟩
  have hbyte {i : Nat} (hi : i < 2) :
      x.srcByte (x.graphicOffset + i) = s.mem.src.read (s.graphicOff.toNat + i) := by
    rw [State.srcByte, if_pos (by rw [hlen, hlenNat, hgraphic]; omega), hgraphic]
    exact hsrc.trailing i (by omega)
  exact congrArg₂ (· ++ ·) (hbyte (i := 0) (by decide)) (hbyte (i := 1) (by decide))

end Sys2Proof.Machine
end

section
/-! SUPPORT. How a command can end (60_exceptions.md R272, R276, R283): the endings of the loops, of the parts that end a body,
and of every command. -/

namespace Sys2Proof.Machine

/-! ## The endings a command may have -/

/-- The endings that R272 and R283 give command `i` on a block with parameters `c`. The table of R283 is for the commands a word
can carry and for legal parameters (30_encoding.md R81, 00_scope.md R9). -/
def MayEnd (i : Instr) (c : Config) : Ending → Prop
  | .normal => True
  | .truncated => i.mayTruncate = true
  | .raised f => i.wellFormed = true → c.Legal → i.mayRaise f = true

/-- The body of command `i`, run on `s`, ends as it may, and leaves TRUNC and ERR to its completion (10_state.md R24). -/
structure Ends (i : Instr) (s : State) (out : Ending × State) : Prop where
  ending : MayEnd i s.cfg out.1
  trunc : out.2.trunc = s.trunc
  err : out.2.err = s.err

/-! ## The loops -/

/-- A jump that stops does so at the end of the image or of the stream (43_decoder.md R183, R188). -/
theorem LoopA.jumpTurn_stops {q : Source} {size : Nat} {x y : LoopA} {e : Ending} (h : x.jumpTurn q size = .stop e y) :
    e = .normal ∨ e = .truncated := by
  unfold LoopA.jumpTurn at h
  split at h
  next => cases h; exact .inr rfl
  next =>
    dsimp only at h
    split at h
    · cases h; exact .inl rfl
    split at h
    next => cases h; exact .inr rfl
    next =>
      split at h
      next => cases h; exact .inr rfl
      next => cases h

/-- The prediction sub-loop stops at the end of the stream only (R183, R193). -/
theorem LoopA.predictTurn_stops {q : Source} {width size : Nat} {p2 : Int} {x y : LoopA} {e : Ending}
    (h : x.predictTurn q width size p2 = .stop e y) : e = .truncated := by
  unfold LoopA.predictTurn at h
  split at h
  next => cases h; rfl
  next => cases h
  next => cases h

/-- No turn of DEC_A raises. -/
theorem LoopA.turn_stops {q : Source} {width size : Nat} {x y : LoopA} {e : Ending} (h : x.turn q width size = .stop e y) :
    e = .normal ∨ e = .truncated := by
  unfold LoopA.turn at h
  split at h
  next => exact LoopA.jumpTurn_stops h
  next => exact .inr (LoopA.predictTurn_stops h)

/-- The main loop of DEC_A fails at the ceiling only (60_exceptions.md R278). -/
theorem decodeBodyA_mayEnd (cfg : Config) (q : Source) (limit width size : Nat) (c : Canvas) :
    MayEnd .decA cfg (decodeBodyA q limit width size c).1 := by
  unfold decodeBodyA
  refine tickLoop_ending (Q := MayEnd .decA cfg) trivial (fun _ _ => rfl) (fun x e y h => ?_) limit _
  rcases LoopA.turn_stops h with rfl | rfl
  · trivial
  · rfl

/-- The copy-down and the sentinel of DEC_B raise nothing (R183, R199, R200). -/
theorem flagPart_ending (q : Source) (pos : Nat) (v : Pixel) (f : Bool) (c : Canvas) :
    (flagPart q pos v f c).1 = .normal ∨ (flagPart q pos v f c).1 = .truncated := by
  unfold flagPart
  split
  · split
    · exact .inr rfl
    · dsimp only
      split
      · exact .inr rfl
      · exact .inl rfl
  · exact .inl rfl

/-- A turn of DEC_B that stops has come to the end of the stream (R183). -/
theorem LoopB.turn_stops {q : Source} {x y : LoopB} {e : Ending} (h : x.turn q = .stop e y) : e = .truncated := by
  unfold LoopB.turn at h
  split at h
  next => cases h; rfl
  next v r _ =>
    dsimp only at h
    split at h
    next => cases h; rfl
    next f r' _ =>
      have hflag := flagPart_ending q x.pos (toPixel v) f ⟨r', x.canvas.pix.write x.pos (toPixel v)⟩
      split at h
      next =>
        unfold runPart at h
        split at h
        next => cases h; rfl
        next => cases h
      next hstop heq =>
        cases h
        rw [heq] at hflag
        exact hflag.resolve_left hstop

/-- DEC_B fails at the ceiling only (60_exceptions.md R278). -/
theorem decodeBodyB_mayEnd (cfg : Config) (q : Source) (limit : Nat) (c : Canvas) :
    MayEnd .decB cfg (decodeBodyB q limit c).1 := by
  unfold decodeBodyB
  split
  next => rfl
  next =>
    refine tickLoop_ending trivial (fun _ _ => rfl) (fun x e y h => ?_) limit _
    obtain rfl := LoopB.turn_stops h
    rfl

/-- A turn of ENC_B that stops has overflowed DST (44_encoder.md R226). -/
theorem LoopEnc.turn_stops {cap : Nat} {pix : Memory 4} {x y : LoopEnc} {e : Ending} (h : x.turn cap pix = .stop e y) :
    e = .raised .outputOverflow := by
  unfold LoopEnc.turn at h
  split at h
  next => cases h; rfl
  next => cases h

/-- A turn of ENC_B that goes on moves on by its run (44_encoder.md R222). -/
theorem LoopEnc.turn_again {cap : Nat} {pix : Memory 4} {x y : LoopEnc} (h : x.turn cap pix = .again y) :
    y.pos = x.pos + runLength pix x.pos := by
  unfold LoopEnc.turn at h
  split at h
  next => cases h
  next => cases h; rfl

/-- The main loop of ENC_B fails by an overflow only: legal parameters give it a Tick for each pixel, and every turn takes one
pixel at least (R223, R227). -/
theorem encodeLoop_mayEnd (cfg : Config) (cap : Nat) (pix : Memory 4) (o : Output) :
    MayEnd .encB cfg
      (tickLoop LoopEnc.more (LoopEnc.turn cap pix) (tickLimit cfg Config.imgSize) { pos := 0, out := o }).1 := by
  have hstop {x y : LoopEnc} {e : Ending} (h : x.turn cap pix = .stop e y) : MayEnd .encB cfg e := by
    obtain rfl := LoopEnc.turn_stops h
    exact fun _ _ => rfl
  by_cases hlegal : cfg.Legal
  · have hlimit : 4096 ≤ tickLimit cfg Config.imgSize := by
      obtain ⟨-, -, -, -, hiter⟩ := hlegal
      simp only [tickLimit, Config.imgSize]
      omega
    refine tickLoop_below (P := fun _ => True) (fun x => 4096 - x.pos) trivial (fun x _ hm => ?_)
      (fun x y hm _ ht => ⟨trivial, ?_⟩) (fun x e y _ _ => hstop) _ trivial hlimit
    · exact Nat.sub_pos_of_lt (x.more_iff.1 hm)
    · have hpos := x.more_iff.1 hm
      obtain ⟨hlen, -⟩ := runLength_spec pix hpos
      rw [LoopEnc.turn_again ht]
      omega
  · exact tickLoop_ending trivial (fun _ h => absurd h hlegal) (fun _ _ _ => hstop) _ _

/-- The body of ENC_B overflows DST if it does not end normally (44_encoder.md R226, R227). -/
theorem encodeBody_mayEnd (cfg : Config) (cap : Nat) (pix : Memory 4) (o : Output) :
    MayEnd .encB cfg (encodeBody cap (tickLimit cfg Config.imgSize) pix o).1 := by
  unfold encodeBody
  split
  next => exact fun _ _ => rfl
  next => exact encodeLoop_mayEnd cfg cap pix _

/-! ## The parts that end a body -/

section
variable {i : Instr} {s : State}

/-- A reading command ends normally or truncated. -/
theorem Ends.endRead (hi : i.mayTruncate = true) (p : Read Nat) : Ends i s (s.endRead p) := by
  cases p with
  | got v r => exact ⟨trivial, rfl, rfl⟩
  | exhausted r => exact ⟨hi, rfl, rfl⟩

/-- A writing command ends normally or overflows DST. -/
theorem Ends.endWrite (hi : i.mayRaise .outputOverflow = true) (p : Write) : Ends i s (s.endWrite p) := by
  cases p with
  | done o => exact ⟨trivial, rfl, rfl⟩
  | overflow o => exact ⟨fun _ _ => hi, rfl, rfl⟩

/-- The final Flush of ENC_B may overflow DST too (44_encoder.md R226). -/
theorem Ends.endEncode {out : Ending × Output} (h : MayEnd .encB s.cfg out.1) : Ends .encB s (s.endEncode out) := by
  obtain ⟨e, o⟩ := out
  cases e with
  | normal =>
    unfold State.endEncode
    dsimp only
    split
    · exact ⟨fun _ _ => rfl, rfl, rfl⟩
    · exact ⟨trivial, rfl, rfl⟩
  | truncated => exact ⟨h, rfl, rfl⟩
  | raised f => exact ⟨h, rfl, rfl⟩

/-- PARSE fails on a container without both headers (45_container.md R251). -/
theorem Ends.parseBody : Ends .parse s s.parseBody := by
  obtain ⟨hkept, -⟩ := s.unparsed_parseBody
  have htrunc : s.parseBody.2.unparsed.trunc = s.trunc := by rw [hkept]; rfl
  refine ⟨?_, htrunc, Leaves.parseBody.err⟩
  unfold State.parseBody
  dsimp only
  split
  · split
    · trivial
    · exact fun _ _ => rfl
  · exact fun _ _ => rfl

end

/-! ## Every command -/

/-- A command is its body on the state after its issue, completed by the way the body ended (R276). -/
theorem ends_of_body {i : Instr} {s : State} {body : State → Ending × State} (hbody : ∀ u, Ends i u (body u)) :
    ∃ e u, s.run body = .next (u.finish e) ∧ Ends i s.issue (e, u) :=
  ⟨_, _, s.run_eq body, hbody s.issue⟩

/-- No command word carries a count above 32 (30_encoding.md R81). -/
theorem not_countOk {n : BitVec 8} (hn : 32 < countOf n) : ¬ countOk n = true :=
  fun h => Nat.not_lt.2 (of_decide_eq_true h) hn

/-- DEC_A ends at a cut header, at an image too large for PIX, or as its main loop does (43_decoder.md R184 to R186). -/
theorem execDecA_ends (s : State) : ∃ e u, execDecA s = .next (u.finish e) ∧ Ends .decA s.issue (e, u) := by
  refine ends_of_body fun u => ?_
  dsimp only
  split
  next => exact ⟨rfl, rfl, rfl⟩
  next =>
    split
    · exact ⟨fun _ _ => rfl, rfl, rfl⟩
    · exact ⟨decodeBodyA_mayEnd _ _ _ _ _ _, rfl, rfl⟩

/-- Every command ends as R272 and R283 let it. -/
theorem exec_ends (i : Instr) (s : State) : ∃ e u, exec i s = .next (u.finish e) ∧ Ends i s.issue (e, u) := by
  unfold exec
  cases i with
  | rdStart => exact ends_of_body fun _ => ⟨trivial, rfl, rfl⟩
  | rdBit => exact ends_of_body fun _ => .endRead rfl _
  | rdBits n =>
    refine ends_of_body fun u => ?_
    split
    next hn => exact ⟨fun hword => absurd hword (not_countOk hn), rfl, rfl⟩
    next => exact .endRead rfl _
  | wrStart => exact ends_of_body fun _ => ⟨trivial, rfl, rfl⟩
  | wrBits n =>
    refine ends_of_body fun u => ?_
    split
    next hn => exact ⟨fun hword => absurd hword (not_countOk hn), rfl, rfl⟩
    next => exact .endWrite rfl _
  | wrFlush => exact ends_of_body fun _ => .endWrite rfl _
  | lcDec => exact ends_of_body fun _ => .endRead rfl _
  | lcEnc => exact ends_of_body fun _ => .endWrite rfl _
  | palDecA => exact ends_of_body fun _ => ⟨trivial, rfl, rfl⟩
  | palDecB => exact ends_of_body fun _ => ⟨trivial, rfl, rfl⟩
  | palEncA => exact ends_of_body fun _ => ⟨trivial, rfl, rfl⟩
  | palEncB => exact ends_of_body fun _ => ⟨trivial, rfl, rfl⟩
  | render =>
    refine ends_of_body fun u => ?_
    dsimp only
    split
    · exact ⟨fun _ _ => rfl, rfl, rfl⟩
    · split
      · exact ⟨fun _ _ => rfl, rfl, rfl⟩
      · exact ⟨trivial, rfl, rfl⟩
  | decA => exact execDecA_ends s
  | decB => exact ends_of_body fun u => ⟨decodeBodyB_mayEnd _ _ _ _, rfl, rfl⟩
  | encB =>
    refine ends_of_body fun u => ?_
    split
    · exact ⟨fun _ _ => rfl, rfl, rfl⟩
    · exact .endEncode (encodeBody_mayEnd _ _ _ _)
  | parse => exact ends_of_body fun _ => .parseBody
  | serialize =>
    refine ends_of_body fun u => ?_
    dsimp only
    split
    · exact ⟨fun _ _ => rfl, rfl, rfl⟩
    · exact ⟨trivial, rfl, rfl⟩

/-- What a next state of a command is, by the way its body ended. -/
theorem exec_next_ends {i : Instr} {s t : State} (ht : exec i s = .next t) :
    ∃ e u, t = u.finish e ∧ Ends i s.issue (e, u) := by
  obtain ⟨e, u, hexec, hends⟩ := exec_ends i s
  exact ⟨e, u, Host.Outcome.next.inj (ht.symm.trans hexec), hends⟩

/-! ## The STATUS a command leaves -/

/-- Settles O7: a body of each of the three endings leaves the STATUS of its own. -/
theorem everyCommandEndsInOneOfThreeWays : Obligations.EveryCommandEndsInOneOfThreeWays := by
  unfold Obligations.EveryCommandEndsInOneOfThreeWays
  intro i s
  obtain ⟨e, u, hexec, hends⟩ := exec_ends i s
  refine ⟨_, hexec, ?_⟩
  cases e with
  | normal => exact ⟨rfl, .inl ⟨hends.trunc, hends.err⟩⟩
  | truncated => exact ⟨rfl, .inr (.inl ⟨rfl, hends.err⟩)⟩
  | raised f => exact ⟨rfl, .inr (.inr ⟨rfl, f, rfl⟩)⟩

/-- TRUNC is set by a truncated end only: the issue has cleared it (10_state.md R24). -/
theorem Ends.of_trunc {i : Instr} {s : State} {e : Ending} {u : State} (h : Ends i s.issue (e, u))
    (ht : (u.finish e).trunc = true) : i.mayTruncate = true := by
  have hissue : u.trunc = false := h.trunc
  cases e with
  | normal => exact absurd (hissue.symm.trans ht) Bool.false_ne_true
  | truncated => exact h.ending
  | raised f => exact absurd ht Bool.false_ne_true

/-- ERR is set by a raise only, to the code raised (60_exceptions.md R274). -/
theorem Ends.of_err {i : Instr} {s : State} {e : Ending} {u : State} {f : Failure} (h : Ends i s.issue (e, u))
    (hf : (u.finish e).err = some f) : MayEnd i s.cfg (.raised f) := by
  have hissue : u.err = none := h.err
  obtain ⟨f', rfl⟩ := State.finish_err hissue (Option.ne_none_iff_exists'.2 ⟨f, hf⟩)
  obtain rfl : f' = f := Option.some.inj hf
  exact h.ending

/-- Settles O9: the error code is one that the command raised. -/
theorem failuresPerCommand : Obligations.FailuresPerCommand := by
  unfold Obligations.FailuresPerCommand
  intro i s t f hword hlegal hexec hf
  obtain ⟨e, u, rfl, hends⟩ := exec_next_ends hexec
  exact hends.of_err hf hword hlegal

/-! ## The commands that can set TRUNC -/

/-- After reset SRC_LEN is 0 (10_state.md R49), so no reader delivers a bit. -/
theorem pending_reset : State.reset.pending = [] := rfl

theorem streamAtArg_reset : State.reset.streamAtArg = [] := rfl

/-- A reading command that needs a bit finds none after reset, and ends truncated (R272). -/
theorem exec_reset_truncates {i : Instr} (hword : i.wellFormed = true) (hi : i.mayTruncate = true) (hn : i ≠ .rdBits 0#8) :
    ∃ u : State, exec i State.reset = .next u.cutShort := by
  have hok : State.reset.rd.Ok := Reader.ok_init 0#32
  cases i with
  | rdBit =>
    obtain ⟨-, hempty⟩ := rdBitDeliversNextBit State.reset hok
    obtain ⟨hexec, -⟩ := hempty pending_reset
    exact ⟨_, hexec⟩
  | rdBits n =>
    have hpos : 0 < n.toNat := Nat.pos_of_ne_zero fun h => hn (congrArg Instr.rdBits (BitVec.eq_of_toNat_eq h))
    obtain ⟨r, hexec, -⟩ := rdBitsExhausted State.reset n hok (of_decide_eq_true hword) hpos
    exact ⟨_, hexec⟩
  | lcDec =>
    have hnone : NoSymbol State.reset.pending := fun k v rest _ h => by
      have hlen := congrArg List.length (pending_reset.symm.trans h)
      simp only [List.length_nil, List.length_append, length_lcSymbol] at hlen
      omega
    obtain ⟨r, hexec, -⟩ := lcDecExhausted State.reset hok hnone
    exact ⟨_, hexec⟩
  | decA =>
    obtain ⟨hcut, -⟩ := decATruncated
    obtain ⟨r, hexec, -⟩ := hcut State.reset (by simp [streamAtArg_reset])
    exact ⟨_, hexec⟩
  | decB =>
    obtain ⟨hcut, -⟩ := decBTruncated
    obtain ⟨r, pix, hexec, -⟩ := hcut State.reset (by simp [streamAtArg_reset])
    exact ⟨_, hexec⟩
  | _ => cases hi

/-- Settles O8: TRUNC comes from a truncated end, and after reset every reading command ends truncated. -/
theorem onlyReadersSetTrunc : Obligations.OnlyReadersSetTrunc := by
  unfold Obligations.OnlyReadersSetTrunc
  refine ⟨fun i s t hexec ht => ?_, fun i hword hi hn => ?_⟩
  · obtain ⟨e, u, rfl, hends⟩ := exec_next_ends hexec
    exact hends.of_trunc ht
  · obtain ⟨u, hexec⟩ := exec_reset_truncates hword hi hn
    exact ⟨State.reset, _, hexec, rfl⟩

end Sys2Proof.Machine
end
